-- ==== Sys2Proof/Word.lean ====
section
/-! DEFINITION. The word types of GRIBJS-CPC: 32-bit registers (10_state R23), data memory bytes (10_state R35). -/

namespace Sys2Proof

/-- A register of the block, `REG_W` = 32 bits (00_scope R6, 10_state R23). -/
abbrev Word := BitVec 32

/-- A byte of the data memory (10_state R35). -/
abbrev Byte := BitVec 8

end Sys2Proof
end

