-- ==== Sys2Proof/Config.lean ====
section
/-! DEFINITION. The implementation parameters of 00_scope R6, the OPEN ones without a value, and the free bytes. -/

namespace Sys2Proof.Config

/-- Number of bytes of the data memory, 2^`ADDR_W` (00_scope R6, 10_state R35). -/
def memSize : Nat := 2 ^ 32

/-- `RD_MAX_W`, the largest BitReader width (00_scope R6). -/
abbrev rdMaxW : Nat := 31

/-- `RD_MAX_OFF`, the largest start bit offset (00_scope R6). -/
abbrev rdMaxOff : Nat := 7

/-- `WR_MAX_W`, the largest BitWriter width (00_scope R6). -/
abbrev wrMaxW : Nat := 25

/-- `GW_MAX`, the largest group width (00_scope R6, 42_group R146). -/
abbrev gwMax : Nat := 31

/-- `MISSING`, the decoded marker 2^31 - 1 at `INT_W` = 32 (00_scope R6, 42_group R157). -/
def missing : Nat := 2 ^ 31 - 1

/-- `SPLIT_LEN_CODE` (00_scope R6, 42_group R142). -/
abbrev splitLenCode : Nat := 1

/-- `FP_EXACT_MAX`, the largest integer BR.READF converts (00_scope R6, 40_bitreader R109). -/
def fpExactMax : Nat := 2 ^ 24

/-- `QNAN`, the binary32 word BM.EXPAND writes at absent points (00_scope R6, 44_bitmap R195). -/
def qnan : Word := 0x7FC00000#32

/-- `EOW_MIN` (00_scope R6, 43_spatial R172). -/
abbrev eowMin : Nat := 1

/-- `EOW_MAX` (00_scope R6, 43_spatial R172). -/
abbrev eowMax : Nat := 4

/-- `ID_VALUE` (00_scope R6, 10_state R27). -/
def idValue : Word := 0x43504307#32

/-- Size in bytes of the register block (10_state R27). -/
def blockSize : Nat := 0x80

/-- OPEN (log 5): how far `MAX_GROUPS` falls short of 2^32 - 1. No body: no proof can see it. -/
opaque maxGroupsShortfall : Nat

/-- `MAX_GROUPS`, OPEN, an integer at least 1 (00_scope R6, 42_group R143; log 5). ngroups is below 2^32,
so a capacity above 2^32 - 1 behaves as 2^32 - 1 does: every MAX_GROUPS of the spec is some value here. -/
def maxGroups : Nat := max 1 (2 ^ 32 - 1 - maxGroupsShortfall)

/-- OPEN (log 6): `MMIO_BASE` in units of four bytes. No body: no proof can see it. -/
opaque mmioBaseWord : Nat

/-- `MMIO_BASE`, OPEN, any 4-byte-aligned host address (00_scope R6, 10_state R23; log 6). -/
def mmioBase : Nat := 4 * mmioBaseWord

/-- The host address of the register block's byte offset `off` (10_state R23, R27). -/
def hostAddress (off : Nat) : Nat := mmioBase + off

/-- FREE VALUE (log 4): the byte the `draw`-th draw gives at data address `addr` ("any value", 93 I-10, I-11, I-14;
60_exceptions R204, 70_reset R232, R242). No body: no proof can see it. -/
opaque freeByte (draw addr : Nat) : Byte

/-- FREE VALUE (log 3): the byte at data address `addr` at power-on ("any value, per byte", 93 I-15; 70_reset R231).
No body: no proof can see it. -/
opaque powerOnByte (addr : Nat) : Byte

end Sys2Proof.Config
end

