-- ==== Sys2Proof/Syntax.lean ====
section
/-! DEFINITION. The nine commands (30_encoding R73), command instances and host pseudo-instructions (R77, R78), and
the moves of the Host (60_exceptions R215). -/

namespace Sys2Proof

/-- The commands of the block, one constructor per row of the opcode map (30_encoding R73). A command word carries no
operand (R70), so no constructor has a field: operands are the snapshot registers A[0..15] (R72). -/
inductive Instr where
  | brRead     -- BR.READ
  | brReadf    -- BR.READF
  | bwOpen     -- BW.OPEN
  | bwWrite    -- BW.WRITE
  | bwWriteb   -- BW.WRITEB
  | bwClose    -- BW.CLOSE
  | gdDecode   -- GD.DECODE
  | sdDecode   -- SD.DECODE
  | bmExpand   -- BM.EXPAND
  deriving DecidableEq, Repr

/-- A command instance as it is written in the assembler syntax (30_encoding R77): the mnemonic, its operands in
A-register order, and whether `.keep` is given (R78). -/
structure CommandLine where
  instr    : Instr
  operands : List Nat
  keep     : Bool
  deriving DecidableEq, Repr

/-- One move of the Host (60_exceptions R215). Register accesses name a byte offset from MMIO_BASE and a size in
bytes (10_state R23); data memory is accessed byte by byte. -/
inductive HostMove where
  /-- read `size` bytes of the register block at `offset`: `mmio.r` when size = 4 -/
  | regRead (offset size : Nat)
  /-- write `size` bytes of the register block at `offset`: `mmio.w` when size = 4 -/
  | regWrite (offset size : Nat) (value : Word)
  /-- read one data-memory byte -/
  | memRead (addr : Word)
  /-- write one data-memory byte -/
  | memWrite (addr : Word) (value : Byte)
  /-- `cpc.wait`: read STATUS until BUSY = 0 (30_encoding R78) -/
  | wait
  /-- `cpc.check L`: read ERR and, on an error, go on with move number `target` of the Host's program (30_encoding R78) -/
  | check (target : Nat)
  deriving DecidableEq, Repr

/-- A line of a host program: a command or one of the pseudo-instructions of 30_encoding R78. The label of `cpc.check`
is the number of the line it stands before, in any direction; the number of lines stands for the program's end. -/
inductive HostLine where
  | command (c : CommandLine)
  | wait
  | check (label : Nat)
  | ack
  | res
  deriving DecidableEq, Repr

end Sys2Proof
end

