-- ==== Sys2Proof/Machine/State.lean ====
section
/-! DEFINITION. The architectural state of GRIBJS-CPC as plain data (10_state R22, R27, R33, R35), the model's own fields
for the Host and for draws, the reasons a step can stop, and the state after reset (70_reset R230). -/

namespace Sys2Proof.Machine

/-- The error codes ERR.CODE takes (60_exceptions R201). -/
inductive ErrCode where
  | none
  | illegal
  | width
  | offset
  | order
  | param
  | resource
  | bounds
  | overlap
  | size
  | groupWidth
  | badPacking
  | bitmap
  | session
  | overflow
  | floatRange
  deriving DecidableEq, Repr

/-- Who takes a step: the two agents of 00_scope R5, and the platform, which asserts reset (70_reset R230). -/
inductive Agent where
  | host
  | engine
  | platform
  deriving DecidableEq, Repr

/-- What a Host read returned (60_exceptions R215, "host gets back"). -/
inductive HostReply where
  | word (v : Word)
  | byte (v : Byte)
  deriving DecidableEq, Repr

/-- The region `[base, base + len)` of data addresses (00_scope R14). -/
structure Region where
  base : Nat
  len  : Nat
  deriving DecidableEq, Repr

/-- The BitWriter session (10_state R33). -/
structure Session where
  active : Bool
  base   : Word
  cap    : Word
  count  : Word
  nacc   : BitVec 3
  acc    : BitVec 7
  deriving DecidableEq, Repr

/-- The data memory (10_state R35): the bytes that have been written, addresses rising. -/
abbrev Memory := List Host.Cell

/-- The state of the machine (10_state R22), and the model's own fields `program` to `draws`. -/
structure State where
  /-- ARG0 .. ARG15 (10_state R28) -/
  args     : Vector Word 16
  /-- STATUS.BUSY (10_state R25) -/
  busy     : Bool
  /-- STATUS.DONE (10_state R25) -/
  done     : Bool
  /-- STATUS.OVR (10_state R25) -/
  ovr      : Bool
  /-- ERR.CODE (10_state R26) -/
  err      : ErrCode
  /-- ERR_INFO (10_state R26) -/
  errInfo  : Word
  /-- RES0 (10_state R26) -/
  res0     : Word
  /-- the BitWriter session (10_state R33); BW_BASE, BW_CAP, BW_COUNT, BW_PART and STATUS.BWA are views of it -/
  session  : Session
  /-- CMDLATCH, the accepted command word (10_state R36) -/
  cmdLatch : Word
  /-- the snapshot A[0..15] of the ARG registers at acceptance (10_state R22, R36) -/
  snap     : Vector Word 16
  /-- the data memory (10_state R35) -/
  mem      : Memory
  /-- the Host's program: its moves in program order (log 1) -/
  program  : List HostMove
  /-- the number of the Host's next move in its program (log 1) -/
  position : Nat
  /-- whose turn each step to come is: the platform's, which is then a reset, or, while a command runs and the Host has a
  move, the Host's or the Engine's (70_reset R230, R240; log 2, 18) -/
  schedule : List Agent
  /-- what the Host has read, newest first (log 1) -/
  replies  : List HostReply
  /-- the platform's data windows with read side effects (20_memory R61; log 9) -/
  devices  : List Region
  /-- how many draws of unspecified bytes have been made (log 4) -/
  draws    : Nat
  deriving DecidableEq, Repr

/-- Why the machine stops with a fault. The spec has none: every command completes (93 section 1, "stuck"). -/
inductive Fault where
  /-- Raised by BW.WRITE, BW.WRITEB and BW.CLOSE when the session would flush a byte at an address that is no data
  address (20_memory R59: no address wraps). Only in states whose session breaks `Session.wf`, which no run reaches.
  SAFE: nothing is claimed of the state after it (log 10). -/
  | flushOutsideMemory
  deriving DecidableEq, Repr

/-- Why the model has no transition (93, treatment "refuse"). -/
inductive Refusal where
  /-- An instruction without a meaning: raised by an arm of `exec`. SAFE. No arm raises it. -/
  | notModelled (mnemonic : String)
  /-- Raised by a Host access of the register block that is not an aligned 32-bit access (10_state R23, 93 I-12). SAFE. -/
  | misshapenRegisterAccess (offset size : Nat)
  /-- Raised by a Host access at an offset outside the 0x80 bytes of the block (10_state R27; log 11). SAFE. -/
  | outsideRegisterBlock (offset : Nat)
  /-- Raised by a Host write into a footprint of the running command (70_reset R242, 93 I-9). SAFE. -/
  | hostWriteInFootprint (addr : Word)
  /-- Raised by a completion step whose command's read footprint touches a device with read side effects
  (20_memory R61, 93 I-13). SAFE. -/
  | deviceInReadFootprint
  deriving DecidableEq, Repr

/-- The session after reset (10_state R42). -/
def Session.reset : Session :=
  { active := false, base := 0#32, cap := 0#32, count := 0#32, nacc := 0#3, acc := 0#7 }

/-- The machine right after reset (70_reset R230, 10_state R42). Memory lists nothing: every byte has its
power-on value (log 3). The model's own fields are empty (log 1, 2, 4, 9). -/
def State.reset : State :=
  { args := Vector.replicate 16 0#32, busy := false, done := false, ovr := false,
    err := .none, errInfo := 0#32, res0 := 0#32, session := Session.reset,
    cmdLatch := 0#32, snap := Vector.replicate 16 0#32, mem := [],
    program := [], position := 0, schedule := [], replies := [], devices := [], draws := 0 }

end Sys2Proof.Machine
end

