-- ==== Sys2Proof/Machine/Memory.lean ====
section
/-! DEFINITION. Integer notation (00_scope R8), regions (R14), the data memory in one canonical form, and the memory and
stream primitives of 00_scope R9, R10 and R12. -/

namespace Sys2Proof.Machine

/-! Integer notation -/

/-- `ceil8(x)`, the bytes that hold x bits (00_scope R8). -/
def ceil8 (x : Nat) : Nat := (x + 7) / 8

/-- `ones(k)`, the all-ones pattern of k bits as an integer (00_scope R8). -/
def ones (k : Nat) : Int := 2 ^ k - 1

/-- `sat32(x)` (00_scope R8). -/
def sat32 (x : Nat) : Nat := min x (2 ^ 32 - 1)

/-- `sext_32(v)`: the two's complement 32-bit encoding of v (00_scope R8). -/
def sext32 (v : Int) : Word := BitVec.ofInt 32 v

/-! Regions -/

/-- The region holds address `a` (00_scope R14). -/
def Region.has (r : Region) (a : Nat) : Bool := decide (r.base ≤ a) && decide (a < r.base + r.len)

/-- The region is out of bounds: not empty and passing 2^32 (00_scope R14). -/
def Region.outOfBounds (r : Region) : Bool := decide (0 < r.len) && decide (Config.memSize < r.base + r.len)

/-- Two regions overlap: both are non-empty and share an address (00_scope R14). -/
def Region.overlaps (r q : Region) : Bool :=
  decide (0 < r.len) && decide (0 < q.len) && decide (r.base < q.base + q.len) && decide (q.base < r.base + r.len)

/-! The data memory -/

/-- What an address that nothing has written reads as: its free power-on byte (70_reset R231, 93 I-15; log 3). -/
def Memory.unlisted (a : Nat) : Byte := Config.powerOnByte a

/-- The canonical form: addresses strictly rising, all of them data addresses. An unlisted address has no value of its
own, so no entry can repeat it, and two memories with the same bytes written are the same list (log 3). -/
abbrev Memory.wf (m : Memory) : Prop :=
  m.Pairwise (fun c d => c.1 < d.1) ∧ ∀ c ∈ m, c.1 < Config.memSize

/-- The byte written at an address, none where nothing has been written. -/
def Memory.written? : Memory → Nat → Option Byte
  | [], _ => none
  | (k, v) :: m, a => if k = a then some v else Memory.written? m a

/-- `MemRead8(addr)` (00_scope R9); it changes nothing (20_memory R61). -/
def Memory.read (m : Memory) (a : Nat) : Byte := (m.written? a).getD (Memory.unlisted a)

/-- Write one byte, keeping the canonical form. -/
def Memory.write : Memory → Nat → Byte → Memory
  | [], a, b => [(a, b)]
  | (k, v) :: m, a, b =>
    if k < a then (k, v) :: Memory.write m a b
    else (a, b) :: (if k = a then m else (k, v) :: m)

/-- `MemWrite(addr, n, v)`: the n bytes of v in little-endian order (00_scope R9). -/
def Memory.writeLE (m : Memory) (a : Nat) : Nat → Nat → Memory
  | 0, _ => m
  | n + 1, v => Memory.writeLE (Memory.write m a (BitVec.ofNat 8 v)) (a + 1) n (v / 256)

/-- The n bytes from `a`, as a little-endian integer. -/
def Memory.readLE (m : Memory) (a : Nat) : Nat → Nat
  | 0 => 0
  | n + 1 => (Memory.read m a).toNat + 256 * Memory.readLE m (a + 1) n

/-- `LE32(addr)`, an element of an element array (00_scope R9, 20_memory R54). -/
def Memory.le32 (m : Memory) (a : Nat) : Word := BitVec.ofNat 32 (Memory.readLE m a 4)

/-- Store an element array: element i at a + 4i (20_memory R54). -/
def Memory.storeWords (m : Memory) (a : Nat) : List Word → Memory
  | [] => m
  | v :: vs => Memory.storeWords (Memory.writeLE m a 4 v.toNat) (a + 4) vs

/-- The n elements of the element array at `a` (20_memory R54). -/
def Memory.loadWords (m : Memory) (a n : Nat) : List Word :=
  (List.range n).map (fun i => Memory.le32 m (a + 4 * i))

/-- Give each of the n bytes from `a` the value of the `draw`-th draw (60_exceptions R204; log 4). -/
def Memory.drawBytes (m : Memory) (draw a : Nat) : Nat → Memory
  | 0 => m
  | n + 1 => Memory.drawBytes (Memory.write m a (Config.freeByte draw a)) draw (a + 1) n

/-- Draw the bytes of a region that are data addresses (log 4, 8). -/
def Memory.drawRegion (m : Memory) (draw : Nat) (r : Region) : Memory :=
  Memory.drawBytes m draw r.base (min r.len (Config.memSize - r.base))

/-! Streams -/

/-- `StreamBit(base, k)`: bit 7 - k mod 8 of byte base + k div 8 (00_scope R10). -/
def streamBit (m : Memory) (base k : Nat) : Bool := (m.read (base + k / 8)).getLsbD (7 - k % 8)

/-- `Field(base, k, w)`: the w stream bits from k, the most significant first (00_scope R10). -/
def field (m : Memory) (base k : Nat) : Nat → Nat
  | 0 => 0
  | w + 1 => 2 * field m base k w + (streamBit m base (k + w)).toNat

/-- The n bytes from `a`, as a big-endian integer (00_scope R12, the sum U). -/
def bigEndian (m : Memory) (a : Nat) : Nat → Nat
  | 0 => 0
  | n + 1 => 256 * bigEndian m a n + (m.read (a + n)).toNat

/-- `BESM(addr, n)`: the big-endian sign-magnitude value of n bytes (00_scope R12). -/
def besm (m : Memory) (a n : Nat) : Int :=
  let u := bigEndian m a n
  if u / 2 ^ (8 * n - 1) = 1 then -((u % 2 ^ (8 * n - 1) : Nat) : Int) else ((u % 2 ^ (8 * n - 1) : Nat) : Int)

end Sys2Proof.Machine
end

