-- ==== Sys2Proof/Machine/Flags.lean ====
section
/-! DEFINITION. The code numbers of errors (60_exceptions R201), the STATUS flags (10_state R25), the views of ERR (R26)
and BW_PART (R34), and every register as the Host reads it (R27). -/

namespace Sys2Proof.Machine

/-- The number of an error code (60_exceptions R201). -/
def ErrCode.number : ErrCode → BitVec 8
  | .none       => 0x00#8
  | .illegal    => 0x01#8
  | .width      => 0x02#8
  | .offset     => 0x03#8
  | .order      => 0x04#8
  | .param      => 0x05#8
  | .resource   => 0x06#8
  | .bounds     => 0x07#8
  | .overlap    => 0x08#8
  | .size       => 0x09#8
  | .groupWidth => 0x0A#8
  | .badPacking => 0x0B#8
  | .bitmap     => 0x0C#8
  | .session    => 0x0D#8
  | .overflow   => 0x0E#8
  | .floatRange => 0x0F#8

/-- STATUS.ERROR: ERR.CODE is not 0 (10_state R25). -/
def State.errorFlag (s : State) : Bool := s.err.number != 0#8

/-- STATUS as the Host reads it: BUSY, DONE, ERROR, OVR, BWA in bits 0 to 4, the rest 0 (10_state R25). -/
def State.statusWord (s : State) : Word :=
  0#27 ++ BitVec.ofBool s.session.active ++ BitVec.ofBool s.ovr ++ BitVec.ofBool s.errorFlag
    ++ BitVec.ofBool s.done ++ BitVec.ofBool s.busy

/-- ERR as the Host reads it: CODE in bits 7:0 (10_state R26). -/
def State.errWord (s : State) : Word := 0#24 ++ s.err.number

/-- BW_PART: NACC in bits 3:0, ACC in bits 14:8 (10_state R34). -/
def Session.partWord (b : Session) : Word := 0#17 ++ b.acc ++ 0#5 ++ b.nacc

/-- A Host write of STATUS: a 1 clears DONE or OVR, all else is ignored (10_state R25). -/
def State.ackStatus (s : State) (v : Word) : State :=
  { s with done := s.done && !v.getLsbD 1, ovr := s.ovr && !v.getLsbD 3 }

/-- The register at each aligned offset of the block (10_state R27). -/
inductive RegName where
  | id
  | cmd
  | status
  | err
  | errInfo
  | res0
  | bwBase
  | bwCap
  | bwCount
  | bwPart
  | reserved
  | arg (i : Fin 16)
  deriving DecidableEq, Repr

/-- The register map (10_state R27): which register the word `w` of the block (offset 4w) is. -/
def regOfWord (w : Nat) : RegName :=
  if w < 16 then
    match w with
    | 0 => .id
    | 1 => .cmd
    | 2 => .status
    | 3 => .err
    | 4 => .errInfo
    | 5 => .res0
    | 6 => .bwBase
    | 7 => .bwCap
    | 8 => .bwCount
    | 9 => .bwPart
    | _ => .reserved
  else .arg (Fin.ofNat 16 (w - 16))

/-- The value a Host read of a register returns (10_state R24 to R27, R34). -/
def State.readReg (s : State) : RegName → Word
  | .id       => Config.idValue
  | .cmd      => 0#32
  | .status   => s.statusWord
  | .err      => s.errWord
  | .errInfo  => s.errInfo
  | .res0     => s.res0
  | .bwBase   => s.session.base
  | .bwCap    => s.session.cap
  | .bwCount  => s.session.count
  | .bwPart   => s.session.partWord
  | .reserved => 0#32
  | .arg i    => s.args[i]

end Sys2Proof.Machine
end

