-- ==== Sys2Proof/Machine/Ops.lean ====
section
/-! DEFINITION. The operations every command shares: a sequence of checks that reports the first failure (60_exceptions
R206), raising an error (00_scope R11, 60_exceptions R203), successful completion (10_state R38), drawing unspecified
bytes (R204), and acceptance of a command word (10_state R36), which is also what clears an error (60_exceptions R205). -/

namespace Sys2Proof.Machine

/-- What `raise E_X(info)` reports (00_scope R11). -/
structure Raise where
  code : ErrCode
  info : Nat
  deriving DecidableEq, Repr

/-- One check: raise `code` with `info` when `bad` holds. -/
def check (bad : Bool) (code : ErrCode) (info : Nat) : Option Raise := if bad then some ⟨code, info⟩ else none

/-- The first failing check of a command's order (60_exceptions R206). -/
def firstFailure : List (Option Raise) → Option Raise
  | [] => none
  | some r :: _ => some r
  | none :: cs => firstFailure cs

/-- Taking an error: it is recorded, RES0 becomes 0, and the engine becomes idle (60_exceptions R203). -/
def State.raise (r : Raise) (s : State) : State :=
  { s with err := r.code, errInfo := BitVec.ofNat 32 r.info, res0 := 0#32, busy := false, done := true }

/-- Successful completion with result `v` in RES0 (10_state R38). -/
def State.succeed (v : Nat) (s : State) : State :=
  { s with err := .none, errInfo := 0#32, res0 := BitVec.ofNat 32 v, busy := false, done := true }

/-- Draw the data bytes of a region: each takes an unconstrained value (60_exceptions R204; log 4). -/
def State.draw (r : Region) (s : State) : State :=
  { s with mem := s.mem.drawRegion s.draws r, draws := s.draws + 1 }

/-- The errors after which the destination region is unspecified (60_exceptions R204). -/
def ErrCode.spoilsDestination : ErrCode → Bool
  | .overflow   => true
  | .floatRange => true
  | .none => false
  | .illegal => false
  | .width => false
  | .offset => false
  | .order => false
  | .param => false
  | .resource => false
  | .bounds => false
  | .overlap => false
  | .size => false
  | .groupWidth => false
  | .badPacking => false
  | .bitmap => false
  | .session => false

/-- Raise an error of a command whose destination region is `dst` (60_exceptions R203, R204). -/
def State.raiseFrom (dst : Region) (r : Raise) (s : State) : State :=
  if r.code.spoilsDestination then (s.draw dst).raise r else s.raise r

/-- Store an element array and complete with result `v`. -/
def State.deliver (dst : Nat) (vs : List Word) (v : Nat) (s : State) : State :=
  State.succeed v { s with mem := s.mem.storeWords dst vs }

/-- Acceptance of the command word `w` (10_state R36). It also clears the last error (60_exceptions R205). -/
def State.accept (w : Word) (s : State) : State :=
  { s with snap := s.args, cmdLatch := w, busy := true, done := false, err := .none, errInfo := 0#32, res0 := 0#32 }

/-- A Host write of CMD: accepted when idle, dropped with OVR set while a command runs (10_state R24, R36, R37). -/
def State.submit (w : Word) (s : State) : State :=
  if s.busy then { s with ovr := true } else s.accept w

end Sys2Proof.Machine
end

