-- ==== Sys2Proof/Machine/Operands.lean ====
section
/-! DEFINITION. The operand assignment of every command (30_encoding R72): A[i] as an unsigned integer (R74), and the
regions each command names (20_memory R57, R58). -/

namespace Sys2Proof.Machine

/-- `A[i]`, the snapshot of ARGi, as an unsigned integer (10_state R22, 30_encoding R74). -/
def State.opnd (s : State) (i : Fin 16) : Nat := s.snap[i].toNat

/-- The operands of BR.READ and BR.READF (30_encoding R72, 40_bitreader R100, R108). -/
structure ReadOps where
  src : Nat
  off : Nat
  w   : Nat
  n   : Nat
  dst : Nat
  deriving DecidableEq, Repr

/-- Operands of BR.READ and BR.READF (30_encoding R72). -/
def State.readOps (s : State) : ReadOps :=
  { src := s.opnd 0, off := s.opnd 1, w := s.opnd 2, n := s.opnd 3, dst := s.opnd 4 }

/-- `footprint(off, w, n)` (40_bitreader R101). -/
def ReadOps.footprint (o : ReadOps) : Nat := if o.w * o.n = 0 then 0 else ceil8 (o.off + o.w * o.n)

/-- The footprint region of a BitReader command (40_bitreader R101). -/
def ReadOps.source (o : ReadOps) : Region := ⟨o.src, o.footprint⟩

/-- The destination of a BitReader command: n elements (40_bitreader R100). -/
def ReadOps.dest (o : ReadOps) : Region := ⟨o.dst, 4 * o.n⟩

/-- The operands of BW.OPEN (41_bitwriter R120). -/
structure OpenOps where
  base : Nat
  cap  : Nat
  deriving DecidableEq, Repr

/-- Operands of BW.OPEN (30_encoding R72). -/
def State.openOps (s : State) : OpenOps := { base := s.opnd 0, cap := s.opnd 1 }

/-- The operands of BW.WRITEB (41_bitwriter R127). -/
structure BatchOps where
  src : Nat
  cnt : Nat
  w   : Nat
  deriving DecidableEq, Repr

/-- Operands of BW.WRITEB (30_encoding R72). -/
def State.batchOps (s : State) : BatchOps := { src := s.opnd 0, cnt := s.opnd 1, w := s.opnd 2 }

/-- The source array of BW.WRITEB (41_bitwriter R127). -/
def BatchOps.source (o : BatchOps) : Region := ⟨o.src, 4 * o.cnt⟩

/-- The session's target region `[BASE, BASE + CAP)` (20_memory R58). -/
def Session.target (b : Session) : Region := ⟨b.base.toNat, b.cap.toNat⟩

/-- The decoding parameters GD.DECODE and SD.DECODE share (42_group R140, 43_spatial R170). -/
structure GroupOps where
  payload : Nat
  size    : Nat
  dst     : Nat
  npnts   : Nat
  nbits   : Nat
  ng      : Nat
  gsm     : Nat
  mvm     : Nat
  rgw     : Nat
  nbgw    : Nat
  rgl     : Nat
  glf     : Nat
  lenLast : Nat
  nbgl    : Nat
  deriving DecidableEq, Repr

/-- Operands A[0] .. A[13] of GD.DECODE and SD.DECODE (30_encoding R72). -/
def State.groupOps (s : State) : GroupOps :=
  { payload := s.opnd 0, size := s.opnd 1, dst := s.opnd 2, npnts := s.opnd 3, nbits := s.opnd 4, ng := s.opnd 5,
    gsm := s.opnd 6, mvm := s.opnd 7, rgw := s.opnd 8, nbgw := s.opnd 9, rgl := s.opnd 10, glf := s.opnd 11,
    lenLast := s.opnd 12, nbgl := s.opnd 13 }

/-- `order`, A[14] of SD.DECODE (30_encoding R72). -/
def State.sdOrder (s : State) : Nat := s.opnd 14

/-- `eow`, A[15] of SD.DECODE (30_encoding R72). -/
def State.sdEow (s : State) : Nat := s.opnd 15

/-- The section `[payload, payload + size)` (42_group R141). -/
def GroupOps.payloadRegion (o : GroupOps) : Region := ⟨o.payload, o.size⟩

/-- The destination `[dst, dst + 4 npnts)` (42_group R141). -/
def GroupOps.dest (o : GroupOps) : Region := ⟨o.dst, 4 * o.npnts⟩

/-- The operands of BM.EXPAND (44_bitmap R190). -/
structure ExpandOps where
  c  : Nat
  nc : Nat
  b  : Nat
  n  : Nat
  d  : Nat
  deriving DecidableEq, Repr

/-- Operands of BM.EXPAND (30_encoding R72). -/
def State.expandOps (s : State) : ExpandOps :=
  { c := s.opnd 0, nc := s.opnd 1, b := s.opnd 2, n := s.opnd 3, d := s.opnd 4 }

/-- The compact array of BM.EXPAND (44_bitmap R191). -/
def ExpandOps.compact (o : ExpandOps) : Region := ⟨o.c, 4 * o.nc⟩

/-- The bitmap of BM.EXPAND (44_bitmap R191). -/
def ExpandOps.bitmap (o : ExpandOps) : Region := ⟨o.b, ceil8 o.n⟩

/-- The destination of BM.EXPAND (44_bitmap R191). -/
def ExpandOps.dest (o : ExpandOps) : Region := ⟨o.d, 4 * o.n⟩

end Sys2Proof.Machine
end

