-- ==== Sys2Proof/Machine/BitReader.lean ====
section
/-! DEFINITION. BR.READ and BR.READF (40_bitreader R100 to R110). -/

namespace Sys2Proof.Machine

/-- The checks of a BitReader command in their order, all before the buffer is touched (40_bitreader R100, R105). -/
def readChecks (o : ReadOps) : Option Raise :=
  firstFailure
    [ check (Config.rdMaxW < o.w) .width o.w,
      check (Config.rdMaxOff < o.off) .offset o.off,
      check o.source.outOfBounds .bounds o.src,
      check o.dest.outOfBounds .bounds o.dst,
      check (o.source.overlaps o.dest) .overlap o.dst ]

/-- The n extracted values: value i is the field at stream bit off + i w (40_bitreader R102). -/
def readValues (m : Memory) (o : ReadOps) : List Nat :=
  (List.range o.n).map (fun i => field m o.src (o.off + i * o.w) o.w)

/-- `f32(v)`, the binary32 encoding of an integer 0 ≤ v ≤ 2^24 (40_bitreader R110). -/
def f32 (v : Nat) : Word :=
  if v = 0 then 0x00000000#32
  else
    let e := v.log2
    if e ≤ 23 then BitVec.ofNat 32 ((e + 127) * 2 ^ 23 + (v * 2 ^ (23 - e) - 2 ^ 23))
    else 0x4B800000#32

/-- The range check of BR.READF: the lowest index of a value above 2^24 (40_bitreader R108, R109). -/
def floatCheck (vs : List Nat) : Option Raise :=
  (vs.findIdx? (fun v => decide (Config.fpExactMax < v))).map (fun i => ⟨.floatRange, i⟩)

/-- BR.READ (40_bitreader R100). The values are read before the destination is written; the two regions do not overlap,
so this equals the interleaved order of the pseudocode (log 13). -/
def execBrRead (s : State) : Host.Outcome State Fault Refusal :=
  let o := s.readOps
  match readChecks o with
  | some r => .next (s.raise r)
  | none => .next (s.deliver o.dst ((readValues s.mem o).map (BitVec.ofNat 32)) o.footprint)

/-- BR.READF (40_bitreader R108). After E_FLOAT_RANGE the destination is unspecified (60_exceptions R204). -/
def execBrReadf (s : State) : Host.Outcome State Fault Refusal :=
  let o := s.readOps
  match readChecks o with
  | some r => .next (s.raise r)
  | none =>
    let vs := readValues s.mem o
    match floatCheck vs with
    | some r => .next (s.raiseFrom o.dest r)
    | none => .next (s.deliver o.dst (vs.map f32) o.footprint)

end Sys2Proof.Machine
end

