-- ==== Sys2Proof/Machine/BitWriter.lean ====
section
/-! DEFINITION. BW.OPEN, BW.WRITE, BW.WRITEB and BW.CLOSE (41_bitwriter R120 to R136). -/

namespace Sys2Proof.Machine

/-- The session's bit count T = 8 COUNT + NACC (10_state R32, 41_bitwriter R126). -/
def Session.bits (b : Session) : Nat := 8 * b.count.toNat + b.nacc.toNat

/-- The output cursor BASE + COUNT (10_state R33). -/
def Session.cursor (b : Session) : Nat := b.base.toNat + b.count.toNat

/-- The bytes the target needs once `n` more bits are appended (41_bitwriter R126). -/
def Session.bytesNeeded (b : Session) (n : Nat) : Nat := ceil8 (b.bits + n)

/-- The bytes needed lie in the data memory. It holds whenever they fit CAP, by the check of BW.OPEN (log 10). -/
def Session.flushFits (b : Session) (n : Nat) : Bool := decide (b.base.toNat + b.bytesNeeded n ≤ Config.memSize)

/-- A session together with the memory it flushes into. -/
structure Sink where
  session : Session
  mem     : Memory
  deriving DecidableEq, Repr

/-- Append one bit and flush the byte it completes at the output cursor: the loop body of `append` (41_bitwriter R122). -/
def Sink.appendBit (x : Sink) (bit : Bool) : Sink :=
  let acc := 2 * x.session.acc.toNat + bit.toNat
  let nacc := x.session.nacc.toNat + 1
  if nacc = 8 then
    { session := { x.session with count := x.session.count + 1#32, acc := 0#7, nacc := 0#3 },
      mem := x.mem.write x.session.cursor (BitVec.ofNat 8 acc) }
  else
    { x with session := { x.session with acc := BitVec.ofNat 7 acc, nacc := BitVec.ofNat 3 nacc } }

/-- `append(v, w)`: the w low bits of v, the most significant first (41_bitwriter R122). -/
def Sink.append (x : Sink) (v : Word) : Nat → Sink
  | 0 => x
  | w + 1 => Sink.append (x.appendBit (v.getLsbD w)) v w

/-- Append values in order, each at width w (41_bitwriter R127). -/
def Sink.appendAll (x : Sink) (w : Nat) : List Word → Sink
  | [] => x
  | v :: vs => Sink.appendAll (x.append v w) w vs

/-- Flush a partial byte, pending bits high and zeros low, and end the session (41_bitwriter R131). -/
def Sink.close (x : Sink) : Sink :=
  let b := x.session
  if b.nacc = 0#3 then { x with session := { b with active := false, nacc := 0#3, acc := 0#7 } }
  else
    { session := { b with active := false, count := b.count + 1#32, nacc := 0#3, acc := 0#7 },
      mem := x.mem.write b.cursor (BitVec.ofNat 8 (b.acc.toNat * 2 ^ (8 - b.nacc.toNat))) }

/-- The session and memory of a state. -/
def State.sink (s : State) : Sink := { session := s.session, mem := s.mem }

/-- The state with another session and memory. -/
def State.withSink (x : Sink) (s : State) : State := { s with session := x.session, mem := x.mem }

/-- `abort()` (41_bitwriter R129). -/
def State.abort (s : State) : State :=
  { s with session := { s.session with active := false, nacc := 0#3, acc := 0#7 } }

/-- The session after BW.OPEN (41_bitwriter R120). -/
def Session.opened (base cap : Nat) : Session :=
  { active := true, base := BitVec.ofNat 32 base, cap := BitVec.ofNat 32 cap, count := 0#32, nacc := 0#3, acc := 0#7 }

/-- The checks of BW.OPEN in their order (41_bitwriter R120, R121). -/
def openChecks (b : Session) (o : OpenOps) : Option Raise :=
  firstFailure
    [ check b.active .session 1,
      check (Region.mk o.base o.cap).outOfBounds .bounds o.base ]

/-- The check of BW.WRITE, BW.WRITEB and BW.CLOSE that a session is open (41_bitwriter R121). -/
def sessionCheck (b : Session) : Option Raise := check (!b.active) .session 0

/-- The checks of BW.WRITE that abort the session (41_bitwriter R124 to R126). -/
def writeChecks (b : Session) (w : Nat) : Option Raise :=
  firstFailure
    [ check (Config.wrMaxW < w) .width w,
      check (b.cap.toNat < b.bytesNeeded w) .bounds (sat32 (b.bytesNeeded w)) ]

/-- The checks of BW.WRITEB that abort the session (41_bitwriter R127). -/
def batchChecks (b : Session) (o : BatchOps) : Option Raise :=
  firstFailure
    [ check (Config.wrMaxW < o.w) .width o.w,
      check o.source.outOfBounds .bounds o.src,
      check (o.source.overlaps b.target) .overlap o.src,
      check (b.cap.toNat < b.bytesNeeded (o.w * o.cnt)) .bounds (sat32 (b.bytesNeeded (o.w * o.cnt))) ]

/-- Complete a BW command with the given session and memory; RES0 = COUNT (41_bitwriter R132). -/
def State.settle (x : Sink) (s : State) : State := State.succeed x.session.count.toNat (s.withSink x)

/-- BW.OPEN (41_bitwriter R120). -/
def execBwOpen (s : State) : Host.Outcome State Fault Refusal :=
  let o := s.openOps
  match openChecks s.session o with
  | some r => .next (s.raise r)
  | none => .next (State.succeed 0 { s with session := Session.opened o.base o.cap })

/-- BW.WRITE (41_bitwriter R124): `v = A[0]`, `w = A[1]`. -/
def execBwWrite (s : State) : Host.Outcome State Fault Refusal :=
  let w := s.opnd 1
  match sessionCheck s.session with
  | some r => .next (s.raise r)
  | none =>
    match writeChecks s.session w with
    | some r => .next (s.abort.raise r)
    | none =>
      if s.session.flushFits w then .next (s.settle (s.sink.append s.snap[0] w))
      else .fault .flushOutsideMemory

/-- BW.WRITEB (41_bitwriter R127). All values are read before any byte is written. -/
def execBwWriteb (s : State) : Host.Outcome State Fault Refusal :=
  let o := s.batchOps
  match sessionCheck s.session with
  | some r => .next (s.raise r)
  | none =>
    match batchChecks s.session o with
    | some r => .next (s.abort.raise r)
    | none =>
      if s.session.flushFits (o.w * o.cnt) then
        .next (s.settle (s.sink.appendAll o.w (s.mem.loadWords o.src o.cnt)))
      else .fault .flushOutsideMemory

/-- BW.CLOSE (41_bitwriter R131). -/
def execBwClose (s : State) : Host.Outcome State Fault Refusal :=
  match sessionCheck s.session with
  | some r => .next (s.raise r)
  | none =>
    if s.session.flushFits 0 then .next (s.settle s.sink.close)
    else .fault .flushOutsideMemory

end Sys2Proof.Machine
end

