-- ==== Sys2Proof/Machine/BitmapExpander.lean ====
section
/-! DEFINITION. BM.EXPAND (44_bitmap R190 to R197). -/

namespace Sys2Proof.Machine

/-- The bitmap's N bits: bit p is stream bit p (44_bitmap R192). -/
def bitmapBits (m : Memory) (b n : Nat) : List Bool := (List.range n).map (fun p => streamBit m b p)

/-- `pc`, the number of set bits (44_bitmap R190). -/
def setBits (bs : List Bool) : Nat := bs.countP (fun b => b)

/-- The checks of BM.EXPAND before the bitmap is counted (44_bitmap R190, R191). -/
def expandChecks (o : ExpandOps) : Option Raise :=
  firstFailure
    [ check o.compact.outOfBounds .bounds o.c,
      check o.bitmap.outOfBounds .bounds o.b,
      check o.dest.outOfBounds .bounds o.d,
      check (o.dest.overlaps o.compact) .overlap o.d,
      check (o.dest.overlaps o.bitmap) .overlap o.d ]

/-- The count check (44_bitmap R193). -/
def bitmapCheck (pc nc : Nat) : Option Raise := check (pc ≠ nc) .bitmap (sat32 pc)

/-- The scatter loop: a set bit takes the next compact value, a clear bit QNAN; `j` compact values of the array at `c`
are used already (44_bitmap R194, R195). -/
def scatter (m : Memory) (c : Nat) : List Bool → Nat → List Word
  | [], _ => []
  | true :: bs, j => m.le32 (c + 4 * j) :: scatter m c bs (j + 1)
  | false :: bs, j => Config.qnan :: scatter m c bs j

/-- BM.EXPAND (44_bitmap R190). -/
def execBmExpand (s : State) : Host.Outcome State Fault Refusal :=
  let o := s.expandOps
  match expandChecks o with
  | some r => .next (s.raise r)
  | none =>
    let bs := bitmapBits s.mem o.b o.n
    match bitmapCheck (setBits bs) o.nc with
    | some r => .next (s.raise r)
    | none => .next (s.deliver o.d (scatter s.mem o.c bs 0) (setBits bs))

end Sys2Proof.Machine
end

