-- ==== Sys2Proof/Machine/GroupDecoder.lean ====
section
/-! DEFINITION. GD.DECODE and the two functions it shares with SD.DECODE: the parameter validation `GDValidate`
(42_group R142, R143) and the group decoding `GDCore` (R144 to R157). -/

namespace Sys2Proof.Machine

/-- A slot of the DecodedField: the tag MISS or a value (42_group R152, R159). -/
inductive Slot where
  | miss
  | val (x : Int)
  deriving DecidableEq, Repr

/-- A group's descriptor as it is read from the section: reference, width and length (42_group R145). -/
structure Descriptor where
  reference : Nat
  width     : Nat
  length    : Nat
  deriving DecidableEq, Repr

/-- A group's record after the layout (42_group R147). -/
structure Group where
  reference   : Nat
  width       : Nat
  length      : Nat
  valueIndex  : Nat
  byteOffset  : Nat
  bitOffset   : Nat
  deriving DecidableEq, Repr

/-! Validation -/

/-- `GDValidate`: the parameter checks and the resource check, in order (42_group R142, R143). MAX_GROUPS is the
argument `maxGroups` (OPEN, log 5). -/
def groupParamChecks (maxGroups : Nat) (o : GroupOps) : List (Option Raise) :=
  [ check (Config.rdMaxW < o.nbits) .width o.nbits,
    check (Config.rdMaxW < o.nbgw) .width o.nbgw,
    check (Config.rdMaxW < o.nbgl) .width o.nbgl,
    check (2 < o.mvm) .param 7,
    check (!(decide (o.gsm = 0) || decide (o.gsm = Config.splitLenCode))) .param 6,
    check (o.ng = 0) .param 5,
    check (maxGroups < o.ng) .resource o.ng ]

/-- The region checks: section, destination, overlap (42_group R140, R141). -/
def groupRegionChecks (o : GroupOps) : List (Option Raise) :=
  [ check o.payloadRegion.outOfBounds .bounds o.payload,
    check o.dest.outOfBounds .bounds o.dst,
    check (o.payloadRegion.overlaps o.dest) .overlap o.dst ]

/-- The checks of GD.DECODE before it reads memory (42_group R140, R160 steps 1 to 5). -/
def groupChecks (maxGroups : Nat) (o : GroupOps) : Option Raise :=
  firstFailure (groupParamChecks maxGroups o ++ groupRegionChecks o)

/-! Reading the descriptors (42_group R144, R145) -/

/-- `nlen`, the number of length fields. -/
def GroupOps.nlen (o : GroupOps) : Nat := if o.gsm = Config.splitLenCode then o.ng - 1 else o.ng

/-- `B_ref`, the bytes of part 1. -/
def GroupOps.bRef (o : GroupOps) : Nat := ceil8 (o.ng * o.nbits)

/-- `B_wid`, the bytes of part 2. -/
def GroupOps.bWid (o : GroupOps) : Nat := ceil8 (o.ng * o.nbgw)

/-- `B_len`, the bytes of part 3. -/
def GroupOps.bLen (o : GroupOps) : Nat := ceil8 (o.nlen * o.nbgl)

/-- `H`, where part 4 starts. -/
def GroupOps.headerBytes (o : GroupOps) : Nat := o.bRef + o.bWid + o.bLen

/-- `ref[g]` of the section at `base`. -/
def GroupOps.ref (o : GroupOps) (m : Memory) (base g : Nat) : Nat := field m base (g * o.nbits) o.nbits

/-- `wd[g]` of the section at `base`. -/
def GroupOps.width (o : GroupOps) (m : Memory) (base g : Nat) : Nat :=
  field m (base + o.bRef) (g * o.nbgw) o.nbgw + o.rgw

/-- `len[g]` of the section at `base`: read and scaled for g < nlen, and `len_last` for the final group of the split form. -/
def GroupOps.length (o : GroupOps) (m : Memory) (base g : Nat) : Nat :=
  if g < o.nlen then field m (base + o.bRef + o.bWid) (g * o.nbgl) o.nbgl * o.glf + o.rgl else o.lenLast

/-- The descriptors of all groups. -/
def GroupOps.descriptors (o : GroupOps) (m : Memory) (base : Nat) : List Descriptor :=
  (List.range o.ng).map (fun g =>
    { reference := o.ref m base g, width := o.width m base g, length := o.length m base g })

/-! Layout (42_group R147) -/

/-- Pass (a) at its end: the sum of all lengths, `idx[ng]`. -/
def totalLength (ds : List Descriptor) : Nat := (ds.map (fun d => d.length)).sum

/-- Passes (b) and (c, d) at their ends: `bits_total` = `pos[ng]`. -/
def totalBits (ds : List Descriptor) : Nat := (ds.map (fun d => d.length * d.width)).sum

/-- `total_A`. -/
def totalA (header : Nat) (ds : List Descriptor) : Nat := header + ceil8 (totalBits ds)

/-- `total_B`. -/
def totalB (header : Nat) (ds : List Descriptor) : Nat :=
  header + totalBits ds / 8 + (if totalBits ds % 8 ≠ 0 then 1 else 0)

/-- The running sums (a), (c) and (d): each group with its starting index, byte offset and bit offset, from index `idx`
and bit position `pos`. -/
def layout (header : Nat) : List Descriptor → Nat → Nat → List Group
  | [], _, _ => []
  | d :: ds, idx, pos =>
    { reference := d.reference, width := d.width, length := d.length,
      valueIndex := idx, byteOffset := header + pos / 8, bitOffset := pos % 8 }
      :: layout header ds (idx + d.length) (pos + d.length * d.width)

/-! Extraction and missing values (42_group R151 to R157) -/

/-- `subst(mvm, ref, w, raw, nbits)` (42_group R152 to R156). -/
def substValue (mvm ref w raw nbits : Nat) : Slot :=
  if mvm = 0 then .val (ref + raw : Int)
  else if w = 0 then
    if (ref : Int) = ones nbits then .miss
    else if mvm = 2 ∧ (ref : Int) = ones nbits - 1 then .miss
    else .val ref
  else
    if (raw : Int) = ones w then .miss
    else if mvm = 2 ∧ (raw : Int) = ones w - 1 then .miss
    else .val (ref + raw : Int)

/-- The slots of one group, read at its precomputed offset (42_group R151). -/
def Group.slots (g : Group) (m : Memory) (base mvm nbits : Nat) : List Slot :=
  (List.range g.length).map (fun k =>
    substValue mvm g.reference g.width
      (field m (base + g.byteOffset) (g.bitOffset + k * g.width) g.width) nbits)

/-- The field: the groups' slots in ascending group order. Group g's slots start at its `valueIndex`, which is the number
of slots before it (42_group R147, R151; log 16). -/
def extract (gs : List Group) (m : Memory) (base mvm nbits : Nat) : List Slot :=
  gs.flatMap (fun g => g.slots m base mvm nbits)

/-- A slot whose value reaches MISSING (42_group R157). -/
def Slot.collides : Slot → Bool
  | .miss  => false
  | .val x => decide ((Config.missing : Int) ≤ x)

/-- The collision check: the lowest slot that reaches MISSING (42_group R157). -/
def collisionCheck (fs : List Slot) : Option Raise :=
  (fs.findIdx? Slot.collides).map (fun i => ⟨.overflow, i⟩)

/-- The consistency checks of `GDCore` before extraction (42_group R145, R146, R148, R149; R160 steps 6 to 9). -/
def coreChecks (o : GroupOps) (size : Nat) (ds : List Descriptor) : Option Raise :=
  firstFailure
    [ check (size < o.headerBytes) .size (sat32 o.headerBytes),
      (ds.findIdx? (fun d => decide (Config.gwMax < d.width))).map (fun g => ⟨.groupWidth, g⟩),
      check (totalLength ds ≠ o.npnts) .badPacking (sat32 (totalLength ds)),
      check (totalA o.headerBytes ds ≠ size || totalB o.headerBytes ds ≠ size) .size
        (sat32 (totalA o.headerBytes ds)) ]

/-- `GDCore` on the section of `size` bytes at `base` (42_group R144 to R157). -/
def gdCore (o : GroupOps) (m : Memory) (base size : Nat) : Except Raise (List Slot) :=
  let ds := o.descriptors m base
  match coreChecks o size ds with
  | some r => .error r
  | none =>
    let fs := extract (layout o.headerBytes ds 0 0) m base o.mvm o.nbits
    match collisionCheck fs with
    | some r => .error r
    | none => .ok fs

/-- The word a slot is stored as (42_group R158). -/
def Slot.word : Slot → Word
  | .miss  => BitVec.ofNat 32 Config.missing
  | .val x => sext32 x

/-- The tagged view of a stored word (42_group R159). -/
def Slot.ofWord (w : Word) : Slot := if w = BitVec.ofNat 32 Config.missing then .miss else .val w.toInt

/-- GD.DECODE with the capacity `maxGroups` as an argument (42_group R140). After E_OVERFLOW the destination is
unspecified (60_exceptions R204). -/
def gdDecode (maxGroups : Nat) (s : State) : State :=
  let o := s.groupOps
  match groupChecks maxGroups o with
  | some r => s.raise r
  | none =>
    match gdCore o s.mem o.payload o.size with
    | .error r => s.raiseFrom o.dest r
    | .ok fs => s.deliver o.dst (fs.map Slot.word) o.size

/-- GD.DECODE (42_group R140). -/
def execGdDecode (s : State) : Host.Outcome State Fault Refusal := .next (gdDecode Config.maxGroups s)

end Sys2Proof.Machine
end

