-- ==== Sys2Proof/Machine/SpatialDiff.lean ====
section
/-! DEFINITION. SD.DECODE: seeds, group decoding of the rest, and the inversion of the differencing (43_spatial R170 to
R180). -/

namespace Sys2Proof.Machine

/-- The checks of SD.DECODE before it reads memory (43_spatial R170 to R172, R179 steps 1 to 6). -/
def diffChecks (maxGroups order eow : Nat) (o : GroupOps) : Option Raise :=
  firstFailure
    ([ check (!(decide (order = 1) || decide (order = 2))) .order order,
       check (eow < Config.eowMin || Config.eowMax < eow) .param 15 ]
      ++ groupParamChecks maxGroups o ++ groupRegionChecks o
      ++ [ check (o.size < (order + 1) * eow) .size (sat32 ((order + 1) * eow)) ])

/-- The seed fields at the head of the section (43_spatial R171). -/
structure Seeds where
  s1 : Int
  s2 : Int
  mn : Int
  deriving DecidableEq, Repr

/-- Read the seed fields; the second seed is read for order 2 only and is unused otherwise (43_spatial R170, R171). -/
def readSeeds (m : Memory) (payload order eow : Nat) : Seeds :=
  { s1 := besm m payload eow,
    s2 := if order = 2 then besm m (payload + eow) eow else 0,
    mn := besm m (payload + order * eow) eow }

/-- The rolling state of `SDInvert`: non-missing slots seen, the last and the penultimate value (43_spatial R174). -/
structure Rolling where
  cnt  : Nat
  last : Int
  pen  : Int
  deriving DecidableEq, Repr

/-- The reconstructed value of a non-missing slot with raw delta `d` (43_spatial R174, R175). -/
def reconstruct (order : Nat) (q : Seeds) (r : Rolling) (d : Int) : Int :=
  if r.cnt = 0 then q.s1
  else if order = 2 ∧ r.cnt = 1 then q.s2
  else if order = 1 then r.last + q.mn + d
  else d + q.mn + 2 * r.last - r.pen

/-- The rolling state after a reconstructed value `y` (43_spatial R174). -/
def Rolling.push (r : Rolling) (y : Int) : Rolling := { cnt := r.cnt + 1, last := y, pen := r.last }

/-- A reconstructed value that cannot be stored or collides with MISSING (43_spatial R178). -/
def outOfRange (y : Int) : Bool := decide (y < -2 ^ 31) || decide ((Config.missing : Int) ≤ y)

/-- `SDInvert` from slot `i` on: one ascending pass; a MISS slot passes through (43_spatial R174 to R178). -/
def sdInvert (order : Nat) (q : Seeds) : List Slot → Nat → Rolling → Except Raise (List Slot)
  | [], _, _ => .ok []
  | .miss :: fs, i, r => (sdInvert order q fs (i + 1) r).map (fun gs => .miss :: gs)
  | .val d :: fs, i, r =>
    let y := reconstruct order q r d
    if outOfRange y then .error ⟨.overflow, i⟩
    else (sdInvert order q fs (i + 1) (r.push y)).map (fun gs => .val y :: gs)

/-- The rolling state before the first slot (43_spatial R174); `last` and `pen` are not read before they are set. -/
def Rolling.start : Rolling := { cnt := 0, last := 0, pen := 0 }

/-- Seeds, then `GDCore` on the reduced section, then the inversion (43_spatial R170, R173, R177). -/
def diffCore (o : GroupOps) (order eow : Nat) (m : Memory) : Except Raise (List Slot) :=
  let skip := (order + 1) * eow
  match gdCore o m (o.payload + skip) (o.size - skip) with
  | .error r => .error r
  | .ok fs => sdInvert order (readSeeds m o.payload order eow) fs 0 Rolling.start

/-- SD.DECODE with the capacity `maxGroups` as an argument (43_spatial R170). After E_OVERFLOW the destination is
unspecified (60_exceptions R204). -/
def sdDecode (maxGroups : Nat) (s : State) : State :=
  let o := s.groupOps
  match diffChecks maxGroups s.sdOrder s.sdEow o with
  | some r => s.raise r
  | none =>
    match diffCore o s.sdOrder s.sdEow s.mem with
    | .error r => s.raiseFrom o.dest r
    | .ok fs => s.deliver o.dst (fs.map Slot.word) o.size

/-- SD.DECODE (43_spatial R170). -/
def execSdDecode (s : State) : Host.Outcome State Fault Refusal := .next (sdDecode Config.maxGroups s)

end Sys2Proof.Machine
end

