-- ==== Sys2Proof/Machine/Dispatch.lean ====
section
/-! DEFINITION. What each decoded command does at its completion step (30_encoding R71, 10_state R38). -/

namespace Sys2Proof.Machine

def exec (i : Instr) (s : State) : Host.Outcome State Fault Refusal :=
  match i with
  | .brRead => Sys2Proof.Machine.execBrRead s
  | .brReadf => Sys2Proof.Machine.execBrReadf s
  | .bwOpen => Sys2Proof.Machine.execBwOpen s
  | .bwWrite => Sys2Proof.Machine.execBwWrite s
  | .bwWriteb => Sys2Proof.Machine.execBwWriteb s
  | .bwClose => Sys2Proof.Machine.execBwClose s
  | .gdDecode => Sys2Proof.Machine.execGdDecode s
  | .sdDecode => Sys2Proof.Machine.execSdDecode s
  | .bmExpand => Sys2Proof.Machine.execBmExpand s

end Sys2Proof.Machine
end

