-- ==== Sys2Proof/WellFormed.lean ====
section
/-! DEFINITION. Well-formedness: how many operands a command takes (30_encoding R72) and their range (R77). -/

namespace Sys2Proof

/-- How many operand registers a command lists (30_encoding R72, R77). -/
def Instr.arity : Instr → Nat
  | .brRead   => 5
  | .brReadf  => 5
  | .bwOpen   => 2
  | .bwWrite  => 2
  | .bwWriteb => 3
  | .bwClose  => 0
  | .gdDecode => 14
  | .sdDecode => 16
  | .bmExpand => 5

/-- A command instance lists exactly the operands of 30_encoding R72, each a literal in 0 .. 2^32 - 1 (R77). -/
def CommandLine.wf (c : CommandLine) : Bool :=
  decide (c.operands.length = c.instr.arity) && c.operands.all (fun v => decide (v < 2 ^ 32))

/-- A line of a host program of `lines` lines is well-formed when its command is and its label is a place in the
program (30_encoding R78). -/
def HostLine.wf (lines : Nat) : HostLine → Bool
  | .command c => c.wf
  | .wait      => true
  | .check l   => decide (l ≤ lines)
  | .ack       => true
  | .res       => true

/-- A host program is well-formed when each of its lines is. -/
def hostProgramWf (ls : List HostLine) : Bool := ls.all (HostLine.wf ls.length)

end Sys2Proof
end

