-- ==== Sys2Proof/Decode.lean ====
section
/-! DEFINITION. Decoding a command word (30_encoding R70, R71, R73, R75), total, rejecting by name; the encoder; and
the register writes that are a command instance's binary form (R77 to R79). -/

namespace Sys2Proof

/-- Why a command word is illegal (30_encoding R75). -/
inductive DecodeError where
  /-- RSV, bits 31:8, is not 0 -/
  | reservedBitsSet
  /-- OPC is not in the opcode map -/
  | unassignedOpcode
  deriving DecidableEq, Repr

/-- The field OPC, bits 7:0 (30_encoding R70). -/
def opcField (w : Word) : BitVec 8 := w.extractLsb' 0 8

/-- The field RSV, bits 31:8 (30_encoding R70). -/
def rsvField (w : Word) : BitVec 24 := w.extractLsb' 8 24

/-- The opcode map (30_encoding R73). -/
def opcodeMap : List (BitVec 8 × Instr) :=
  [(0x01#8, .brRead), (0x02#8, .brReadf),
   (0x10#8, .bwOpen), (0x11#8, .bwWrite), (0x12#8, .bwWriteb), (0x13#8, .bwClose),
   (0x20#8, .gdDecode), (0x21#8, .sdDecode),
   (0x30#8, .bmExpand)]

/-- Decode a command word (30_encoding R71, R75, R76). -/
def decode (w : Word) : Except DecodeError Instr :=
  if rsvField w ≠ 0#24 then .error .reservedBitsSet
  else match opcodeMap.lookup (opcField w) with
    | some i => .ok i
    | none   => .error .unassignedOpcode

/-- The opcode of a command (30_encoding R73). -/
def Instr.opcode : Instr → BitVec 8
  | .brRead   => 0x01#8
  | .brReadf  => 0x02#8
  | .bwOpen   => 0x10#8
  | .bwWrite  => 0x11#8
  | .bwWriteb => 0x12#8
  | .bwClose  => 0x13#8
  | .gdDecode => 0x20#8
  | .sdDecode => 0x21#8
  | .bmExpand => 0x30#8

/-- The command word of a command: RSV = 0, OPC its opcode (30_encoding R70). -/
def encode (i : Instr) : Word := 0#24 ++ i.opcode

/-- The instruction the decoder reads from a row of the opcode table: bit 0 of `w` is bit 0 of the command word, and the
bits from `nbits` up are 0. A command word is exactly 32 bits (30_encoding R76). -/
def decodeTableWord (nbits w : Nat) : Option Instr :=
  let bits := w % 2 ^ nbits
  if bits < 2 ^ 32 then (decode (BitVec.ofNat 32 bits)).toOption else none

/-- Offset of CMD in the register block (10_state R27). -/
def cmdOffset : Nat := 0x04

/-- Offset of ARGi in the register block (10_state R27). -/
def argOffset (i : Nat) : Nat := 0x40 + 4 * i

/-- The ARG writes of operands in A-register order, the first to ARG`i` (30_encoding R78). -/
def argWrites (i : Nat) (operands : List Nat) : List (Nat × Word) :=
  operands.mapIdx (fun j v => (argOffset (i + j), BitVec.ofNat 32 v))

/-- The zeros written, without `.keep`, to the ARG registers a command ignores, in ascending order (30_encoding R78). -/
def ignoredWrites (c : CommandLine) : List (Nat × Word) :=
  if c.keep then [] else argWrites c.instr.arity (List.replicate (16 - c.instr.arity) 0)

/-- The binary form of a command instance: the ordered (offset, value) register writes (30_encoding R78, R79). -/
def encodeLine (c : CommandLine) : List (Nat × Word) :=
  argWrites 0 c.operands ++ ignoredWrites c ++ [(cmdOffset, encode c.instr)]

/-- Read a command and its operands back from the register writes of an instance (30_encoding R79). -/
def decodeLine (ws : List (Nat × Word)) : Option (Instr × List Nat) :=
  match ws.getLast? with
  | none => none
  | some (off, w) =>
    if off ≠ cmdOffset then none
    else match decode w with
      | .error _ => none
      | .ok i =>
        ((List.range i.arity).mapM (fun j => (ws.lookup (argOffset j)).map BitVec.toNat)).map (fun vs => (i, vs))

/-- The Host move of one register write of the host notation, `mmio.w OFF, V` (30_encoding R78). -/
def mmioWrite (p : Nat × Word) : HostMove := .regWrite p.1 4 p.2

/-- The Host moves a line of a host program expands to, where label `l` is move number `place l` (30_encoding R78). -/
def HostLine.expand (place : Nat → Nat) : HostLine → List HostMove
  | .command c => (encodeLine c).map mmioWrite ++ [.wait]
  | .wait      => [.wait]
  | .check l   => [.check (place l)]
  | .ack       => [.regWrite 0x08 4 0x0A#32]
  | .res       => [.regRead 0x14 4]

/-- How many Host moves a line expands to; its label does not matter. -/
def HostLine.size (l : HostLine) : Nat := (l.expand id).length

/-- The number of the first move of line `l`: where a `cpc.check` with that label goes (30_encoding R78). -/
def lineStart (ls : List HostLine) (l : Nat) : Nat := ((ls.take l).map HostLine.size).sum

/-- The Host moves of a host program (30_encoding R78). -/
def hostProgram (ls : List HostLine) : List HostMove := ls.flatMap (HostLine.expand (lineStart ls))

end Sys2Proof
end

