-- ==== Sys2Proof/Machine/Footprint.lean ====
section
/-! DEFINITION. The read and write footprints of a command (20_memory R57, R58), those of the running command
(70_reset R242), and what a reset leaves unspecified (70_reset R232). -/

namespace Sys2Proof.Machine

/-- The regions a command's rule names as read (20_memory R57; log 8). -/
def readRegions (i : Instr) (s : State) : List Region :=
  match i with
  | .brRead   => [s.readOps.source]
  | .brReadf  => [s.readOps.source]
  | .bwOpen   => []
  | .bwWrite  => []
  | .bwWriteb => [s.batchOps.source]
  | .bwClose  => []
  | .gdDecode => [s.groupOps.payloadRegion]
  | .sdDecode => [s.groupOps.payloadRegion]
  | .bmExpand => [s.expandOps.compact, s.expandOps.bitmap]

/-- The open session's target region; empty when no session is open (20_memory R58). -/
def Session.openTarget (b : Session) : List Region := if b.active then [b.target] else []

/-- The regions a command's rule lets it write (20_memory R58; log 8). BW.OPEN writes no memory (41_bitwriter R120). -/
def writeRegions (i : Instr) (s : State) : List Region :=
  match i with
  | .brRead   => [s.readOps.dest]
  | .brReadf  => [s.readOps.dest]
  | .bwOpen   => []
  | .bwWrite  => s.session.openTarget
  | .bwWriteb => s.session.openTarget
  | .bwClose  => s.session.openTarget
  | .gdDecode => [s.groupOps.dest]
  | .sdDecode => [s.groupOps.dest]
  | .bmExpand => [s.expandOps.dest]

/-- The target bytes the session flushes when `n` more bits are appended (41_bitwriter R122). -/
def Session.flushed (b : Session) (n : Nat) : Region := ⟨b.cursor, (b.bits + n) / 8 - b.count.toNat⟩

/-- The bytes that a command abandoned by reset leaves unspecified: its write footprint, and for a BitWriter command the
target bytes it would have flushed, none when one of its checks fails (70_reset R232). -/
def abandonedRegions (i : Instr) (s : State) : List Region :=
  match i with
  | .brRead   => [s.readOps.dest]
  | .brReadf  => [s.readOps.dest]
  | .bwOpen   => []
  | .bwWrite  =>
    if (sessionCheck s.session).isNone && (writeChecks s.session (s.opnd 1)).isNone
    then [s.session.flushed (s.opnd 1)] else []
  | .bwWriteb =>
    if (sessionCheck s.session).isNone && (batchChecks s.session s.batchOps).isNone
    then [s.session.flushed (s.batchOps.w * s.batchOps.cnt)] else []
  | .bwClose  =>
    if s.session.active then [⟨s.session.cursor, s.session.bytesNeeded 0 - s.session.count.toNat⟩] else []
  | .gdDecode => [s.groupOps.dest]
  | .sdDecode => [s.groupOps.dest]
  | .bmExpand => [s.expandOps.dest]

/-- A footprint function applied to the running command; nothing when idle or when the word is illegal. -/
def State.running (s : State) (regions : Instr → State → List Region) : List Region :=
  if s.busy then
    match decode s.cmdLatch with
    | .error _ => []
    | .ok i => regions i s
  else []

/-- Address `a` lies in one of the regions. -/
def covers (rs : List Region) (a : Nat) : Bool := rs.any (fun r => r.has a)

/-- A read footprint of the running command touches a device with read side effects (20_memory R61, 93 I-13). -/
def State.readsDevice (s : State) : Bool :=
  (s.running readRegions).any (fun r => s.devices.any (fun d => r.overlaps d))

/-- Draw the bytes of several regions, in turn. -/
def State.drawAll (s : State) : List Region → State
  | [] => s
  | r :: rs => State.drawAll (s.draw r) rs

end Sys2Proof.Machine
end

