-- ==== Sys2Proof/Machine/HostPort.lean ====
section
/-! DEFINITION. The Host's moves (60_exceptions R215): register accesses (10_state R23 to R28), data-memory accesses and
the hazards of a running command (70_reset R242), the platform reset (R230 to R232), and whose turn it is (R240). -/

namespace Sys2Proof.Machine

/-- Append what a Host read returned. -/
def State.reply (r : HostReply) (s : State) : State := { s with replies := r :: s.replies }

/-- A Host register access is refused unless it is an aligned 32-bit access inside the block (10_state R23, R27;
93 I-12; log 11). `hostAddress off` is aligned exactly when `off` is, because MMIO_BASE is. -/
def registerAccess (off size : Nat) : Except Refusal RegName :=
  if size ≠ 4 ∨ off % 4 ≠ 0 then .error (.misshapenRegisterAccess off size)
  else if Config.blockSize ≤ off then .error (.outsideRegisterBlock off)
  else .ok (regOfWord (off / 4))

/-- A Host read of a register: it changes nothing in the block (10_state R24 to R28). -/
def State.hostRead (r : RegName) (s : State) : State := s.reply (.word (s.readReg r))

/-- A Host write of a register: CMD submits, STATUS acknowledges, ARGi stores, every other register ignores it
(10_state R24, R25, R27, R28). -/
def State.hostWrite (r : RegName) (v : Word) (s : State) : State :=
  match r with
  | .id       => s
  | .cmd      => s.submit v
  | .status   => s.ackStatus v
  | .err      => s
  | .errInfo  => s
  | .res0     => s
  | .bwBase   => s
  | .bwCap    => s
  | .bwCount  => s
  | .bwPart   => s
  | .reserved => s
  | .arg i    => { s with args := s.args.set i v }

/-- A Host read of a data byte; a byte in the running command's write footprint reads as any value (70_reset R242,
93 I-10). -/
def State.hostLoad (a : Nat) (s : State) : State :=
  if covers (s.running writeRegions) a then
    { s.reply (.byte (Config.freeByte s.draws a)) with draws := s.draws + 1 }
  else s.reply (.byte (s.mem.read a))

/-- The platform's reset: the block's registers take their reset values; data memory keeps its bytes, except those a
running command leaves unspecified; the Host's side is not reset (70_reset R230 to R232; log 15). -/
def State.platformReset (s : State) : State :=
  let t := s.drawAll (s.running abandonedRegions)
  { State.reset with
    mem := t.mem, draws := t.draws,
    program := s.program, position := s.position, schedule := s.schedule, replies := s.replies, devices := s.devices }

/-- The effect of one move of the Host. `cpc.wait` and `cpc.check` read STATUS and ERR; where the Host goes on after a
move is `State.following` (30_encoding R78; log 12). -/
def hostMove (m : HostMove) (s : State) : Host.Outcome State Fault Refusal :=
  match m with
  | .regRead off size =>
    match registerAccess off size with
    | .error r => .refused r
    | .ok r => .next (s.hostRead r)
  | .regWrite off size v =>
    match registerAccess off size with
    | .error r => .refused r
    | .ok r => .next (s.hostWrite r v)
  | .memRead a => .next (s.hostLoad a.toNat)
  | .memWrite a b =>
    if covers (s.running readRegions ++ s.running writeRegions) a.toNat then .refused (.hostWriteInFootprint a)
    else .next { s with mem := s.mem.write a.toNat b }
  | .wait => .next (s.hostRead .status)
  | .check _ => .next (s.hostRead .err)

/-- The Host's next move, none when its program has ended. -/
def State.nextMove? (s : State) : Option HostMove := s.program[s.position]?

/-- The number of the move after `m`: `cpc.wait` polls again while BUSY reads 1, `cpc.check` goes to its label when
ERR.CODE is not 0, and every other move is followed by the next in the program (30_encoding R78, 20_memory R64). -/
def State.following (m : HostMove) (s : State) : Nat :=
  match m with
  | .wait          => if s.busy then s.position else s.position + 1
  | .check target  => if s.errorFlag then target else s.position + 1
  | .regRead _ _   => s.position + 1
  | .regWrite _ _ _ => s.position + 1
  | .memRead _     => s.position + 1
  | .memWrite _ _  => s.position + 1

/-- Whose turn the next step is. The platform asserts reset whenever the schedule says so (70_reset R230; log 18). The Host
is next when it has a move and no command runs or the schedule gives it this turn, and otherwise the Engine while a
command runs (R240; log 2). No one is next when the block is idle and the Host has no move (60_exceptions R214). -/
def State.turn (s : State) : Option Agent :=
  if s.schedule.head? = some .platform then some .platform
  else if s.nextMove?.isSome && (!s.busy || decide (s.schedule.head? = some .host)) then some .host
  else if s.busy then some .engine
  else none

/-- Every step uses up one turn of the schedule. -/
def State.takeTurn (s : State) : State := { s with schedule := s.schedule.tail }

/-- The Host's next move, if it has one, made in the state in which the Host has gone on from it. -/
def hostStep (s : State) : Host.Outcome State Fault Refusal :=
  match s.nextMove? with
  | none => .next s
  | some m => hostMove m { s with position := s.following m }

end Sys2Proof.Machine
end

