-- ==== Sys2Proof/Machine/Engine.lean ====
section
/-! DEFINITION. The Engine's completion step (10_state R38, 30_encoding R71). -/

namespace Sys2Proof.Machine

/-- The completion step of the latched word: E_ILLEGAL with the word itself, or the decoded command, refused when its read
footprint touches a device with read side effects (30_encoding R71, R75; 20_memory R61). -/
def complete (s : State) : Host.Outcome State Fault Refusal :=
  match decode s.cmdLatch with
  | .error _ => .next (s.raise ⟨.illegal, s.cmdLatch.toNat⟩)
  | .ok i => if s.readsDevice then .refused .deviceInReadFootprint else exec i s

/-- What `withFetchWord` does: the Host has just submitted the word, and it is the Engine's turn (log 1, 2). -/
def State.loadCommand (w : Word) (s : State) : State := { s.accept w with schedule := [] }

end Sys2Proof.Machine
end

