-- ==== Sys2Proof/Machine/Step.lean ====
section
/-! DEFINITION. One step of the machine: a platform reset, a Host move, a completion, or nothing when the block is idle and
the Host has no move (70_reset R230, 10_state R36 to R38, 60_exceptions R214). -/

namespace Sys2Proof.Machine

/-- One step. -/
def step (s : State) : Host.Outcome State Fault Refusal :=
  match s.turn with
  | some .platform => .next s.takeTurn.platformReset
  | some .host     => hostStep s.takeTurn
  | some .engine   => complete s.takeTurn
  | none           => .next s.takeTurn

/-- The state in which the command word with bits `w` has been accepted and is the next to run (log 1). -/
def State.withFetchWord (s : State) (nbits w : Nat) : State := s.loadCommand (BitVec.ofNat 32 (w % 2 ^ nbits))

end Sys2Proof.Machine
end

