-- ==== Sys2Proof/Safety.lean ====
section
/-! DEFINITION. What claims about the machine are stated in: the invariant of reachable states, how a command completes
(60_exceptions R203, 10_state R38), what memory keeps, and the bit string of a BitWriter session (10_state R32). -/

namespace Sys2Proof.Machine

/-! The invariant -/

/-- A session as every run leaves it: its target lies in the data memory (the check of BW.OPEN, 41_bitwriter R120), the
bits appended fit the capacity (R126), the partial byte holds NACC bits (10_state R33), and a closed session holds none. -/
def Session.wf (b : Session) : Prop :=
  b.base.toNat + b.cap.toNat ≤ Config.memSize ∧ b.bytesNeeded 0 ≤ b.cap.toNat ∧
    b.acc.toNat < 2 ^ b.nacc.toNat ∧ (b.active = false → b.nacc = 0#3)

/-- The result registers as every run leaves them: while a command runs, DONE, ERR, ERR_INFO and RES0 are 0; after an
error RES0 is 0; without one ERR_INFO is 0 (10_state R26, R36). -/
def State.regsWf (s : State) : Prop :=
  (s.busy = true → s.done = false ∧ s.err = .none ∧ s.res0 = 0#32) ∧
    (s.err ≠ .none → s.res0 = 0#32) ∧ (s.err = .none → s.errInfo = 0#32)

/-- The invariant of the machine: memory in its canonical form, a well-formed session, consistent result registers. -/
def State.Inv (s : State) : Prop := s.mem.wf ∧ s.session.wf ∧ s.regsWf

/-! Memory -/

/-- Every byte outside the region reads as before (20_memory R58). -/
def SameOutside (m m' : Memory) (r : Region) : Prop := ∀ a, r.has a = false → m'.read a = m.read a

/-- The region lies in the data memory (00_scope R14). -/
def Region.inBounds (r : Region) : Prop := r.outOfBounds = false

/-- The two regions share no address (00_scope R14). -/
def Region.apart (r q : Region) : Prop := r.overlaps q = false

/-! Completion -/

/-- The state `t` is `s` after a completion step: idle with DONE set, and nothing changed that no command may change: the
ARG registers, OVR, the Host's side and the platform (10_state R28, R38); the latched command and the snapshot are kept
by the model's choice (log 7). -/
def Completed (s t : State) : Prop :=
  t.busy = false ∧ t.done = true ∧ t.args = s.args ∧ t.ovr = s.ovr ∧ t.cmdLatch = s.cmdLatch ∧ t.snap = s.snap ∧
    t.program = s.program ∧ t.position = s.position ∧ t.schedule = s.schedule ∧ t.replies = s.replies ∧ t.devices = s.devices

/-- A completion without error and with result `v` (10_state R26, R38). -/
def Succeeded (s t : State) (v : Nat) : Prop :=
  Completed s t ∧ t.err = .none ∧ t.errInfo = 0#32 ∧ t.res0.toNat = v ∧ t.draws = s.draws

/-- A completion with an error recorded (60_exceptions R203). -/
def Failed (s t : State) (code : ErrCode) (info : Nat) : Prop :=
  Completed s t ∧ t.err = code ∧ t.errInfo.toNat = info ∧ t.res0 = 0#32

/-- `t` is `s` after an error that changes neither memory nor the session (60_exceptions R203, R204). -/
def Rejected (s t : State) (code : ErrCode) (info : Nat) : Prop :=
  Failed s t code info ∧ t.mem = s.mem ∧ t.session = s.session ∧ t.draws = s.draws

/-- `t` is `s` after an error that leaves every byte of `dst` unspecified and every other byte as before
(60_exceptions R204). -/
def Spoiled (s t : State) (dst : Region) (code : ErrCode) (info : Nat) : Prop :=
  Failed s t code info ∧ t.session = s.session ∧ t.draws = s.draws + 1 ∧
    (∀ a, dst.has a = true → t.mem.read a = Config.freeByte s.draws a) ∧ SameOutside s.mem t.mem dst

/-- The command ends with the error and changes neither memory nor the session. -/
def Rejects (i : Instr) (s : State) (code : ErrCode) (info : Nat) : Prop :=
  ∃ t, exec i s = .next t ∧ Rejected s t code info

/-- The BitWriter command ends with the error and aborts the session: ACTIVE, NACC and ACC become 0; BASE, CAP, COUNT and
memory stay (41_bitwriter R129). -/
def Aborts (i : Instr) (s : State) (code : ErrCode) (info : Nat) : Prop :=
  ∃ t, exec i s = .next t ∧ Failed s t code info ∧ t.mem = s.mem ∧ t.draws = s.draws ∧
    t.session = { s.session with active := false, nacc := 0#3, acc := 0#7 }

/-- The command ends with the error and leaves its destination unspecified. -/
def Spoils (i : Instr) (s : State) (dst : Region) (code : ErrCode) (info : Nat) : Prop :=
  ∃ t, exec i s = .next t ∧ Spoiled s t dst code info

/-- The command completes without error and with result `v`, writes no byte outside `dst`, and leaves the session alone. -/
def Delivers (i : Instr) (s : State) (dst : Region) (v : Nat) (stored : Memory → Prop) : Prop :=
  ∃ t, exec i s = .next t ∧ Succeeded s t v ∧ t.session = s.session ∧
    SameOutside s.mem t.mem dst ∧ stored t.mem

/-! The bit string of a session -/

/-- The w low bits of a value in the order they are appended (41_bitwriter R122). -/
def msbBits (v : Word) (w : Nat) : List Bool := (List.range w).map (fun j => v.getLsbD (w - 1 - j))

/-- A bit string read as an unsigned integer, the first bit most significant. -/
def bitsValue (bs : List Bool) : Nat := bs.foldl (fun n b => 2 * n + b.toNat) 0

/-- The session and memory hold the bit string (10_state R32): COUNT = T div 8, NACC = T mod 8, ACC is the last NACC bits,
and the bytes at BASE hold the first 8 COUNT bits, most significant first. -/
def Sink.Holds (x : Sink) (bs : List Bool) : Prop :=
  x.session.count.toNat = bs.length / 8 ∧ x.session.nacc.toNat = bs.length % 8 ∧
    x.session.acc.toNat = bitsValue (bs.drop (8 * (bs.length / 8))) ∧
    ∀ k, k < 8 * (bs.length / 8) → bs[k]? = some (streamBit x.mem x.session.base.toNat k)

/-- The state with the listed operands in the snapshot, the ignored ones 0. -/
def State.withOperands (s : State) (ops : List Word) : State :=
  { s with snap := Vector.ofFn (fun i => ops.getD i.val 0#32) }

/-- BW.WRITE commands with the given values at one width, issued in order (41_bitwriter R128). -/
def writesInTurn (s : State) (w : Word) : List Word → Host.Outcome State Fault Refusal
  | [] => .next s
  | v :: vs =>
    match exec .bwWrite (s.withOperands [v, w]) with
    | .next t => writesInTurn t w vs
    | .fault r => .fault r
    | .refused r => .refused r

/-- Host moves made one after another, with no completion between them. -/
def hostMoves : List HostMove → State → Host.Outcome State Fault Refusal
  | [], s => .next s
  | m :: ms, s =>
    match hostMove m s with
    | .next t => hostMoves ms t
    | .fault r => .fault r
    | .refused r => .refused r

/-! Group decoding -/

/-- The operand conditions GD.DECODE checks before it reads memory (42_group R142, R143, R141). -/
def GroupOps.Valid (mg : Nat) (o : GroupOps) : Prop :=
  o.nbits ≤ 31 ∧ o.nbgw ≤ 31 ∧ o.nbgl ≤ 31 ∧ o.mvm ≤ 2 ∧ (o.gsm = 0 ∨ o.gsm = 1) ∧ 1 ≤ o.ng ∧ o.ng ≤ mg ∧
    o.payloadRegion.inBounds ∧ o.dest.inBounds ∧ o.payloadRegion.apart o.dest

/-- `idx[g]`: the slots before group g (42_group R147). -/
def GroupOps.start (o : GroupOps) (m : Memory) (base g : Nat) : Nat :=
  ∑ h ∈ Finset.range g, o.length m base h

/-- `pos[g]`: the value bits before group g (42_group R147). -/
def GroupOps.position (o : GroupOps) (m : Memory) (base g : Nat) : Nat :=
  ∑ h ∈ Finset.range g, o.length m base h * o.width m base h

/-- The k-th slot of group g of the section at `base` (42_group R151, R152). -/
def GroupOps.slotAt (o : GroupOps) (m : Memory) (base g k : Nat) : Slot :=
  substValue o.mvm (o.ref m base g) (o.width m base g)
    (field m (base + (o.headerBytes + o.position m base g / 8))
      (o.position m base g % 8 + k * o.width m base g) (o.width m base g)) o.nbits

/-- The section of `size` bytes at `base` is consistent: descriptors inside it, group widths at most 31, lengths that sum to
npnts, and exactly `size` bytes in all (42_group R145, R146, R148, R149). -/
def GroupOps.Consistent (o : GroupOps) (m : Memory) (base size : Nat) : Prop :=
  o.headerBytes ≤ size ∧ (∀ g, g < o.ng → o.width m base g ≤ 31) ∧ o.start m base o.ng = o.npnts ∧
    o.headerBytes + ceil8 (o.position m base o.ng) = size

/-! Spatial differencing -/

/-- The value of a slot that is not MISS. -/
def Slot.value? : Slot → Option Int
  | .miss  => none
  | .val x => some x

/-- `ys` is the reconstruction of the non-missing values `ds` (43_spatial R174, R175): seeds first, then the recurrence. -/
def Reconstruction (order : Nat) (q : Seeds) (ds ys : List Int) : Prop :=
  ys.length = ds.length ∧
    (∀ y, ys[0]? = some y → y = q.s1) ∧
    (order = 1 → ∀ (j : Nat) (d y y' : Int), ds[j + 1]? = some d → ys[j]? = some y → ys[j + 1]? = some y' →
      y' = y + q.mn + d) ∧
    (order = 2 → (∀ y, ys[1]? = some y → y = q.s2) ∧
      ∀ (j : Nat) (d y y' y'' : Int), ds[j + 2]? = some d → ys[j]? = some y → ys[j + 1]? = some y' →
        ys[j + 2]? = some y'' → y'' = d + q.mn + 2 * y' - y)

/-- `gs` is the inversion of the field `fs`: MISS slots stay in place, the others are reconstructed as if the MISS slots
were not there (43_spatial R176). -/
def Inverts (order : Nat) (q : Seeds) (fs gs : List Slot) : Prop :=
  gs.map (fun f => f.value?.isSome) = fs.map (fun f => f.value?.isSome) ∧
    Reconstruction order q (fs.filterMap Slot.value?) (gs.filterMap Slot.value?)

end Sys2Proof.Machine
end

