-- ==== Sys2Proof/Certificates/Slice0/Obligations.lean ====
section
/-! DEFINITION. The statements about GRIBJS-CPC, for the provers. -/

section Slice0Obligations
open Sys2Proof Sys2Proof.Machine

/-! ### Encoding -/

/-- 30_encoding R70, R71, R73: a command word decodes to a command exactly when it is that command's word. -/
def Obligations.DecodeExactlyTheCommandWords : Prop :=
  ∀ (w : Word) (i : Instr), decode w = .ok i ↔ w = encode i

/-- 30_encoding R73, R75: the nine words of the opcode map, and words around them that are illegal. -/
def Obligations.OpcodeMapWordsDecode : Prop :=
  decode 0x00000001#32 = .ok .brRead ∧ decode 0x00000002#32 = .ok .brReadf ∧
  decode 0x00000010#32 = .ok .bwOpen ∧ decode 0x00000011#32 = .ok .bwWrite ∧
  decode 0x00000012#32 = .ok .bwWriteb ∧ decode 0x00000013#32 = .ok .bwClose ∧
  decode 0x00000020#32 = .ok .gdDecode ∧ decode 0x00000021#32 = .ok .sdDecode ∧
  decode 0x00000030#32 = .ok .bmExpand ∧
  decode 0x00000000#32 = .error .unassignedOpcode ∧ decode 0x00000003#32 = .error .unassignedOpcode ∧
  decode 0x00000014#32 = .error .unassignedOpcode ∧ decode 0x00000022#32 = .error .unassignedOpcode ∧
  decode 0x00000031#32 = .error .unassignedOpcode ∧ decode 0x000000FF#32 = .error .unassignedOpcode ∧
  decode 0x00000101#32 = .error .reservedBitsSet ∧ decode 0x80000001#32 = .error .reservedBitsSet

/-- 30_encoding R77 to R79: the register writes of a well-formed command instance give back the command and every
operand. -/
def Obligations.CommandLineRoundTrip : Prop :=
  ∀ c : CommandLine, c.wf = true → decodeLine (encodeLine c) = some (c.instr, c.operands)

/-- 30_encoding R72, R78, 10_state R36: the Host moves of a well-formed instance, made while the block is idle, leave it
running that command on exactly the listed operands; without `.keep` every ignored operand is 0. -/
def Obligations.CommandLineReachesTheSnapshot : Prop :=
  ∀ (c : CommandLine) (s : State), c.wf = true → s.busy = false →
    ∃ t, hostMoves ((encodeLine c).map mmioWrite) s = .next t ∧ t.busy = true ∧ t.cmdLatch = encode c.instr ∧
      (∀ j : Fin 16, j.val < c.instr.arity → c.operands[j.val]? = some (t.opnd j)) ∧
      (c.keep = false → ∀ j : Fin 16, c.instr.arity ≤ j.val → t.opnd j = 0) ∧
      (c.keep = true → ∀ j : Fin 16, c.instr.arity ≤ j.val → t.opnd j = (s.args[j]).toNat) ∧
      t.mem = s.mem ∧ t.session = s.session ∧ t.ovr = s.ovr

/-! ### Steps -/

/-- 30_encoding R71, 10_state R38: on the Engine's turn, a step with a latched word that decodes to `i` is `exec i`, in the
state whose schedule has lost this turn, unless the command reads a device window (20_memory R61). -/
def Obligations.StepRunsTheDecodedCommand : Prop :=
  ∀ (s : State) (i : Instr), s.turn = some .engine → decode s.cmdLatch = .ok i → s.readsDevice = false →
    step s = exec i { s with schedule := s.schedule.tail }

/-- 30_encoding R75, R71: every word with RSV ≠ 0 or with an opcode outside the map raises E_ILLEGAL with the word as
ERR_INFO, and changes neither memory nor the session. -/
def Obligations.IllegalWordIsReported : Prop :=
  ∀ s : State, s.turn = some .engine →
    (s.cmdLatch.toNat / 2 ^ 8 ≠ 0 ∨
      s.cmdLatch.toNat % 2 ^ 8 ∉ [0x01, 0x02, 0x10, 0x11, 0x12, 0x13, 0x20, 0x21, 0x30]) →
    ∃ t, step s = .next t ∧ Rejected { s with schedule := s.schedule.tail } t .illegal s.cmdLatch.toNat

/-- 20_memory R61, 93 I-13: the completion step of a command whose read footprint touches a device window is refused.
That the footprint is read from the operands alone, also when one of the command's checks will fail, is the model's reading
(log entry 8, DEDUCED). -/
def Obligations.DeviceReadIsRefused : Prop :=
  ∀ (s : State) (i : Instr), s.turn = some .engine → decode s.cmdLatch = .ok i →
    (∃ r ∈ readRegions i s, ∃ d ∈ s.devices, ∃ a, r.has a = true ∧ d.has a = true) →
    step s = .refused .deviceInReadFootprint

/-- 60_exceptions R214, 10_state R22: unless the platform asserts reset, an idle block with no Host move pending stays as it
is, and a pending Host move of an idle block is made next; either way one turn of the schedule is used up. -/
def Obligations.IdleStep : Prop :=
  (∀ s : State, s.busy = false → s.schedule.head? ≠ some .platform → s.program[s.position]? = none →
    step s = .next { s with schedule := s.schedule.tail }) ∧
  (∀ (s : State) (m : HostMove), s.busy = false → s.schedule.head? ≠ some .platform → s.program[s.position]? = some m →
    step s = hostMove m { s with position := s.following m, schedule := s.schedule.tail })

/-- 70_reset R240: while a command runs, the completion is the next step unless the schedule gives the turn to the platform or
to a Host that has a move, and every such turn uses up exactly one of the finite schedule, so only finitely many come before
the completion. -/
def Obligations.HostTurnsBeforeCompletionAreFinite : Prop :=
  (∀ s : State, s.busy = true → s.schedule.head? ≠ some .platform →
    (s.program[s.position]? = none ∨ s.schedule.head? ≠ some .host) → s.turn = some .engine) ∧
  (∀ s t : State, s.busy = true → s.turn ≠ some .engine → step s = .next t →
    t.schedule.length + 1 = s.schedule.length)

/-! ### Reset and the invariant -/

/-- 70_reset R230, R231, 10_state R27: what every register reads right after reset, the session and run state, and that
every byte of data memory is a free value (log 3). -/
def Obligations.ResetValues : Prop :=
  State.reset.readReg .id = 0x43504307#32 ∧
  (∀ r, r ≠ .id → State.reset.readReg r = 0#32) ∧
  State.reset.busy = false ∧ State.reset.cmdLatch = 0#32 ∧ (∀ i : Fin 16, State.reset.opnd i = 0) ∧
  State.reset.session = { active := false, base := 0#32, cap := 0#32, count := 0#32, nacc := 0#3, acc := 0#7 } ∧
  (∀ a, State.reset.mem.read a = Config.powerOnByte a)

/-- The invariant holds right after reset (the power-on memory of log 3 is canonical). -/
def Obligations.ResetMeetsTheInvariant : Prop := State.reset.Inv

/-- Every step keeps the invariant: memory canonical and inside 2^32 bytes, the session well-formed (10_state R33,
41_bitwriter R126), the result registers consistent (10_state R26). -/
def Obligations.StepKeepsTheInvariant : Prop :=
  ∀ s t : State, s.Inv → step s = .next t → t.Inv

/-- 93 section 1 ("every command completes"): from a state that meets the invariant every command completes with a next
state, and no step faults. -/
def Obligations.EveryCommandCompletes : Prop :=
  (∀ (s : State) (i : Instr), s.Inv → ∃ t, exec i s = .next t) ∧
  (∀ (s : State) (f : Fault), s.Inv → step s ≠ .fault f)

/-! ### What every command keeps -/

/-- 10_state R28, R38: a completion leaves the block idle with DONE set, and changes neither the ARG registers, OVR nor
anything of the Host. That it also keeps CMDLATCH and the snapshot is the model's choice (log 7). -/
def Obligations.CompletionFrame : Prop :=
  ∀ (i : Instr) (s t : State), exec i s = .next t → Completed s t

/-- 20_memory R58: every byte outside a command's destination region, or outside the open session's target region for a BW
command, is unchanged. -/
def Obligations.WritesOnlyTheWriteFootprint : Prop :=
  ∀ (i : Instr) (s t : State) (a : Nat), s.Inv → exec i s = .next t → covers (writeRegions i s) a = false →
    t.mem.read a = s.mem.read a

/-- 60_exceptions R204: after E_OVERFLOW and E_FLOAT_RANGE every byte of the destination region is a free byte; after every
other error, E_ILLEGAL among them, memory is unchanged; the session is unchanged except where a BitWriter rule aborts it. -/
def Obligations.MemoryAndSessionAfterAnError : Prop :=
  ∀ s t : State, s.Inv → s.busy = true → complete s = .next t → t.err ≠ .none →
    t.res0 = 0#32 ∧
    ((t.err = .overflow ∨ t.err = .floatRange) → ∀ a, t.mem.read a =
      if covers (s.running writeRegions) a then Config.freeByte s.draws a else s.mem.read a) ∧
    (t.err ≠ .overflow → t.err ≠ .floatRange → t.mem = s.mem) ∧
    (t.session = s.session ∨
      ((decode s.cmdLatch = .ok .bwWrite ∨ decode s.cmdLatch = .ok .bwWriteb) ∧
        t.session = { s.session with active := false, nacc := 0#3, acc := 0#7 }))

/-- 10_state R39: a command other than BW.* neither writes the session nor lets its outcome depend on it. -/
def Obligations.OnlyWriterCommandsUseTheSession : Prop :=
  ∀ (i : Instr) (s : State) (b : Session), i ∉ [Instr.bwOpen, .bwWrite, .bwWriteb, .bwClose] →
    ∃ t, exec i s = .next t ∧ t.session = s.session ∧ exec i { s with session := b } = .next { t with session := b }

/-- 30_encoding R72, R75: a command's outcome does not depend on the operand registers it ignores. -/
def Obligations.IgnoredOperandsDoNotMatter : Prop :=
  ∀ (i : Instr) (s : State) (v : Vector Word 16), (∀ j : Fin 16, j.val < i.arity → v[j] = s.snap[j]) →
    ∀ t, exec i s = .next t → exec i { s with snap := v } = .next { t with snap := v }

/-- 20_memory R57: a command's outcome depends on no byte outside its read footprint: if two memories agree on it, the same
error, result and session come out, and every byte afterwards is equal in both runs or is in both the byte that stood
there before. -/
def Obligations.ReadsOnlyTheReadFootprint : Prop :=
  ∀ (i : Instr) (s : State) (m : Memory) (t : State), s.Inv → m.wf →
    (∀ a, covers (readRegions i s) a = true → m.read a = s.mem.read a) → exec i s = .next t →
    ∃ u, exec i { s with mem := m } = .next u ∧ u.err = t.err ∧ u.errInfo = t.errInfo ∧ u.res0 = t.res0 ∧
      u.session = t.session ∧
      ∀ a, u.mem.read a = t.mem.read a ∨ (u.mem.read a = m.read a ∧ t.mem.read a = s.mem.read a)

/-! ### The Host's side -/

/-- 10_state R36: acceptance of a command word by an idle block. -/
def Obligations.AcceptanceTakesTheSnapshot : Prop :=
  ∀ (s : State) (w : Word), s.busy = false →
    ∃ t, hostMove (.regWrite 0x04 4 w) s = .next t ∧ t.snap = s.args ∧ t.cmdLatch = w ∧ t.busy = true ∧
      t.done = false ∧ t.err = .none ∧ t.errInfo = 0#32 ∧ t.res0 = 0#32 ∧ t.ovr = s.ovr ∧ t.session = s.session ∧
      t.args = s.args ∧ t.mem = s.mem ∧ t.program = s.program ∧ t.position = s.position ∧ t.replies = s.replies

/-- 10_state R37: a CMD write while a command runs changes nothing except OVR. -/
def Obligations.DroppedSubmissionSetsOvr : Prop :=
  ∀ (s : State) (w : Word), s.busy = true →
    hostMove (.regWrite 0x04 4 w) s = .next { s with ovr := true }

/-- 10_state R25, R27: a Host write of STATUS clears DONE where bit 1 is written 1 and OVR where bit 3 is, and changes nothing
else. -/
def Obligations.StatusWriteOneToClear : Prop :=
  ∀ (s : State) (v : Word),
    ∃ t, hostMove (.regWrite 0x08 4 v) s = .next t ∧
      t.done = (if v.toNat / 2 % 2 = 1 then false else s.done) ∧
      t.ovr = (if v.toNat / 8 % 2 = 1 then false else s.ovr) ∧ { t with done := s.done, ovr := s.ovr } = s

/-- 10_state R27, R28: an ARGi write stores the value in ARGi alone; a write of a read-only or reserved offset is ignored. -/
def Obligations.RegisterWritesOfArgAndReadOnly : Prop :=
  (∀ (s : State) (i : Fin 16) (v : Word),
    ∃ t, hostMove (.regWrite (0x40 + 4 * i.val) 4 v) s = .next t ∧ t.args[i] = v ∧
      (∀ j : Fin 16, j ≠ i → t.args[j] = s.args[j]) ∧ { t with args := s.args } = s) ∧
  (∀ (s : State) (v : Word) (w : Nat), (w = 0 ∨ (3 ≤ w ∧ w < 16)) → hostMove (.regWrite (4 * w) 4 v) s = .next s)

/-- 10_state R24 to R27, R33, R34, 60_exceptions R201: what a Host read of each offset of the register map returns, ERR with
the number of each of the sixteen codes; it changes nothing but the Host's list of replies. -/
def Obligations.RegisterReads : Prop :=
  ∀ s : State,
    (∀ w, w < 32 → ∃ v : Word, hostMove (.regRead (4 * w) 4) s = .next { s with replies := .word v :: s.replies } ∧
      (w = 0 → v = 0x43504307#32) ∧ (w = 1 → v = 0#32) ∧
      (w = 2 → v.toNat = s.busy.toNat + 2 * s.done.toNat + 4 * (if s.err = .none then 0 else 1)
        + 8 * s.ovr.toNat + 16 * s.session.active.toNat) ∧
      (w = 3 → ∀ p ∈ [(ErrCode.none, 0x00), (.illegal, 0x01), (.width, 0x02), (.offset, 0x03), (.order, 0x04),
        (.param, 0x05), (.resource, 0x06), (.bounds, 0x07), (.overlap, 0x08), (.size, 0x09), (.groupWidth, 0x0A),
        (.badPacking, 0x0B), (.bitmap, 0x0C), (.session, 0x0D), (.overflow, 0x0E), (.floatRange, 0x0F)],
        s.err = p.1 → v.toNat = p.2) ∧ (w = 4 → v = s.errInfo) ∧ (w = 5 → v = s.res0) ∧
      (w = 6 → v = s.session.base) ∧ (w = 7 → v = s.session.cap) ∧ (w = 8 → v = s.session.count) ∧
      (w = 9 → v.toNat = s.session.acc.toNat * 2 ^ 8 + s.session.nacc.toNat) ∧
      (10 ≤ w → w < 16 → v = 0#32) ∧ (∀ i : Fin 16, w = 16 + i.val → v = s.args[i]))

/-- 10_state R23, 93 I-12: a register access that is not an aligned 32-bit one is refused. -/
def Obligations.MisshapenRegisterAccessIsRefused : Prop :=
  ∀ (s : State) (off size : Nat) (v : Word), (size ≠ 4 ∨ off % 4 ≠ 0) →
    hostMove (.regRead off size) s = .refused (.misshapenRegisterAccess off size) ∧
    hostMove (.regWrite off size v) s = .refused (.misshapenRegisterAccess off size)

/-- 70_reset R242, 93 I-9, I-10: Host accesses to data memory. A write into a footprint of the running command is refused,
every other write stores the byte; a read of its write footprint returns a free byte, every other read the stored byte. That
the footprints are those of the operands alone, also when a check will fail, and of the whole open target for a BW command,
is the model's reading of R57, R58 and R242 (log entry 8, DEDUCED). -/
def Obligations.HostMemoryAccess : Prop :=
  (∀ (s : State) (a : Word) (b : Byte), s.mem.wf →
    (covers (s.running readRegions) a.toNat || covers (s.running writeRegions) a.toNat) = false →
    ∃ t, hostMove (.memWrite a b) s = .next t ∧ t.mem.read a.toNat = b ∧
      (∀ x, x ≠ a.toNat → t.mem.read x = s.mem.read x) ∧ { t with mem := s.mem } = s) ∧
  (∀ (s : State) (a : Word) (b : Byte),
    (covers (s.running readRegions) a.toNat || covers (s.running writeRegions) a.toNat) = true →
    hostMove (.memWrite a b) s = .refused (.hostWriteInFootprint a)) ∧
  (∀ (s : State) (a : Word), covers (s.running writeRegions) a.toNat = false →
    hostMove (.memRead a) s = .next { s with replies := .byte (s.mem.read a.toNat) :: s.replies }) ∧
  (∀ (s : State) (a : Word), covers (s.running writeRegions) a.toNat = true →
    hostMove (.memRead a) s =
      .next { s with replies := .byte (Config.freeByte s.draws a.toNat) :: s.replies, draws := s.draws + 1 })

/-- 70_reset R230 to R232: whenever the platform asserts reset, whatever the block and the Host are doing, the next step gives
the block its reset values and leaves data memory alone, except the bytes a running command leaves unspecified. -/
def Obligations.PlatformReset : Prop :=
  ∀ s : State, s.mem.wf → s.schedule.head? = some .platform →
    ∃ t, step s = .next t ∧ (∀ r, t.readReg r = State.reset.readReg r) ∧ t.busy = false ∧
      t.cmdLatch = 0#32 ∧ t.snap = State.reset.snap ∧ t.session = Session.reset ∧
      t.program = s.program ∧ t.position = s.position ∧ t.schedule = s.schedule.tail ∧ t.replies = s.replies ∧
      t.devices = s.devices ∧
      (s.busy = false → t.mem = s.mem) ∧
      (∀ a, covers (s.running abandonedRegions) a = false → t.mem.read a = s.mem.read a) ∧
      (∀ a, a < 2 ^ 32 → covers (s.running abandonedRegions) a = true → t.mem.read a = Config.freeByte s.draws a)

/-- 30_encoding R78, 20_memory R64: on the Host's turn `cpc.wait` reads STATUS and comes again exactly while BUSY reads 1;
`cpc.check L` reads ERR and goes to L, which may stand anywhere in the program, exactly when ERR.CODE is not 0; every
other move is followed by the next in the program. The label of line `l` is where the moves of lines `l` onward begin. -/
def Obligations.WaitAndCheck : Prop :=
  (∀ s : State, s.turn = some .host →
    (s.program[s.position]? = some .wait → ∃ t, step s = .next t ∧ t.replies = .word s.statusWord :: s.replies ∧
      t.position = (if s.busy then s.position else s.position + 1) ∧
      { t with replies := s.replies, position := s.position, schedule := s.schedule } = s) ∧
    (∀ l, s.program[s.position]? = some (.check l) → ∃ t, step s = .next t ∧ t.replies = .word s.errWord :: s.replies ∧
      t.position = (if s.err = .none then s.position + 1 else l) ∧
      { t with replies := s.replies, position := s.position, schedule := s.schedule } = s) ∧
    (∀ m t, s.program[s.position]? = some m → m ≠ .wait → (∀ l, m ≠ .check l) → step s = .next t →
      t.program = s.program ∧ t.position = s.position + 1)) ∧
  (∀ (ls : List HostLine) (l : Nat),
    (hostProgram ls).drop (lineStart ls l) = (ls.drop l).flatMap (HostLine.expand (lineStart ls)))

/-! ### Regions, memory and streams -/

/-- 00_scope R14: when a region is out of bounds, and when two regions overlap. -/
def Obligations.RegionNotions : Prop :=
  (∀ r : Region, r.outOfBounds = true ↔ 0 < r.len ∧ r.base + r.len > 2 ^ 32) ∧
  (∀ r q : Region, r.overlaps q = true ↔ 0 < r.len ∧ 0 < q.len ∧ ∃ a, r.has a = true ∧ q.has a = true)

/-- 00_scope R9: byte addr + i of `MemWrite(addr, n, v)` receives v[8i+7:8i], other bytes stay, and `LE32` is the sum of its
four bytes. -/
def Obligations.LittleEndianWrites : Prop :=
  (∀ (m : Memory) (a n v : Nat), m.wf → a + n ≤ 2 ^ 32 →
    (∀ i, i < n → ((m.writeLE a n v).read (a + i)).toNat = v / 2 ^ (8 * i) % 2 ^ 8) ∧
    SameOutside m (m.writeLE a n v) ⟨a, n⟩ ∧ (m.writeLE a n v).wf) ∧
  (∀ (m : Memory) (a : Nat),
    (m.le32 a).toNat = ∑ i ∈ Finset.range 4, (m.read (a + i)).toNat * 2 ^ (8 * i))

/-- 00_scope R10: the stream bit and the field as sums over stream bits. -/
def Obligations.StreamFieldsAreSums : Prop :=
  (∀ (m : Memory) (base k : Nat), (streamBit m base k).toNat = (m.read (base + k / 8)).toNat / 2 ^ (7 - k % 8) % 2) ∧
  (∀ (m : Memory) (base k w : Nat),
    field m base k w = ∑ j ∈ Finset.range w, (streamBit m base (k + j)).toNat * 2 ^ (w - 1 - j)) ∧
  (∀ (m : Memory) (base k : Nat), field m base k 0 = 0)

/-- 00_scope R12: the big-endian sign-magnitude read. -/
def Obligations.SignMagnitudeRead : Prop :=
  ∀ (m : Memory) (a n : Nat), 1 ≤ n →
    ∃ u : Nat, u = ∑ i ∈ Finset.range n, (m.read (a + i)).toNat * 2 ^ (8 * (n - 1 - i)) ∧ u < 2 ^ (8 * n) ∧
      besm m a n = if u / 2 ^ (8 * n - 1) = 1 then -((u % 2 ^ (8 * n - 1) : Nat) : Int)
        else ((u % 2 ^ (8 * n - 1) : Nat) : Int)

/-! ### BitReader -/

/-- 40_bitreader R100, R102, R106: BR.READ with legal operands stores the n fields as words and returns the footprint. -/
def Obligations.ReadStoresTheFields : Prop :=
  ∀ s : State, s.mem.wf → s.readOps.w ≤ 31 → s.readOps.off ≤ 7 → s.readOps.source.inBounds → s.readOps.dest.inBounds →
    s.readOps.source.apart s.readOps.dest →
    Delivers .brRead s s.readOps.dest
      (if s.readOps.w * s.readOps.n = 0 then 0 else (s.readOps.off + s.readOps.w * s.readOps.n + 7) / 8)
      (fun m => ∀ i, i < s.readOps.n →
        (m.le32 (s.readOps.dst + 4 * i)).toNat =
          field s.mem s.readOps.src (s.readOps.off + i * s.readOps.w) s.readOps.w)

/-- 40_bitreader R108, R109: BR.READF with legal operands and values up to 2^24 stores their binary32 encodings. -/
def Obligations.ReadfStoresTheFloats : Prop :=
  ∀ s : State, s.mem.wf → s.readOps.w ≤ 31 → s.readOps.off ≤ 7 → s.readOps.source.inBounds → s.readOps.dest.inBounds →
    s.readOps.source.apart s.readOps.dest →
    (∀ i, i < s.readOps.n → field s.mem s.readOps.src (s.readOps.off + i * s.readOps.w) s.readOps.w ≤ 2 ^ 24) →
    Delivers .brReadf s s.readOps.dest
      (if s.readOps.w * s.readOps.n = 0 then 0 else (s.readOps.off + s.readOps.w * s.readOps.n + 7) / 8)
      (fun m => ∀ i, i < s.readOps.n →
        m.le32 (s.readOps.dst + 4 * i) =
          f32 (field s.mem s.readOps.src (s.readOps.off + i * s.readOps.w) s.readOps.w))

/-- 40_bitreader R109, 60_exceptions R202, R204: the lowest value above 2^24 raises E_FLOAT_RANGE with its index, and the
destination is unspecified. -/
def Obligations.ReadfRangeError : Prop :=
  ∀ (s : State) (i : Nat), s.mem.wf → s.readOps.w ≤ 31 → s.readOps.off ≤ 7 → s.readOps.source.inBounds →
    s.readOps.dest.inBounds → s.readOps.source.apart s.readOps.dest → i < s.readOps.n →
    2 ^ 24 < field s.mem s.readOps.src (s.readOps.off + i * s.readOps.w) s.readOps.w →
    (∀ j, j < i → field s.mem s.readOps.src (s.readOps.off + j * s.readOps.w) s.readOps.w ≤ 2 ^ 24) →
    Spoils .brReadf s s.readOps.dest .floatRange i

/-- 40_bitreader R100, R105: the checks of BR.READ and BR.READF in their order, each with its recorded value, none touching
memory. -/
def Obligations.ReadErrorsInOrder : Prop :=
  ∀ (s : State) (i : Instr), i = .brRead ∨ i = .brReadf →
    (31 < s.readOps.w → Rejects i s .width s.readOps.w) ∧
    (s.readOps.w ≤ 31 → 7 < s.readOps.off → Rejects i s .offset s.readOps.off) ∧
    (s.readOps.w ≤ 31 → s.readOps.off ≤ 7 →
      (¬ s.readOps.source.inBounds → Rejects i s .bounds s.readOps.src) ∧
      (s.readOps.source.inBounds →
        (¬ s.readOps.dest.inBounds → Rejects i s .bounds s.readOps.dst) ∧
        (s.readOps.dest.inBounds → ¬ s.readOps.source.apart s.readOps.dest →
          Rejects i s .overlap s.readOps.dst)))

/-- 40_bitreader R110: `f32(v)` for 0 ≤ v ≤ 2^24 is a binary32 word with sign 0 whose value, (2^23 + fraction) times
2^(exponent - 150), is v; 0 is +0.0. -/
def Obligations.FloatEncodingIsExact : Prop :=
  f32 0 = 0#32 ∧
  ∀ v : Nat, 1 ≤ v → v ≤ 2 ^ 24 →
    (f32 v).toNat < 2 ^ 31 ∧ 127 ≤ (f32 v).toNat / 2 ^ 23 ∧ (f32 v).toNat / 2 ^ 23 ≤ 151 ∧
      v * 2 ^ 150 = (2 ^ 23 + (f32 v).toNat % 2 ^ 23) * 2 ^ ((f32 v).toNat / 2 ^ 23)

/-! ### BitWriter -/

/-- 41_bitwriter R120, R121: BW.OPEN begins a session over the target, or reports the first failing check. -/
def Obligations.OpenBeginsASession : Prop :=
  ∀ s : State,
    (s.session.active = false → s.opnd 0 + s.opnd 1 ≤ 2 ^ 32 →
      ∃ t, exec .bwOpen s = .next t ∧ Succeeded s t 0 ∧ t.mem = s.mem ∧ t.session.active = true ∧
        t.session.base = s.snap[0] ∧ t.session.cap = s.snap[1] ∧ t.session.count = 0#32 ∧ t.session.nacc = 0#3 ∧
        t.session.acc = 0#7) ∧
    (s.session.active = true → Rejects .bwOpen s .session 1) ∧
    (s.session.active = false → s.opnd 0 + s.opnd 1 > 2 ^ 32 → Rejects .bwOpen s .bounds (s.opnd 0))

/-- 41_bitwriter R122, R124, 10_state R32: BW.WRITE appends the w low bits of the value, most significant first, to the bit
string the session holds; RES0 is COUNT; only the bytes it flushes may change. -/
def Obligations.WriteAppendsTheBits : Prop :=
  ∀ (s : State) (bs : List Bool), s.mem.wf → s.session.wf → s.session.active = true → s.sink.Holds bs →
    s.opnd 1 ≤ 25 → (bs.length + s.opnd 1 + 7) / 8 ≤ s.session.cap.toNat →
    ∃ t, exec .bwWrite s = .next t ∧ Succeeded s t ((bs.length + s.opnd 1) / 8) ∧
      t.sink.Holds (bs ++ msbBits s.snap[0] (s.opnd 1)) ∧ t.session.active = true ∧
      t.session.base = s.session.base ∧ t.session.cap = s.session.cap ∧
      SameOutside s.mem t.mem ⟨s.session.base.toNat + bs.length / 8, (bs.length + s.opnd 1) / 8 - bs.length / 8⟩

/-- 41_bitwriter R121, R125, R126, R129: the errors of BW.WRITE in their order. -/
def Obligations.WriteErrorsInOrder : Prop :=
  ∀ (s : State) (need : Nat), need = (8 * s.session.count.toNat + s.session.nacc.toNat + s.opnd 1 + 7) / 8 →
    (s.session.active = false → Rejects .bwWrite s .session 0) ∧
    (s.session.active = true → 25 < s.opnd 1 → Aborts .bwWrite s .width (s.opnd 1)) ∧
    (s.session.active = true → s.opnd 1 ≤ 25 → s.session.cap.toNat < need →
      Aborts .bwWrite s .bounds (min need (2 ^ 32 - 1)))

/-- 41_bitwriter R130: BW.WRITE of width 0 in an open session changes only RES0 (= COUNT) and the completion flags. -/
def Obligations.WriteOfWidthZero : Prop :=
  ∀ s : State, s.session.wf → s.session.active = true → s.opnd 1 = 0 →
    exec .bwWrite s =
      .next { s with err := .none, errInfo := 0#32, res0 := s.session.count, busy := false, done := true }

/-- 41_bitwriter R123: splitting a value into a high and a low chunk, high first, cannot be observed. -/
def Obligations.ChunkSplittingIsInvisible : Prop :=
  ∀ (x : Sink) (v : Word) (h l : Nat), h + l ≤ 25 →
    x.append v (h + l) = (x.append (v >>> l) h).append v l

/-- 41_bitwriter R127: BW.WRITEB with legal operands appends every element of the source array at the given width. -/
def Obligations.BatchAppendsTheArray : Prop :=
  ∀ (s : State) (bs : List Bool), s.mem.wf → s.session.wf → s.session.active = true → s.sink.Holds bs →
    s.batchOps.w ≤ 25 → s.batchOps.source.inBounds → s.batchOps.source.apart s.session.target →
    (bs.length + s.batchOps.w * s.batchOps.cnt + 7) / 8 ≤ s.session.cap.toNat →
    ∃ t, exec .bwWriteb s = .next t ∧ Succeeded s t ((bs.length + s.batchOps.w * s.batchOps.cnt) / 8) ∧
      t.sink.Holds (bs ++ (List.range s.batchOps.cnt).flatMap (fun i =>
        msbBits (s.mem.le32 (s.batchOps.src + 4 * i)) s.batchOps.w)) ∧
      t.session.active = true ∧ t.session.base = s.session.base ∧ t.session.cap = s.session.cap ∧
      SameOutside s.mem t.mem
        ⟨s.session.base.toNat + bs.length / 8, (bs.length + s.batchOps.w * s.batchOps.cnt) / 8 - bs.length / 8⟩

/-- 41_bitwriter R127, R129: the errors of BW.WRITEB in their order. -/
def Obligations.BatchErrorsInOrder : Prop :=
  ∀ (s : State) (need : Nat),
    need = (8 * s.session.count.toNat + s.session.nacc.toNat + s.batchOps.w * s.batchOps.cnt + 7) / 8 →
    (s.session.active = false → Rejects .bwWriteb s .session 0) ∧
    (s.session.active = true →
      (25 < s.batchOps.w → Aborts .bwWriteb s .width s.batchOps.w) ∧
      (s.batchOps.w ≤ 25 → ¬ s.batchOps.source.inBounds → Aborts .bwWriteb s .bounds s.batchOps.src) ∧
      (s.batchOps.w ≤ 25 → s.batchOps.source.inBounds →
        (¬ s.batchOps.source.apart s.session.target → Aborts .bwWriteb s .overlap s.batchOps.src) ∧
        (s.batchOps.source.apart s.session.target → s.session.cap.toNat < need →
          Aborts .bwWriteb s .bounds (min need (2 ^ 32 - 1)))))

/-- 41_bitwriter R128: a successful BW.WRITEB leaves the memory and session that the BW.WRITE commands of its values, in
order, leave; a failing one appends nothing. -/
def Obligations.BatchEqualsSingleWrites : Prop :=
  ∀ s t : State, s.Inv → exec .bwWriteb s = .next t →
    (t.err = .none →
      ∃ u, writesInTurn s s.snap[2] (s.mem.loadWords s.batchOps.src s.batchOps.cnt) = .next u ∧
        u.mem = t.mem ∧ u.session = t.session) ∧
    (t.err ≠ .none → t.mem = s.mem)

/-- 41_bitwriter R131, R132: BW.CLOSE zero-pads and flushes the partial byte, ends the session and returns ceil8(T). -/
def Obligations.CloseFlushesAndEnds : Prop :=
  ∀ s : State,
    (s.session.active = false → Rejects .bwClose s .session 0) ∧
    (∀ bs : List Bool, s.mem.wf → s.session.wf → s.session.active = true → s.sink.Holds bs →
      ∃ t, exec .bwClose s = .next t ∧ Succeeded s t ((bs.length + 7) / 8) ∧
        t.session = { s.session with
          active := false, count := BitVec.ofNat 32 ((bs.length + 7) / 8), nacc := 0#3, acc := 0#7 } ∧
        (∀ k, k < bs.length → bs[k]? = some (streamBit t.mem s.session.base.toNat k)) ∧
        (∀ k, bs.length ≤ k → k < 8 * ((bs.length + 7) / 8) → streamBit t.mem s.session.base.toNat k = false) ∧
        SameOutside s.mem t.mem
          ⟨s.session.base.toNat + bs.length / 8, (bs.length + 7) / 8 - bs.length / 8⟩)

/-- 40_bitreader R107: BW.OPEN, BW.WRITE of n values below 2^w at one width w in 1..25, BW.CLOSE, then BR.READ at the same
place, width and count returns exactly the values. -/
def Obligations.WriterReaderRoundTrip : Prop :=
  ∀ (s : State) (base cap w dst : Word) (vs : List Word), s.Inv → s.session.active = false →
    1 ≤ w.toNat → w.toNat ≤ 25 → (∀ v ∈ vs, v.toNat < 2 ^ w.toNat) →
    base.toNat + cap.toNat ≤ 2 ^ 32 → (w.toNat * vs.length + 7) / 8 ≤ cap.toNat →
    dst.toNat + 4 * vs.length ≤ 2 ^ 32 →
    (Region.mk base.toNat ((w.toNat * vs.length + 7) / 8)).apart ⟨dst.toNat, 4 * vs.length⟩ →
    ∃ s1 s2 s3 s4,
      exec .bwOpen (s.withOperands [base, cap]) = .next s1 ∧ writesInTurn s1 w vs = .next s2 ∧
      exec .bwClose s2 = .next s3 ∧
      exec .brRead (s3.withOperands [base, 0#32, w, BitVec.ofNat 32 vs.length, dst]) = .next s4 ∧
      s4.err = .none ∧ ∀ i, i < vs.length → vs[i]? = some (s4.mem.le32 (dst.toNat + 4 * i))

/-! ### GroupDecoder -/

/-- 42_group R140, R145 to R152, R158: GD.DECODE of a consistent section with no colliding value stores every slot of every
group, in order, and returns the section size. -/
def Obligations.GroupDecodeStoresTheField : Prop :=
  ∀ s : State, s.mem.wf → s.groupOps.Valid Config.maxGroups →
    s.groupOps.Consistent s.mem s.groupOps.payload s.groupOps.size →
    (∀ g, g < s.groupOps.ng → ∀ k, k < s.groupOps.length s.mem s.groupOps.payload g →
      ∀ x, s.groupOps.slotAt s.mem s.groupOps.payload g k = .val x → x < 2 ^ 31 - 1) →
    Delivers .gdDecode s s.groupOps.dest s.groupOps.size
      (fun m => ∀ g, g < s.groupOps.ng → ∀ k, k < s.groupOps.length s.mem s.groupOps.payload g →
        m.le32 (s.groupOps.dst + 4 * (s.groupOps.start s.mem s.groupOps.payload g + k)) =
          (s.groupOps.slotAt s.mem s.groupOps.payload g k).word)

/-- 42_group R142, R143, R140, R160 steps 1 to 5: the operand errors of GD.DECODE in their order, for every capacity
MAX_GROUPS (the argument `mg`); the command uses the machine's own. -/
def Obligations.GroupOperandErrorsInOrder : Prop :=
  (∀ s : State, exec .gdDecode s = .next (gdDecode Config.maxGroups s)) ∧
  ∀ (s : State) (mg : Nat),
    (31 < s.groupOps.nbits → Rejected s (gdDecode mg s) .width s.groupOps.nbits) ∧
    (s.groupOps.nbits ≤ 31 → 31 < s.groupOps.nbgw → Rejected s (gdDecode mg s) .width s.groupOps.nbgw) ∧
    (s.groupOps.nbits ≤ 31 → s.groupOps.nbgw ≤ 31 → 31 < s.groupOps.nbgl →
      Rejected s (gdDecode mg s) .width s.groupOps.nbgl) ∧
    (s.groupOps.nbits ≤ 31 → s.groupOps.nbgw ≤ 31 → s.groupOps.nbgl ≤ 31 →
      (s.groupOps.mvm ∉ [0, 1, 2] → Rejected s (gdDecode mg s) .param 7) ∧
      (s.groupOps.mvm ∈ [0, 1, 2] →
        (s.groupOps.gsm ∉ [0, 1] → Rejected s (gdDecode mg s) .param 6) ∧
        (s.groupOps.gsm ∈ [0, 1] →
          (s.groupOps.ng = 0 → Rejected s (gdDecode mg s) .param 5) ∧
          (s.groupOps.ng ≠ 0 → mg < s.groupOps.ng → Rejected s (gdDecode mg s) .resource s.groupOps.ng) ∧
          (s.groupOps.ng ≠ 0 → s.groupOps.ng ≤ mg →
            (¬ s.groupOps.payloadRegion.inBounds → Rejected s (gdDecode mg s) .bounds s.groupOps.payload) ∧
            (s.groupOps.payloadRegion.inBounds → ¬ s.groupOps.dest.inBounds →
              Rejected s (gdDecode mg s) .bounds s.groupOps.dst) ∧
            (s.groupOps.payloadRegion.inBounds → s.groupOps.dest.inBounds →
              ¬ s.groupOps.payloadRegion.apart s.groupOps.dest →
              Rejected s (gdDecode mg s) .overlap s.groupOps.dst)))))

/-- 42_group R145, R146, R148, R149, R160 steps 6 to 9: the consistency errors of GD.DECODE in their order, each leaving
memory unchanged. -/
def Obligations.GroupConsistencyErrorsInOrder : Prop :=
  ∀ (s : State) (mg : Nat) (o : GroupOps) (m : Memory) (b : Nat), s.groupOps = o → s.mem = m → o.payload = b →
    o.Valid mg →
    (o.size < o.headerBytes → Rejected s (gdDecode mg s) .size (min o.headerBytes (2 ^ 32 - 1))) ∧
    (o.headerBytes ≤ o.size →
      (∀ g, g < o.ng → 31 < o.width m b g → (∀ h, h < g → o.width m b h ≤ 31) →
        Rejected s (gdDecode mg s) .groupWidth g) ∧
      ((∀ g, g < o.ng → o.width m b g ≤ 31) →
        (o.start m b o.ng ≠ o.npnts →
          Rejected s (gdDecode mg s) .badPacking (min (o.start m b o.ng) (2 ^ 32 - 1))) ∧
        (o.start m b o.ng = o.npnts → o.headerBytes + ceil8 (o.position m b o.ng) ≠ o.size →
          Rejected s (gdDecode mg s) .size (min (o.headerBytes + ceil8 (o.position m b o.ng)) (2 ^ 32 - 1)))))

/-- 42_group R157, R160 step 10, 60_exceptions R202, R204: the lowest slot whose value reaches MISSING raises E_OVERFLOW with
its index, and the destination is unspecified. -/
def Obligations.GroupOverflowError : Prop :=
  ∀ (s : State) (mg : Nat) (o : GroupOps) (m : Memory) (b g k : Nat) (x : Int), s.groupOps = o → s.mem = m →
    o.payload = b → m.wf → o.Valid mg → o.Consistent m b o.size → g < o.ng → k < o.length m b g →
    o.slotAt m b g k = .val x → 2 ^ 31 - 1 ≤ x →
    (∀ g' k', g' < o.ng → k' < o.length m b g' → o.start m b g' + k' < o.start m b g + k →
      ∀ y, o.slotAt m b g' k' = .val y → y < 2 ^ 31 - 1) →
    Spoiled s (gdDecode mg s) o.dest .overflow (o.start m b g + k)

/-- 42_group R152 to R156: the three missing-value policies, constant groups compared with patterns of nbits bits. -/
def Obligations.MissingValuePolicies : Prop :=
  (∀ ref w raw nbits : Nat, substValue 0 ref w raw nbits = .val (ref + raw)) ∧
  (∀ mvm ref raw nbits : Nat, mvm = 1 ∨ mvm = 2 →
    substValue mvm ref 0 raw nbits =
      if ref + 1 = 2 ^ nbits ∨ (mvm = 2 ∧ ref + 2 = 2 ^ nbits) then .miss else .val ref) ∧
  (∀ mvm ref w raw nbits : Nat, mvm = 1 ∨ mvm = 2 → 0 < w →
    substValue mvm ref w raw nbits =
      if raw + 1 = 2 ^ w ∨ (mvm = 2 ∧ raw + 2 = 2 ^ w) then .miss else .val (ref + raw))

/-- 42_group R149: the two independently computed totals agree for every input. -/
def Obligations.TheTwoTotalsAgree : Prop :=
  ∀ (header : Nat) (ds : List Descriptor), totalA header ds = totalB header ds

/-- 42_group R159, R158: the tagged view is exact: a stored slot reads back as itself, and a word holds 0x7FFFFFFF exactly
when the slot is MISS. -/
def Obligations.TaggedViewIsExact : Prop :=
  ∀ f : Slot, (∀ x, f = .val x → -2 ^ 31 ≤ x ∧ x < 2 ^ 31 - 1) →
    Slot.ofWord f.word = f ∧ (f.word = 0x7FFFFFFF#32 ↔ f = .miss)

/-! ### SpatialDifferenceReconstructor -/

/-- 43_spatial R170, R171, R173 to R177: SD.DECODE reads its seeds at the head of the section and stores the inversion of the
group-decoded field of the reduced section, when every reconstructed value can be stored. -/
def Obligations.DifferenceDecodeStoresTheInversion : Prop :=
  ∀ (s : State) (o : GroupOps) (skip : Nat) (q : Seeds) (fs gs : List Slot), s.groupOps = o → s.mem.wf →
    (s.sdOrder = 1 ∨ s.sdOrder = 2) → 1 ≤ s.sdEow → s.sdEow ≤ 4 → o.Valid Config.maxGroups →
    q.s1 = besm s.mem o.payload s.sdEow → (s.sdOrder = 2 → q.s2 = besm s.mem (o.payload + s.sdEow) s.sdEow) →
    q.mn = besm s.mem (o.payload + s.sdOrder * s.sdEow) s.sdEow →
    skip = (s.sdOrder + 1) * s.sdEow → skip ≤ o.size →
    gdCore o s.mem (o.payload + skip) (o.size - skip) = .ok fs →
    Inverts s.sdOrder q fs gs →
    (∀ x, Slot.val x ∈ gs → -2 ^ 31 ≤ x ∧ x < 2 ^ 31 - 1) →
    Delivers .sdDecode s o.dest o.size
      (fun m => ∀ i, i < o.npnts → (gs[i]?).map Slot.word = some (m.le32 (o.dst + 4 * i)))

/-- 42_group R145 to R152: the group decoding that SD.DECODE uses gives, for a consistent section with no colliding value,
the field of the groups' slots in order. -/
def Obligations.GroupCoreGivesTheField : Prop :=
  ∀ (o : GroupOps) (m : Memory) (b size : Nat), o.Consistent m b size →
    (∀ g, g < o.ng → ∀ k, k < o.length m b g → ∀ x, o.slotAt m b g k = .val x → x < 2 ^ 31 - 1) →
    ∃ fs, gdCore o m b size = .ok fs ∧ fs.length = o.npnts ∧
      ∀ g, g < o.ng → ∀ k, k < o.length m b g → fs[o.start m b g + k]? = some (o.slotAt m b g k)

/-- 43_spatial R170 to R172, R179: the operand errors of SD.DECODE in their order: order, extra_octet_width, then the first
failing check of GD.DECODE, then the seed fields against the section size. -/
def Obligations.DifferenceOperandErrorsInOrder : Prop :=
  (∀ s : State, exec .sdDecode s = .next (sdDecode Config.maxGroups s)) ∧
  ∀ (s : State) (mg : Nat),
    (s.sdOrder ∉ [1, 2] → Rejected s (sdDecode mg s) .order s.sdOrder) ∧
    (s.sdOrder ∈ [1, 2] → s.sdEow ∉ [1, 2, 3, 4] → Rejected s (sdDecode mg s) .param 15) ∧
    (s.sdOrder ∈ [1, 2] → s.sdEow ∈ [1, 2, 3, 4] →
      (∀ (c : ErrCode) (n : Nat), ¬ s.groupOps.Valid mg → Rejected s (gdDecode mg s) c n →
        Rejected s (sdDecode mg s) c n) ∧
      (s.groupOps.Valid mg → s.groupOps.size < (s.sdOrder + 1) * s.sdEow →
        Rejected s (sdDecode mg s) .size ((s.sdOrder + 1) * s.sdEow)))

/-- 43_spatial R173, R178, R179 steps 7, 8: an error of the group decoding is reported as it is, with the destination
unspecified after E_OVERFLOW; so is a reconstructed value that cannot be stored, at the lowest such slot. -/
def Obligations.DifferenceDecodingErrors : Prop :=
  ∀ (s : State) (mg : Nat) (o : GroupOps) (skip : Nat), s.groupOps = o → s.mem.wf →
    (s.sdOrder = 1 ∨ s.sdOrder = 2) → 1 ≤ s.sdEow → s.sdEow ≤ 4 → o.Valid mg →
    skip = (s.sdOrder + 1) * s.sdEow → skip ≤ o.size →
    (∀ r, gdCore o s.mem (o.payload + skip) (o.size - skip) = .error r → r.code ≠ .overflow →
      Rejected s (sdDecode mg s) r.code r.info) ∧
    (∀ r, gdCore o s.mem (o.payload + skip) (o.size - skip) = .error r → r.code = .overflow →
      Spoiled s (sdDecode mg s) o.dest .overflow r.info) ∧
    (∀ (fs gs : List Slot) (i : Nat) (d y : Int),
      gdCore o s.mem (o.payload + skip) (o.size - skip) = .ok fs →
      Inverts s.sdOrder (readSeeds s.mem o.payload s.sdOrder s.sdEow) (fs.take i ++ [.val d]) (gs ++ [.val y]) →
      fs[i]? = some (.val d) → (∀ x, Slot.val x ∈ gs → -2 ^ 31 ≤ x ∧ x < 2 ^ 31 - 1) →
      (y < -2 ^ 31 ∨ 2 ^ 31 - 1 ≤ y) →
      Spoiled s (sdDecode mg s) o.dest .overflow i)

/-! ### BitmapExpander -/

/-- 44_bitmap R190 to R195: BM.EXPAND with legal operands and a matching count copies the next compact value to each set
position and writes QNAN to each clear one; RES0 is the number of set bits. -/
def Obligations.ExpandScattersTheValues : Prop :=
  ∀ s : State, s.mem.wf → s.expandOps.compact.inBounds → s.expandOps.bitmap.inBounds → s.expandOps.dest.inBounds →
    s.expandOps.dest.apart s.expandOps.compact → s.expandOps.dest.apart s.expandOps.bitmap →
    (∑ p ∈ Finset.range s.expandOps.n, (streamBit s.mem s.expandOps.b p).toNat) = s.expandOps.nc →
    Delivers .bmExpand s s.expandOps.dest s.expandOps.nc
      (fun m => ∀ p, p < s.expandOps.n →
        m.le32 (s.expandOps.d + 4 * p) =
          if streamBit s.mem s.expandOps.b p then
            s.mem.le32 (s.expandOps.c + 4 * ∑ q ∈ Finset.range p, (streamBit s.mem s.expandOps.b q).toNat)
          else 0x7FC00000#32)

/-- 44_bitmap R190, R191, R193: the errors of BM.EXPAND in their order, none writing memory. -/
def Obligations.ExpandErrorsInOrder : Prop :=
  ∀ (s : State) (o : ExpandOps), s.expandOps = o →
    (¬ o.compact.inBounds → Rejects .bmExpand s .bounds o.c) ∧
    (o.compact.inBounds →
      (¬ o.bitmap.inBounds → Rejects .bmExpand s .bounds o.b) ∧
      (o.bitmap.inBounds →
        (¬ o.dest.inBounds → Rejects .bmExpand s .bounds o.d) ∧
        (o.dest.inBounds →
          (¬ o.dest.apart o.compact → Rejects .bmExpand s .overlap o.d) ∧
          (o.dest.apart o.compact → ¬ o.dest.apart o.bitmap → Rejects .bmExpand s .overlap o.d) ∧
          (o.dest.apart o.compact → o.dest.apart o.bitmap →
            ∀ pc, pc = ∑ p ∈ Finset.range o.n, (streamBit s.mem o.b p).toNat → pc ≠ o.nc →
              Rejects .bmExpand s .bitmap pc))))

end Slice0Obligations
end

