-- ==== Sys2Proof/Laws/Memory.lean ====
section
/-! SUPPORT. Laws of the data memory: read after write, and that every memory operation keeps the canonical form. -/

namespace Sys2Proof.Machine

@[simp] theorem Memory.read_nil (a : Nat) : Memory.read [] a = Memory.unlisted a := rfl

theorem Memory.written_cons (k : Nat) (v : Byte) (m : Memory) (a : Nat) :
    Memory.written? ((k, v) :: m) a = if k = a then some v else Memory.written? m a := rfl

theorem Memory.wf_nil : Memory.wf [] := ⟨List.Pairwise.nil, by simp⟩

theorem Memory.wf_cons (c : Host.Cell) (m : Memory) :
    Memory.wf (c :: m) ↔ (∀ d ∈ m, c.1 < d.1) ∧ c.1 < Config.memSize ∧ Memory.wf m := by
  simp only [Memory.wf, List.pairwise_cons, List.mem_cons, forall_eq_or_imp]
  tauto

/-- An address below every listed one is unlisted. -/
theorem Memory.written_of_lt (m : Memory) (a : Nat) (h : ∀ d ∈ m, a < d.1) : m.written? a = none := by
  induction m with
  | nil => rfl
  | cons c m ih =>
    have hc := h c (by simp)
    rw [show c = (c.1, c.2) from rfl, Memory.written_cons, if_neg (by omega)]
    exact ih (fun d hd => h d (by simp [hd]))

/-- Every entry after a write was there before or is the written one. -/
theorem Memory.mem_write (m : Memory) (a : Nat) (b : Byte) (c : Host.Cell) (h : c ∈ m.write a b) :
    c ∈ m ∨ c = (a, b) := by
  induction m with
  | nil => simpa [Memory.write] using h
  | cons d m ih =>
    obtain ⟨k, v⟩ := d
    simp only [Memory.write] at h
    split at h
    · rcases List.mem_cons.1 h with h | h
      · exact .inl (by simp [h])
      · rcases ih h with h | h
        · exact .inl (by simp [h])
        · exact .inr h
    · split at h <;> simp only [List.mem_cons] at h ⊢ <;> tauto

/-- A write in the data memory keeps the canonical form. -/
theorem Memory.wf_write (m : Memory) (a : Nat) (b : Byte) (ha : a < Config.memSize) (h : m.wf) :
    (m.write a b).wf := by
  induction m with
  | nil => exact (Memory.wf_cons _ _).2 ⟨by simp, ha, Memory.wf_nil⟩
  | cons c m ih =>
    obtain ⟨k, v⟩ := c
    obtain ⟨h1, h2, h3⟩ := (Memory.wf_cons _ _).1 h
    simp only [Memory.write]
    split
    · refine (Memory.wf_cons _ _).2 ⟨fun d hd => ?_, h2, ih h3⟩
      rcases Memory.mem_write m a b d hd with hd | hd
      · exact h1 d hd
      · rw [hd]; assumption
    · rename_i hk
      refine (Memory.wf_cons _ _).2 ⟨?_, ha, by split <;> assumption⟩
      split
      · intro d hd; subst_vars; exact h1 d hd
      · intro d hd
        rcases List.mem_cons.1 hd with hd | hd
        · rw [hd]; show a < k; omega
        · have := h1 d hd; simp only at this; omega

/-- What has been written after a write, at the same address and at every other. -/
theorem Memory.written_write (m : Memory) (a a' : Nat) (b : Byte) :
    (m.write a b).written? a' = if a' = a then some b else m.written? a' := by
  induction m with
  | nil => simp [Memory.write, Memory.written?, eq_comm]
  | cons c m ih =>
    obtain ⟨k, v⟩ := c
    simp only [Memory.write]
    split
    · rw [Memory.written_cons, Memory.written_cons, ih]
      split <;> split <;> first | rfl | omega
    · rw [Memory.written_cons]
      by_cases hne : a' = a
      · simp [hne]
      · rw [if_neg (Ne.symm hne), if_neg hne]
        split
        · rw [Memory.written_cons, if_neg (by omega)]
        · rfl

/-- Reading after a write, at the same address and at every other. -/
theorem Memory.read_write (m : Memory) (a a' : Nat) (b : Byte) (_ : m.wf) :
    (m.write a b).read a' = if a' = a then b else m.read a' := by
  rw [Memory.read, Memory.written_write, Memory.read]
  split <;> rfl

/-- The form is canonical: two memories with the same bytes written are the same list (log 3). -/
theorem Memory.eq_of_written (m : Memory) : ∀ m' : Memory, m.wf → m'.wf → (∀ a, m.written? a = m'.written? a) → m = m' := by
  induction m with
  | nil =>
    intro m' _ _ h
    cases m' with
    | nil => rfl
    | cons c m' => simpa [Memory.written?] using h c.1
  | cons c m ih =>
    intro m' hm hm' h
    cases m' with
    | nil => simpa [Memory.written?] using h c.1
    | cons d m' =>
      obtain ⟨a, v⟩ := c
      obtain ⟨b, w⟩ := d
      obtain ⟨h1, -, h3⟩ := (Memory.wf_cons _ _).1 hm
      obtain ⟨g1, -, g3⟩ := (Memory.wf_cons _ _).1 hm'
      have hab : a = b := by
        by_contra hne
        rcases Nat.lt_or_gt_of_ne hne with hlt | hlt
        · have := h a
          rw [Memory.written_cons, if_pos rfl, Memory.written_of_lt ((b, w) :: m') a] at this
          · cases this
          · intro x hx
            rcases List.mem_cons.1 hx with hx | hx
            · rw [hx]; exact hlt
            · have := g1 x hx; simp only at this; omega
        · have := h b
          rw [Memory.written_cons b, if_pos rfl, Memory.written_of_lt ((a, v) :: m) b] at this
          · cases this
          · intro x hx
            rcases List.mem_cons.1 hx with hx | hx
            · rw [hx]; exact hlt
            · have := h1 x hx; simp only at this; omega
      subst hab
      have hv : v = w := by simpa [Memory.written_cons] using h a
      subst hv
      rw [ih m' h3 g3]
      intro x
      by_cases hx : a = x
      · subst hx; rw [Memory.written_of_lt m _ h1, Memory.written_of_lt m' _ g1]
      · simpa [Memory.written_cons, hx] using h x

theorem Memory.wf_writeLE (n : Nat) : ∀ (m : Memory) (a v : Nat), a + n ≤ Config.memSize → m.wf → (m.writeLE a n v).wf := by
  induction n with
  | zero => intro m a v _ h; exact h
  | succ n ih =>
    intro m a v ha h
    exact ih _ _ _ (by omega) (Memory.wf_write _ _ _ (by omega) h)

/-- What `MemWrite` leaves at every address (00_scope R9). -/
theorem Memory.read_writeLE (n : Nat) : ∀ (m : Memory) (a v x : Nat), a + n ≤ Config.memSize → m.wf →
    (m.writeLE a n v).read x =
      if a ≤ x ∧ x < a + n then BitVec.ofNat 8 (v / 256 ^ (x - a)) else m.read x := by
  induction n with
  | zero => intro m a v x _ h; rw [if_neg (by omega)]; rfl
  | succ n ih =>
    intro m a v x ha h
    have hw := Memory.wf_write m a (BitVec.ofNat 8 v) (by omega) h
    rw [Memory.writeLE, ih _ _ _ _ (by omega) hw, Memory.read_write _ _ _ _ h]
    by_cases h1 : x = a
    · subst h1; simp
    · rw [if_neg h1]
      by_cases h2 : a + 1 ≤ x ∧ x < a + 1 + n
      · rw [if_pos h2, if_pos (by omega), Nat.div_div_eq_div_mul, ← Nat.pow_succ']
        congr 3; omega
      · rw [if_neg h2, if_neg (by omega)]

theorem Memory.wf_storeWords (vs : List Word) : ∀ (m : Memory) (a : Nat), a + 4 * vs.length ≤ Config.memSize → m.wf →
    (m.storeWords a vs).wf := by
  induction vs with
  | nil => intro m a _ h; exact h
  | cons v vs ih =>
    intro m a ha h
    rw [List.length_cons] at ha
    exact ih _ _ (by omega) (Memory.wf_writeLE 4 _ _ _ (by omega) h)

/-- What storing an element array leaves at every address (20_memory R54). -/
theorem Memory.read_storeWords (vs : List Word) : ∀ (m : Memory) (a x : Nat), a + 4 * vs.length ≤ Config.memSize → m.wf →
    (m.storeWords a vs).read x =
      if a ≤ x ∧ x < a + 4 * vs.length then
        BitVec.ofNat 8 ((vs.getD ((x - a) / 4) 0#32).toNat / 256 ^ ((x - a) % 4))
      else m.read x := by
  induction vs with
  | nil => intro m a x _ h; rw [if_neg (by simp)]; rfl
  | cons v vs ih =>
    intro m a x ha h
    rw [List.length_cons] at ha ⊢
    have hw := Memory.wf_writeLE 4 m a v.toNat (by omega) h
    rw [Memory.storeWords, ih _ _ _ (by omega) hw, Memory.read_writeLE 4 _ _ _ _ (by omega) h]
    by_cases h1 : a ≤ x ∧ x < a + 4
    · rw [if_neg (by omega), if_pos h1, if_pos (by omega), show (x - a) / 4 = 0 by omega,
        show (x - a) % 4 = x - a by omega]
      rfl
    · rw [if_neg h1]
      by_cases h2 : a + 4 ≤ x ∧ x < a + 4 + 4 * vs.length
      · rw [if_pos h2, if_pos (by omega), show (x - a) / 4 = (x - (a + 4)) / 4 + 1 by omega,
          show (x - (a + 4)) % 4 = (x - a) % 4 by omega]
        rfl
      · rw [if_neg h2, if_neg (by omega)]

theorem Memory.wf_drawBytes (draw n : Nat) : ∀ (m : Memory) (a : Nat), a + n ≤ Config.memSize → m.wf →
    (m.drawBytes draw a n).wf := by
  induction n with
  | zero => intro m a _ h; exact h
  | succ n ih => intro m a ha h; exact ih _ _ (by omega) (Memory.wf_write _ _ _ (by omega) h)

/-- What a draw leaves at every address (60_exceptions R204). -/
theorem Memory.read_drawBytes (draw n : Nat) : ∀ (m : Memory) (a x : Nat), a + n ≤ Config.memSize → m.wf →
    (m.drawBytes draw a n).read x = if a ≤ x ∧ x < a + n then Config.freeByte draw x else m.read x := by
  induction n with
  | zero => intro m a x _ h; rw [if_neg (by omega)]; rfl
  | succ n ih =>
    intro m a x ha h
    rw [Memory.drawBytes, ih _ _ _ (by omega) (Memory.wf_write _ _ _ (by omega) h), Memory.read_write _ _ _ _ h]
    by_cases h1 : x = a
    · subst h1; rw [if_neg (by omega), if_pos rfl, if_pos (by omega)]
    · by_cases h2 : a + 1 ≤ x ∧ x < a + 1 + n
      · rw [if_pos h2, if_pos (by omega)]
      · rw [if_neg h2, if_neg h1, if_neg (by omega)]

theorem Memory.wf_drawRegion (m : Memory) (draw : Nat) (r : Region) (h : m.wf) : (m.drawRegion draw r).wf := by
  by_cases hr : r.base ≤ Config.memSize
  · exact Memory.wf_drawBytes _ _ _ _ (by omega) h
  · rwa [Memory.drawRegion, Nat.sub_eq_zero_of_le (by omega), Nat.min_zero]

/-- A draw of a region changes its data bytes and no other byte. -/
theorem Memory.read_drawRegion (m : Memory) (draw : Nat) (r : Region) (x : Nat) (h : m.wf) :
    (m.drawRegion draw r).read x =
      if r.has x = true ∧ x < Config.memSize then Config.freeByte draw x else m.read x := by
  by_cases hr : Config.memSize < r.base
  · rw [Memory.drawRegion, Nat.sub_eq_zero_of_le (by omega), Nat.min_zero, if_neg, Memory.drawBytes]
    simp only [Region.has, Bool.and_eq_true, decide_eq_true_eq]; omega
  rw [Memory.drawRegion, Memory.read_drawBytes _ _ _ _ _ (by omega) h]
  simp only [Region.has, Bool.and_eq_true, decide_eq_true_eq]
  congr 1
  simp only [eq_iff_iff]
  omega

/-- Reading the element array just stored (20_memory R54). -/
theorem Memory.le32_storeWords (m : Memory) (a i : Nat) (vs : List Word) (ha : a + 4 * vs.length ≤ Config.memSize)
    (h : m.wf) (hi : i < vs.length) : (m.storeWords a vs).le32 (a + 4 * i) = vs.getD i 0#32 := by
  have key : ∀ j, j < 4 → (m.storeWords a vs).read (a + 4 * i + j) =
      BitVec.ofNat 8 ((vs.getD i 0#32).toNat / 256 ^ j) := by
    intro j hj
    rw [Memory.read_storeWords _ _ _ _ ha h, if_pos (by omega), show (a + 4 * i + j - a) / 4 = i by omega,
      show (a + 4 * i + j - a) % 4 = j by omega]
  have h0 := key 0 (by omega)
  have h1 := key 1 (by omega)
  have h2 := key 2 (by omega)
  have h3 := key 3 (by omega)
  simp only [Memory.le32, Memory.readLE]
  rw [show a + 4 * i + 1 + 1 = a + 4 * i + 2 by omega, show a + 4 * i + 2 + 1 = a + 4 * i + 3 by omega, h1, h2, h3,
    show a + 4 * i = a + 4 * i + 0 by omega, h0]
  generalize vs.getD i 0#32 = v
  apply BitVec.eq_of_toNat_eq
  have hv := v.isLt
  simp only [BitVec.toNat_ofNat]
  omega

/-- Bytes outside a stored element array are unchanged. -/
theorem Memory.read_storeWords_outside (m : Memory) (a x : Nat) (vs : List Word) (ha : a + 4 * vs.length ≤ Config.memSize)
    (h : m.wf) (hx : (Region.mk a (4 * vs.length)).has x = false) : (m.storeWords a vs).read x = m.read x := by
  rw [Memory.read_storeWords _ _ _ _ ha h, if_neg]
  simp only [Region.has, Bool.and_eq_false_iff, decide_eq_false_iff_not] at hx
  omega

/-! Regions and the field primitive -/

theorem Region.has_iff (r : Region) (a : Nat) : r.has a = true ↔ r.base ≤ a ∧ a < r.base + r.len := by
  simp [Region.has]

theorem Region.outOfBounds_eq_false (r : Region) :
    r.outOfBounds = false ↔ r.len = 0 ∨ r.base + r.len ≤ Config.memSize := by
  simp only [Region.outOfBounds, Bool.and_eq_false_iff, decide_eq_false_iff_not]
  omega

/-- A region whose base is a 32-bit value and that is not out of bounds ends inside the data memory. -/
theorem Region.end_le (r : Region) (hb : r.base < 2 ^ 32) (h : r.outOfBounds = false) :
    r.base + r.len ≤ Config.memSize := by
  rcases (Region.outOfBounds_eq_false r).1 h with h | h
  · rw [h]; simp only [Config.memSize]; omega
  · exact h

/-- Two regions are apart exactly when one is empty or one ends before the other begins (00_scope R14). -/
theorem Region.overlaps_eq_false (r q : Region) :
    r.overlaps q = false ↔ ¬ (0 < r.len ∧ 0 < q.len ∧ r.base < q.base + q.len ∧ q.base < r.base + r.len) := by
  rw [← Bool.not_eq_true]
  simp only [Region.overlaps, Bool.and_eq_true, decide_eq_true_eq, and_assoc]

theorem field_zero (m : Memory) (base k : Nat) : field m base k 0 = 0 := rfl

theorem field_succ (m : Memory) (base k w : Nat) :
    field m base k (w + 1) = 2 * field m base k w + (streamBit m base (k + w)).toNat := rfl

/-- A field of w bits is below 2^w (40_bitreader R102). -/
theorem field_lt (m : Memory) (base k w : Nat) : field m base k w < 2 ^ w := by
  induction w with
  | zero => simp [field]
  | succ w ih =>
    rw [field_succ, Nat.pow_succ]
    have := (streamBit m base (k + w)).toNat_le
    omega

/-- A field depends only on its own stream bits. -/
theorem field_congr (m m' : Memory) (b b' k k' w : Nat)
    (h : ∀ j, j < w → streamBit m b (k + j) = streamBit m' b' (k' + j)) : field m b k w = field m' b' k' w := by
  induction w with
  | zero => rfl
  | succ w ih =>
    rw [field_succ, field_succ, ih (fun j hj => h j (by omega)), h w (by omega)]

end Sys2Proof.Machine
end

