-- ==== Sys2Proof/Laws/State.lean ====
section
/-! SUPPORT. One lemma per field of State for each update of it, so that no later proof unfolds a record update. -/

namespace Sys2Proof.Machine

variable (s : State)

/-! raise -/

@[simp] theorem State.raise_args (r : Raise) : (s.raise r).args = s.args := rfl
@[simp] theorem State.raise_busy (r : Raise) : (s.raise r).busy = false := rfl
@[simp] theorem State.raise_done (r : Raise) : (s.raise r).done = true := rfl
@[simp] theorem State.raise_ovr (r : Raise) : (s.raise r).ovr = s.ovr := rfl
@[simp] theorem State.raise_err (r : Raise) : (s.raise r).err = r.code := rfl
@[simp] theorem State.raise_errInfo (r : Raise) : (s.raise r).errInfo = BitVec.ofNat 32 r.info := rfl
@[simp] theorem State.raise_res0 (r : Raise) : (s.raise r).res0 = 0#32 := rfl
@[simp] theorem State.raise_session (r : Raise) : (s.raise r).session = s.session := rfl
@[simp] theorem State.raise_cmdLatch (r : Raise) : (s.raise r).cmdLatch = s.cmdLatch := rfl
@[simp] theorem State.raise_snap (r : Raise) : (s.raise r).snap = s.snap := rfl
@[simp] theorem State.raise_mem (r : Raise) : (s.raise r).mem = s.mem := rfl
@[simp] theorem State.raise_program (r : Raise) : (s.raise r).program = s.program := rfl
@[simp] theorem State.raise_position (r : Raise) : (s.raise r).position = s.position := rfl
@[simp] theorem State.raise_schedule (r : Raise) : (s.raise r).schedule = s.schedule := rfl
@[simp] theorem State.raise_replies (r : Raise) : (s.raise r).replies = s.replies := rfl
@[simp] theorem State.raise_devices (r : Raise) : (s.raise r).devices = s.devices := rfl
@[simp] theorem State.raise_draws (r : Raise) : (s.raise r).draws = s.draws := rfl

/-! succeed -/

@[simp] theorem State.succeed_args (v : Nat) : (s.succeed v).args = s.args := rfl
@[simp] theorem State.succeed_busy (v : Nat) : (s.succeed v).busy = false := rfl
@[simp] theorem State.succeed_done (v : Nat) : (s.succeed v).done = true := rfl
@[simp] theorem State.succeed_ovr (v : Nat) : (s.succeed v).ovr = s.ovr := rfl
@[simp] theorem State.succeed_err (v : Nat) : (s.succeed v).err = .none := rfl
@[simp] theorem State.succeed_errInfo (v : Nat) : (s.succeed v).errInfo = 0#32 := rfl
@[simp] theorem State.succeed_res0 (v : Nat) : (s.succeed v).res0 = BitVec.ofNat 32 v := rfl
@[simp] theorem State.succeed_session (v : Nat) : (s.succeed v).session = s.session := rfl
@[simp] theorem State.succeed_cmdLatch (v : Nat) : (s.succeed v).cmdLatch = s.cmdLatch := rfl
@[simp] theorem State.succeed_snap (v : Nat) : (s.succeed v).snap = s.snap := rfl
@[simp] theorem State.succeed_mem (v : Nat) : (s.succeed v).mem = s.mem := rfl
@[simp] theorem State.succeed_program (v : Nat) : (s.succeed v).program = s.program := rfl
@[simp] theorem State.succeed_position (v : Nat) : (s.succeed v).position = s.position := rfl
@[simp] theorem State.succeed_schedule (v : Nat) : (s.succeed v).schedule = s.schedule := rfl
@[simp] theorem State.succeed_replies (v : Nat) : (s.succeed v).replies = s.replies := rfl
@[simp] theorem State.succeed_devices (v : Nat) : (s.succeed v).devices = s.devices := rfl
@[simp] theorem State.succeed_draws (v : Nat) : (s.succeed v).draws = s.draws := rfl

/-! draw -/

@[simp] theorem State.draw_args (r : Region) : (s.draw r).args = s.args := rfl
@[simp] theorem State.draw_busy (r : Region) : (s.draw r).busy = s.busy := rfl
@[simp] theorem State.draw_done (r : Region) : (s.draw r).done = s.done := rfl
@[simp] theorem State.draw_ovr (r : Region) : (s.draw r).ovr = s.ovr := rfl
@[simp] theorem State.draw_err (r : Region) : (s.draw r).err = s.err := rfl
@[simp] theorem State.draw_errInfo (r : Region) : (s.draw r).errInfo = s.errInfo := rfl
@[simp] theorem State.draw_res0 (r : Region) : (s.draw r).res0 = s.res0 := rfl
@[simp] theorem State.draw_session (r : Region) : (s.draw r).session = s.session := rfl
@[simp] theorem State.draw_cmdLatch (r : Region) : (s.draw r).cmdLatch = s.cmdLatch := rfl
@[simp] theorem State.draw_snap (r : Region) : (s.draw r).snap = s.snap := rfl
@[simp] theorem State.draw_mem (r : Region) : (s.draw r).mem = s.mem.drawRegion s.draws r := rfl
@[simp] theorem State.draw_program (r : Region) : (s.draw r).program = s.program := rfl
@[simp] theorem State.draw_position (r : Region) : (s.draw r).position = s.position := rfl
@[simp] theorem State.draw_schedule (r : Region) : (s.draw r).schedule = s.schedule := rfl
@[simp] theorem State.draw_replies (r : Region) : (s.draw r).replies = s.replies := rfl
@[simp] theorem State.draw_devices (r : Region) : (s.draw r).devices = s.devices := rfl
@[simp] theorem State.draw_draws (r : Region) : (s.draw r).draws = s.draws + 1 := rfl

/-! deliver -/

@[simp] theorem State.deliver_args (d v : Nat) (vs : List Word) : (s.deliver d vs v).args = s.args := rfl
@[simp] theorem State.deliver_busy (d v : Nat) (vs : List Word) : (s.deliver d vs v).busy = false := rfl
@[simp] theorem State.deliver_done (d v : Nat) (vs : List Word) : (s.deliver d vs v).done = true := rfl
@[simp] theorem State.deliver_ovr (d v : Nat) (vs : List Word) : (s.deliver d vs v).ovr = s.ovr := rfl
@[simp] theorem State.deliver_err (d v : Nat) (vs : List Word) : (s.deliver d vs v).err = .none := rfl
@[simp] theorem State.deliver_errInfo (d v : Nat) (vs : List Word) : (s.deliver d vs v).errInfo = 0#32 := rfl
@[simp] theorem State.deliver_res0 (d v : Nat) (vs : List Word) : (s.deliver d vs v).res0 = BitVec.ofNat 32 v := rfl
@[simp] theorem State.deliver_session (d v : Nat) (vs : List Word) : (s.deliver d vs v).session = s.session := rfl
@[simp] theorem State.deliver_cmdLatch (d v : Nat) (vs : List Word) : (s.deliver d vs v).cmdLatch = s.cmdLatch := rfl
@[simp] theorem State.deliver_snap (d v : Nat) (vs : List Word) : (s.deliver d vs v).snap = s.snap := rfl
@[simp] theorem State.deliver_mem (d v : Nat) (vs : List Word) : (s.deliver d vs v).mem = s.mem.storeWords d vs := rfl
@[simp] theorem State.deliver_program (d v : Nat) (vs : List Word) : (s.deliver d vs v).program = s.program := rfl
@[simp] theorem State.deliver_position (d v : Nat) (vs : List Word) : (s.deliver d vs v).position = s.position := rfl
@[simp] theorem State.deliver_schedule (d v : Nat) (vs : List Word) : (s.deliver d vs v).schedule = s.schedule := rfl
@[simp] theorem State.deliver_replies (d v : Nat) (vs : List Word) : (s.deliver d vs v).replies = s.replies := rfl
@[simp] theorem State.deliver_devices (d v : Nat) (vs : List Word) : (s.deliver d vs v).devices = s.devices := rfl
@[simp] theorem State.deliver_draws (d v : Nat) (vs : List Word) : (s.deliver d vs v).draws = s.draws := rfl

/-! accept -/

@[simp] theorem State.accept_args (w : Word) : (s.accept w).args = s.args := rfl
@[simp] theorem State.accept_busy (w : Word) : (s.accept w).busy = true := rfl
@[simp] theorem State.accept_done (w : Word) : (s.accept w).done = false := rfl
@[simp] theorem State.accept_ovr (w : Word) : (s.accept w).ovr = s.ovr := rfl
@[simp] theorem State.accept_err (w : Word) : (s.accept w).err = .none := rfl
@[simp] theorem State.accept_errInfo (w : Word) : (s.accept w).errInfo = 0#32 := rfl
@[simp] theorem State.accept_res0 (w : Word) : (s.accept w).res0 = 0#32 := rfl
@[simp] theorem State.accept_session (w : Word) : (s.accept w).session = s.session := rfl
@[simp] theorem State.accept_cmdLatch (w : Word) : (s.accept w).cmdLatch = w := rfl
@[simp] theorem State.accept_snap (w : Word) : (s.accept w).snap = s.args := rfl
@[simp] theorem State.accept_mem (w : Word) : (s.accept w).mem = s.mem := rfl
@[simp] theorem State.accept_program (w : Word) : (s.accept w).program = s.program := rfl
@[simp] theorem State.accept_position (w : Word) : (s.accept w).position = s.position := rfl
@[simp] theorem State.accept_schedule (w : Word) : (s.accept w).schedule = s.schedule := rfl
@[simp] theorem State.accept_replies (w : Word) : (s.accept w).replies = s.replies := rfl
@[simp] theorem State.accept_devices (w : Word) : (s.accept w).devices = s.devices := rfl
@[simp] theorem State.accept_draws (w : Word) : (s.accept w).draws = s.draws := rfl

/-! abort -/

@[simp] theorem State.abort_args : (s.abort).args = s.args := rfl
@[simp] theorem State.abort_busy : (s.abort).busy = s.busy := rfl
@[simp] theorem State.abort_done : (s.abort).done = s.done := rfl
@[simp] theorem State.abort_ovr : (s.abort).ovr = s.ovr := rfl
@[simp] theorem State.abort_err : (s.abort).err = s.err := rfl
@[simp] theorem State.abort_errInfo : (s.abort).errInfo = s.errInfo := rfl
@[simp] theorem State.abort_res0 : (s.abort).res0 = s.res0 := rfl
@[simp] theorem State.abort_session : (s.abort).session = { s.session with active := false, nacc := 0#3, acc := 0#7 } := rfl
@[simp] theorem State.abort_cmdLatch : (s.abort).cmdLatch = s.cmdLatch := rfl
@[simp] theorem State.abort_snap : (s.abort).snap = s.snap := rfl
@[simp] theorem State.abort_mem : (s.abort).mem = s.mem := rfl
@[simp] theorem State.abort_program : (s.abort).program = s.program := rfl
@[simp] theorem State.abort_position : (s.abort).position = s.position := rfl
@[simp] theorem State.abort_schedule : (s.abort).schedule = s.schedule := rfl
@[simp] theorem State.abort_replies : (s.abort).replies = s.replies := rfl
@[simp] theorem State.abort_devices : (s.abort).devices = s.devices := rfl
@[simp] theorem State.abort_draws : (s.abort).draws = s.draws := rfl

/-! settle -/

@[simp] theorem State.settle_args (x : Sink) : (s.settle x).args = s.args := rfl
@[simp] theorem State.settle_busy (x : Sink) : (s.settle x).busy = false := rfl
@[simp] theorem State.settle_done (x : Sink) : (s.settle x).done = true := rfl
@[simp] theorem State.settle_ovr (x : Sink) : (s.settle x).ovr = s.ovr := rfl
@[simp] theorem State.settle_err (x : Sink) : (s.settle x).err = .none := rfl
@[simp] theorem State.settle_errInfo (x : Sink) : (s.settle x).errInfo = 0#32 := rfl
@[simp] theorem State.settle_res0 (x : Sink) : (s.settle x).res0 = BitVec.ofNat 32 x.session.count.toNat := rfl
@[simp] theorem State.settle_session (x : Sink) : (s.settle x).session = x.session := rfl
@[simp] theorem State.settle_cmdLatch (x : Sink) : (s.settle x).cmdLatch = s.cmdLatch := rfl
@[simp] theorem State.settle_snap (x : Sink) : (s.settle x).snap = s.snap := rfl
@[simp] theorem State.settle_mem (x : Sink) : (s.settle x).mem = x.mem := rfl
@[simp] theorem State.settle_program (x : Sink) : (s.settle x).program = s.program := rfl
@[simp] theorem State.settle_position (x : Sink) : (s.settle x).position = s.position := rfl
@[simp] theorem State.settle_schedule (x : Sink) : (s.settle x).schedule = s.schedule := rfl
@[simp] theorem State.settle_replies (x : Sink) : (s.settle x).replies = s.replies := rfl
@[simp] theorem State.settle_devices (x : Sink) : (s.settle x).devices = s.devices := rfl
@[simp] theorem State.settle_draws (x : Sink) : (s.settle x).draws = s.draws := rfl

/-! reply -/

@[simp] theorem State.reply_args (r : HostReply) : (s.reply r).args = s.args := rfl
@[simp] theorem State.reply_busy (r : HostReply) : (s.reply r).busy = s.busy := rfl
@[simp] theorem State.reply_done (r : HostReply) : (s.reply r).done = s.done := rfl
@[simp] theorem State.reply_ovr (r : HostReply) : (s.reply r).ovr = s.ovr := rfl
@[simp] theorem State.reply_err (r : HostReply) : (s.reply r).err = s.err := rfl
@[simp] theorem State.reply_errInfo (r : HostReply) : (s.reply r).errInfo = s.errInfo := rfl
@[simp] theorem State.reply_res0 (r : HostReply) : (s.reply r).res0 = s.res0 := rfl
@[simp] theorem State.reply_session (r : HostReply) : (s.reply r).session = s.session := rfl
@[simp] theorem State.reply_cmdLatch (r : HostReply) : (s.reply r).cmdLatch = s.cmdLatch := rfl
@[simp] theorem State.reply_snap (r : HostReply) : (s.reply r).snap = s.snap := rfl
@[simp] theorem State.reply_mem (r : HostReply) : (s.reply r).mem = s.mem := rfl
@[simp] theorem State.reply_program (r : HostReply) : (s.reply r).program = s.program := rfl
@[simp] theorem State.reply_position (r : HostReply) : (s.reply r).position = s.position := rfl
@[simp] theorem State.reply_schedule (r : HostReply) : (s.reply r).schedule = s.schedule := rfl
@[simp] theorem State.reply_replies (r : HostReply) : (s.reply r).replies = r :: s.replies := rfl
@[simp] theorem State.reply_devices (r : HostReply) : (s.reply r).devices = s.devices := rfl
@[simp] theorem State.reply_draws (r : HostReply) : (s.reply r).draws = s.draws := rfl

/-! ackStatus -/

@[simp] theorem State.ackStatus_args (v : Word) : (s.ackStatus v).args = s.args := rfl
@[simp] theorem State.ackStatus_busy (v : Word) : (s.ackStatus v).busy = s.busy := rfl
@[simp] theorem State.ackStatus_done (v : Word) : (s.ackStatus v).done = (s.done && !v.getLsbD 1) := rfl
@[simp] theorem State.ackStatus_ovr (v : Word) : (s.ackStatus v).ovr = (s.ovr && !v.getLsbD 3) := rfl
@[simp] theorem State.ackStatus_err (v : Word) : (s.ackStatus v).err = s.err := rfl
@[simp] theorem State.ackStatus_errInfo (v : Word) : (s.ackStatus v).errInfo = s.errInfo := rfl
@[simp] theorem State.ackStatus_res0 (v : Word) : (s.ackStatus v).res0 = s.res0 := rfl
@[simp] theorem State.ackStatus_session (v : Word) : (s.ackStatus v).session = s.session := rfl
@[simp] theorem State.ackStatus_cmdLatch (v : Word) : (s.ackStatus v).cmdLatch = s.cmdLatch := rfl
@[simp] theorem State.ackStatus_snap (v : Word) : (s.ackStatus v).snap = s.snap := rfl
@[simp] theorem State.ackStatus_mem (v : Word) : (s.ackStatus v).mem = s.mem := rfl
@[simp] theorem State.ackStatus_program (v : Word) : (s.ackStatus v).program = s.program := rfl
@[simp] theorem State.ackStatus_position (v : Word) : (s.ackStatus v).position = s.position := rfl
@[simp] theorem State.ackStatus_schedule (v : Word) : (s.ackStatus v).schedule = s.schedule := rfl
@[simp] theorem State.ackStatus_replies (v : Word) : (s.ackStatus v).replies = s.replies := rfl
@[simp] theorem State.ackStatus_devices (v : Word) : (s.ackStatus v).devices = s.devices := rfl
@[simp] theorem State.ackStatus_draws (v : Word) : (s.ackStatus v).draws = s.draws := rfl

/-! takeTurn -/

@[simp] theorem State.takeTurn_args : (s.takeTurn).args = s.args := rfl
@[simp] theorem State.takeTurn_busy : (s.takeTurn).busy = s.busy := rfl
@[simp] theorem State.takeTurn_done : (s.takeTurn).done = s.done := rfl
@[simp] theorem State.takeTurn_ovr : (s.takeTurn).ovr = s.ovr := rfl
@[simp] theorem State.takeTurn_err : (s.takeTurn).err = s.err := rfl
@[simp] theorem State.takeTurn_errInfo : (s.takeTurn).errInfo = s.errInfo := rfl
@[simp] theorem State.takeTurn_res0 : (s.takeTurn).res0 = s.res0 := rfl
@[simp] theorem State.takeTurn_session : (s.takeTurn).session = s.session := rfl
@[simp] theorem State.takeTurn_cmdLatch : (s.takeTurn).cmdLatch = s.cmdLatch := rfl
@[simp] theorem State.takeTurn_snap : (s.takeTurn).snap = s.snap := rfl
@[simp] theorem State.takeTurn_mem : (s.takeTurn).mem = s.mem := rfl
@[simp] theorem State.takeTurn_program : (s.takeTurn).program = s.program := rfl
@[simp] theorem State.takeTurn_position : (s.takeTurn).position = s.position := rfl
@[simp] theorem State.takeTurn_schedule : (s.takeTurn).schedule = s.schedule.tail := rfl
@[simp] theorem State.takeTurn_replies : (s.takeTurn).replies = s.replies := rfl
@[simp] theorem State.takeTurn_devices : (s.takeTurn).devices = s.devices := rfl
@[simp] theorem State.takeTurn_draws : (s.takeTurn).draws = s.draws := rfl

/-! platformReset -/

@[simp] theorem State.platformReset_args : (s.platformReset).args = State.reset.args := rfl
@[simp] theorem State.platformReset_busy : (s.platformReset).busy = false := rfl
@[simp] theorem State.platformReset_done : (s.platformReset).done = false := rfl
@[simp] theorem State.platformReset_ovr : (s.platformReset).ovr = false := rfl
@[simp] theorem State.platformReset_err : (s.platformReset).err = .none := rfl
@[simp] theorem State.platformReset_errInfo : (s.platformReset).errInfo = 0#32 := rfl
@[simp] theorem State.platformReset_res0 : (s.platformReset).res0 = 0#32 := rfl
@[simp] theorem State.platformReset_session : (s.platformReset).session = Session.reset := rfl
@[simp] theorem State.platformReset_cmdLatch : (s.platformReset).cmdLatch = 0#32 := rfl
@[simp] theorem State.platformReset_snap : (s.platformReset).snap = State.reset.snap := rfl
@[simp] theorem State.platformReset_program : (s.platformReset).program = s.program := rfl
@[simp] theorem State.platformReset_position : (s.platformReset).position = s.position := rfl
@[simp] theorem State.platformReset_schedule : (s.platformReset).schedule = s.schedule := rfl
@[simp] theorem State.platformReset_replies : (s.platformReset).replies = s.replies := rfl
@[simp] theorem State.platformReset_devices : (s.platformReset).devices = s.devices := rfl
@[simp] theorem State.platformReset_mem : (s.platformReset).mem = (s.drawAll (s.running abandonedRegions)).mem := rfl
@[simp] theorem State.platformReset_draws : (s.platformReset).draws = (s.drawAll (s.running abandonedRegions)).draws := rfl

end Sys2Proof.Machine
end

