-- ==== Sys2Proof/Laws/Ops.lean ====
section
/-! SUPPORT. What each shared operation can do, said once: checks, raising, completing, drawing, and the invariant. -/

namespace Sys2Proof.Machine

/-! Checks -/

@[simp] theorem check_false (code : ErrCode) (info : Nat) : check false code info = none := rfl
@[simp] theorem check_true (code : ErrCode) (info : Nat) : check true code info = some ⟨code, info⟩ := rfl

theorem check_eq_none (bad : Bool) (code : ErrCode) (info : Nat) : check bad code info = none ↔ bad = false := by
  cases bad <;> simp

@[simp] theorem firstFailure_nil : firstFailure [] = none := rfl
@[simp] theorem firstFailure_none (cs : List (Option Raise)) : firstFailure (none :: cs) = firstFailure cs := rfl
@[simp] theorem firstFailure_some (r : Raise) (cs : List (Option Raise)) : firstFailure (some r :: cs) = some r := rfl

/-- No failure is reported exactly when no check fails. -/
theorem firstFailure_eq_none (cs : List (Option Raise)) : firstFailure cs = none ↔ ∀ c ∈ cs, c = none := by
  induction cs with
  | nil => simp
  | cons c cs ih => cases c <;> simp [ih]

/-- A reported failure is one of the checks. -/
theorem mem_of_firstFailure (cs : List (Option Raise)) (r : Raise) (h : firstFailure cs = some r) : some r ∈ cs := by
  induction cs with
  | nil => simp at h
  | cons c cs ih => cases c <;> simp_all

/-! Completion -/

theorem completed_raise (s : State) (r : Raise) : Completed s (s.raise r) :=
  ⟨rfl, rfl, rfl, rfl, rfl, rfl, rfl, rfl, rfl, rfl, rfl⟩

theorem completed_succeed (s : State) (v : Nat) : Completed s (s.succeed v) :=
  ⟨rfl, rfl, rfl, rfl, rfl, rfl, rfl, rfl, rfl, rfl, rfl⟩

theorem completed_deliver (s : State) (d v : Nat) (vs : List Word) : Completed s (s.deliver d vs v) :=
  ⟨rfl, rfl, rfl, rfl, rfl, rfl, rfl, rfl, rfl, rfl, rfl⟩

theorem completed_settle (s : State) (x : Sink) : Completed s (s.settle x) :=
  ⟨rfl, rfl, rfl, rfl, rfl, rfl, rfl, rfl, rfl, rfl, rfl⟩

theorem completed_abort_raise (s : State) (r : Raise) : Completed s (s.abort.raise r) :=
  ⟨rfl, rfl, rfl, rfl, rfl, rfl, rfl, rfl, rfl, rfl, rfl⟩

theorem completed_draw_raise (s : State) (d : Region) (r : Raise) : Completed s ((s.draw d).raise r) :=
  ⟨rfl, rfl, rfl, rfl, rfl, rfl, rfl, rfl, rfl, rfl, rfl⟩

/-- Raising from a command with a destination is one of two things (60_exceptions R203, R204). -/
theorem raiseFrom_cases (s : State) (d : Region) (r : Raise) :
    (r.code.spoilsDestination = true ∧ s.raiseFrom d r = (s.draw d).raise r) ∨
      (r.code.spoilsDestination = false ∧ s.raiseFrom d r = s.raise r) := by
  cases h : r.code.spoilsDestination <;> simp [State.raiseFrom, h]

theorem completed_raiseFrom (s : State) (d : Region) (r : Raise) : Completed s (s.raiseFrom d r) := by
  rcases raiseFrom_cases s d r with ⟨-, h⟩ | ⟨-, h⟩ <;> rw [h]
  · exact completed_draw_raise s d r
  · exact completed_raise s r

theorem spoilsDestination_iff (c : ErrCode) : c.spoilsDestination = true ↔ c = .overflow ∨ c = .floatRange := by
  cases c <;> simp [ErrCode.spoilsDestination]

theorem number_eq_zero (c : ErrCode) : c.number = 0#8 ↔ c = .none := by cases c <;> decide

/-- An operand register is a 32-bit unsigned integer (30_encoding R72). -/
theorem opnd_lt (s : State) (i : Fin 16) : s.opnd i < 2 ^ 32 := (s.snap[i]).isLt

/-! The parts of the invariant -/

theorem regsWf_raise (s : State) (r : Raise) (h : r.code ≠ .none) : (s.raise r).regsWf :=
  ⟨by simp, by simp, fun hn => absurd hn h⟩

theorem regsWf_succeed (s : State) (v : Nat) : (s.succeed v).regsWf := ⟨by simp, by simp, by simp⟩

theorem regsWf_deliver (s : State) (d v : Nat) (vs : List Word) : (s.deliver d vs v).regsWf :=
  regsWf_succeed _ _

theorem regsWf_settle (s : State) (x : Sink) : (s.settle x).regsWf := regsWf_succeed _ _

theorem regsWf_accept (s : State) (w : Word) : (s.accept w).regsWf := ⟨by simp, by simp, by simp⟩

theorem Session.wf_reset : Session.reset.wf := by
  simp [Session.wf, Session.reset, Session.bytesNeeded, Session.bits, ceil8]

/-- Drawing the bytes of regions keeps the canonical form. -/
theorem drawAll_wf (rs : List Region) : ∀ s : State, s.mem.wf → (s.drawAll rs).mem.wf := by
  induction rs with
  | nil => intro s h; exact h
  | cons r rs ih => intro s h; exact ih _ (Memory.wf_drawRegion _ _ _ h)

/-- Drawing regions changes their data bytes only. -/
theorem drawAll_read (rs : List Region) : ∀ (s : State) (a : Nat), s.mem.wf →
    covers rs a = false → (s.drawAll rs).mem.read a = s.mem.read a := by
  induction rs with
  | nil => intro s a _ _; rfl
  | cons r rs ih =>
    intro s a h ha
    simp only [covers, List.any_cons, Bool.or_eq_false_iff] at ha
    rw [State.drawAll, ih _ a (Memory.wf_drawRegion _ _ _ h) ha.2,
      State.draw_mem, Memory.read_drawRegion _ _ _ _ h, if_neg (by simp [ha.1])]

end Sys2Proof.Machine
end

