-- ==== Sys2Proof/Laws/BitWriter.lean ====
section
/-! SUPPORT. What appending bits and closing can do to a session and its memory (41_bitwriter R122, R131). -/

namespace Sys2Proof.Machine

theorem Session.nacc_lt (b : Session) : b.nacc.toNat < 8 := b.nacc.isLt

theorem Session.bits_div (b : Session) : b.bits / 8 = b.count.toNat := by
  have := b.nacc_lt
  simp only [Session.bits]; omega

theorem Session.bits_mod (b : Session) : b.bits % 8 = b.nacc.toNat := by
  have := b.nacc_lt
  simp only [Session.bits]; omega

/-- The partial byte holds NACC bits (10_state R33). -/
def Session.accFits (b : Session) : Prop := b.acc.toNat < 2 ^ b.nacc.toNat

/-- Everything one appended bit does to the session and to memory. -/
theorem Sink.appendBit_cases (x : Sink) (bit : Bool) :
    (x.session.nacc.toNat = 7 ∧
      x.appendBit bit =
        { session := { x.session with count := x.session.count + 1#32, acc := 0#7, nacc := 0#3 },
          mem := x.mem.write x.session.cursor (BitVec.ofNat 8 (2 * x.session.acc.toNat + bit.toNat)) }) ∨
    (x.session.nacc.toNat < 7 ∧
      x.appendBit bit =
        { x with session :=
          { x.session with
            acc := BitVec.ofNat 7 (2 * x.session.acc.toNat + bit.toNat),
            nacc := BitVec.ofNat 3 (x.session.nacc.toNat + 1) } }) := by
  have := x.session.nacc_lt
  by_cases h : x.session.nacc.toNat = 7
  · exact .inl ⟨h, by simp [Sink.appendBit, h]⟩
  · exact .inr ⟨by omega, by rw [Sink.appendBit]; simp only; rw [if_neg (by omega)]⟩

theorem Sink.appendBit_fixed (x : Sink) (bit : Bool) :
    (x.appendBit bit).session.active = x.session.active ∧ (x.appendBit bit).session.base = x.session.base ∧
      (x.appendBit bit).session.cap = x.session.cap := by
  rcases Sink.appendBit_cases x bit with ⟨-, h⟩ | ⟨-, h⟩ <;> rw [h] <;> exact ⟨rfl, rfl, rfl⟩

theorem Sink.appendBit_bits (x : Sink) (bit : Bool) (hc : (x.session.bits + 1) / 8 < 2 ^ 32) :
    (x.appendBit bit).session.bits = x.session.bits + 1 := by
  rcases Sink.appendBit_cases x bit with ⟨hn, h⟩ | ⟨hn, h⟩ <;> rw [h] <;> simp only [Session.bits] at hc ⊢
  · simp only [BitVec.toNat_add, BitVec.toNat_ofNat]; omega
  · simp only [BitVec.toNat_ofNat]; omega

theorem Sink.appendBit_accFits (x : Sink) (bit : Bool) (h : x.session.accFits) : (x.appendBit bit).session.accFits := by
  have hb := bit.toNat_le
  rcases Sink.appendBit_cases x bit with ⟨hn, e⟩ | ⟨hn, e⟩ <;> rw [e] <;> simp only [Session.accFits] at h ⊢
  · simp
  · have h7 : x.session.nacc.toNat + 1 < 2 ^ 3 := by omega
    have hle : 2 ^ (x.session.nacc.toNat + 1) ≤ 2 ^ 7 := Nat.pow_le_pow_right (by omega) (by omega)
    rw [BitVec.toNat_ofNat, BitVec.toNat_ofNat, Nat.mod_eq_of_lt h7]
    rw [Nat.pow_succ] at hle ⊢
    rw [Nat.mod_eq_of_lt (by omega)]
    omega

theorem Sink.appendBit_wf (x : Sink) (bit : Bool) (h : x.mem.wf)
    (hf : x.session.base.toNat + (x.session.bits + 1) / 8 ≤ Config.memSize) : (x.appendBit bit).mem.wf := by
  rcases Sink.appendBit_cases x bit with ⟨hn, e⟩ | ⟨hn, e⟩ <;> rw [e]
  · refine Memory.wf_write _ _ _ ?_ h
    simp only [Session.bits, Session.cursor] at hf ⊢; omega
  · exact h

theorem Sink.appendBit_read (x : Sink) (bit : Bool) (h : x.mem.wf) (a : Nat)
    (ha : ¬ (x.session.cursor ≤ a ∧ a < x.session.base.toNat + (x.session.bits + 1) / 8)) :
    (x.appendBit bit).mem.read a = x.mem.read a := by
  rcases Sink.appendBit_cases x bit with ⟨hn, e⟩ | ⟨hn, e⟩ <;> rw [e]
  rw [Memory.read_write _ _ _ _ h, if_neg]
  simp only [Session.bits, Session.cursor] at ha ⊢; omega

/-- Everything `append(v, w)` keeps, and how far it moves the cursor (41_bitwriter R122). -/
theorem Sink.append_fixed (v : Word) (w : Nat) : ∀ x : Sink,
    (x.append v w).session.active = x.session.active ∧ (x.append v w).session.base = x.session.base ∧
      (x.append v w).session.cap = x.session.cap := by
  induction w with
  | zero => intro x; exact ⟨rfl, rfl, rfl⟩
  | succ w ih =>
    intro x
    obtain ⟨h1, h2, h3⟩ := ih (x.appendBit (v.getLsbD w))
    obtain ⟨g1, g2, g3⟩ := Sink.appendBit_fixed x (v.getLsbD w)
    exact ⟨h1.trans g1, h2.trans g2, h3.trans g3⟩

theorem Sink.append_bits (v : Word) (w : Nat) : ∀ x : Sink, (x.session.bits + w) / 8 < 2 ^ 32 →
    (x.append v w).session.bits = x.session.bits + w := by
  induction w with
  | zero => intro x _; rfl
  | succ w ih =>
    intro x hc
    have h1 := Sink.appendBit_bits x (v.getLsbD w) (by omega)
    rw [Sink.append, ih _ (by rw [h1]; omega), h1]; omega

theorem Sink.append_accFits (v : Word) (w : Nat) : ∀ x : Sink, x.session.accFits → (x.append v w).session.accFits := by
  induction w with
  | zero => intro x h; exact h
  | succ w ih => intro x h; exact ih _ (Sink.appendBit_accFits x _ h)

theorem memSize_eq : Config.memSize = 2 ^ 32 := rfl

/-- Memory stays canonical, and only bytes from the old cursor up to the new one may change. -/
theorem Sink.append_mem (v : Word) (w : Nat) : ∀ x : Sink, x.mem.wf → (x.session.bits + w) / 8 < 2 ^ 32 →
    x.session.base.toNat + (x.session.bits + w) / 8 ≤ Config.memSize →
    (x.append v w).mem.wf ∧
      ∀ a, ¬ (x.session.cursor ≤ a ∧ a < x.session.base.toNat + (x.session.bits + w) / 8) →
        (x.append v w).mem.read a = x.mem.read a := by
  induction w with
  | zero => intro x h _ _; exact ⟨h, fun _ _ => rfl⟩
  | succ w ih =>
    intro x h hc hf
    have hbits := Sink.appendBit_bits x (v.getLsbD w) (by omega)
    have hbase := (Sink.appendBit_fixed x (v.getLsbD w)).2.1
    have hdiv := x.session.bits_div
    have hdiv' := (x.appendBit (v.getLsbD w)).session.bits_div
    obtain ⟨h1, h2⟩ := ih (x.appendBit (v.getLsbD w)) (Sink.appendBit_wf x _ h (by omega)) (by rw [hbits]; omega)
      (by rw [hbits, hbase]; omega)
    refine ⟨h1, fun a ha => ?_⟩
    have hcur : (x.appendBit (v.getLsbD w)).session.cursor = x.session.base.toNat + (x.session.bits + 1) / 8 := by
      rw [Session.cursor, hbase, ← hdiv', hbits]
    have hcur0 : x.session.cursor = x.session.base.toNat + x.session.bits / 8 := by rw [Session.cursor, hdiv]
    rw [Sink.append, h2 a (by rw [hcur, hbits, hbase]; omega), Sink.appendBit_read x _ h a (by omega)]

/-- Everything `appendAll` keeps, and how far it moves the cursor (41_bitwriter R127). -/
theorem Sink.appendAll_fixed (w : Nat) (vs : List Word) : ∀ x : Sink,
    (x.appendAll w vs).session.active = x.session.active ∧ (x.appendAll w vs).session.base = x.session.base ∧
      (x.appendAll w vs).session.cap = x.session.cap := by
  induction vs with
  | nil => intro x; exact ⟨rfl, rfl, rfl⟩
  | cons v vs ih =>
    intro x
    obtain ⟨h1, h2, h3⟩ := ih (x.append v w)
    obtain ⟨g1, g2, g3⟩ := Sink.append_fixed v w x
    exact ⟨h1.trans g1, h2.trans g2, h3.trans g3⟩

theorem Sink.appendAll_bits (w : Nat) (vs : List Word) : ∀ x : Sink, (x.session.bits + w * vs.length) / 8 < 2 ^ 32 →
    (x.appendAll w vs).session.bits = x.session.bits + w * vs.length := by
  induction vs with
  | nil => intro x _; simp [Sink.appendAll]
  | cons v vs ih =>
    intro x hc
    rw [List.length_cons, Nat.mul_succ] at hc ⊢
    have h1 := Sink.append_bits v w x (by omega)
    rw [Sink.appendAll, ih _ (by rw [h1]; omega), h1]; omega

theorem Sink.appendAll_accFits (w : Nat) (vs : List Word) : ∀ x : Sink, x.session.accFits →
    (x.appendAll w vs).session.accFits := by
  induction vs with
  | nil => intro x h; exact h
  | cons v vs ih => intro x h; exact ih _ (Sink.append_accFits v w x h)

theorem Sink.appendAll_mem (w : Nat) (vs : List Word) : ∀ x : Sink, x.mem.wf →
    (x.session.bits + w * vs.length) / 8 < 2 ^ 32 →
    x.session.base.toNat + (x.session.bits + w * vs.length) / 8 ≤ Config.memSize →
    (x.appendAll w vs).mem.wf ∧
      ∀ a, ¬ (x.session.cursor ≤ a ∧ a < x.session.base.toNat + (x.session.bits + w * vs.length) / 8) →
        (x.appendAll w vs).mem.read a = x.mem.read a := by
  induction vs with
  | nil => intro x h _ _; exact ⟨h, fun _ _ => rfl⟩
  | cons v vs ih =>
    intro x h hc hf
    rw [List.length_cons, Nat.mul_succ] at hc hf ⊢
    have hbits := Sink.append_bits v w x (by omega)
    have hbase := (Sink.append_fixed v w x).2.1
    have hdiv := x.session.bits_div
    have hdiv' := (x.append v w).session.bits_div
    obtain ⟨g1, g2⟩ := Sink.append_mem v w x h (by omega) (by omega)
    obtain ⟨h1, h2⟩ := ih (x.append v w) g1 (by rw [hbits]; omega) (by rw [hbits, hbase]; omega)
    refine ⟨h1, fun a ha => ?_⟩
    have hcur : (x.append v w).session.cursor = x.session.base.toNat + (x.session.bits + w) / 8 := by
      rw [Session.cursor, hbase, ← hdiv', hbits]
    have hcur0 : x.session.cursor = x.session.base.toNat + x.session.bits / 8 := by rw [Session.cursor, hdiv]
    rw [Sink.appendAll, h2 a (by rw [hcur, hbits, hbase]; omega), g2 a (by omega)]

/-- Everything closing does (41_bitwriter R131). -/
theorem Sink.close_cases (x : Sink) :
    (x.session.nacc = 0#3 ∧
      x.close = { x with session := { x.session with active := false, nacc := 0#3, acc := 0#7 } }) ∨
    (x.session.nacc ≠ 0#3 ∧
      x.close =
        { session := { x.session with active := false, count := x.session.count + 1#32, nacc := 0#3, acc := 0#7 },
          mem := x.mem.write x.session.cursor
            (BitVec.ofNat 8 (x.session.acc.toNat * 2 ^ (8 - x.session.nacc.toNat))) }) := by
  by_cases h : x.session.nacc = 0#3
  · exact .inl ⟨h, by simp [Sink.close, h]⟩
  · exact .inr ⟨h, by simp [Sink.close, h]⟩

/-- In a well-formed session, bits that fit the capacity are flushed inside the data memory. -/
theorem Session.flushFits_of_wf (b : Session) (n : Nat) (h : b.wf) (hn : b.bytesNeeded n ≤ b.cap.toNat) :
    b.flushFits n = true := by
  have := h.1
  simp only [Session.flushFits, decide_eq_true_eq]; omega

theorem Session.bytesNeeded_zero (b : Session) : b.bytesNeeded 0 = ceil8 b.bits := rfl

end Sys2Proof.Machine
end

