-- ==== Sys2Proof/Laws/Commands.lean ====
section
/-! SUPPORT. One lemma per command that says once everything its completion can do. -/

namespace Sys2Proof.Machine

theorem execBrRead_cases (s : State) :
    (∃ r, readChecks s.readOps = some r ∧ exec .brRead s = .next (s.raise r)) ∨
    (readChecks s.readOps = none ∧
      exec .brRead s =
        .next (s.deliver s.readOps.dst ((readValues s.mem s.readOps).map (BitVec.ofNat 32)) s.readOps.footprint)) := by
  cases h : readChecks s.readOps with
  | some r => exact .inl ⟨r, rfl, by simp [exec, execBrRead, h]⟩
  | none => exact .inr ⟨rfl, by simp [exec, execBrRead, h]⟩

theorem execBrReadf_cases (s : State) :
    (∃ r, readChecks s.readOps = some r ∧ exec .brReadf s = .next (s.raise r)) ∨
    (readChecks s.readOps = none ∧ ∃ r, floatCheck (readValues s.mem s.readOps) = some r ∧
      exec .brReadf s = .next (s.raiseFrom s.readOps.dest r)) ∨
    (readChecks s.readOps = none ∧ floatCheck (readValues s.mem s.readOps) = none ∧
      exec .brReadf s =
        .next (s.deliver s.readOps.dst ((readValues s.mem s.readOps).map f32) s.readOps.footprint)) := by
  cases h : readChecks s.readOps with
  | some r => exact .inl ⟨r, rfl, by simp [exec, execBrReadf, h]⟩
  | none =>
    cases g : floatCheck (readValues s.mem s.readOps) with
    | some r => exact .inr (.inl ⟨rfl, r, rfl, by simp [exec, execBrReadf, h, g]⟩)
    | none => exact .inr (.inr ⟨rfl, rfl, by simp [exec, execBrReadf, h, g]⟩)

theorem execBwOpen_cases (s : State) :
    (∃ r, openChecks s.session s.openOps = some r ∧ exec .bwOpen s = .next (s.raise r)) ∨
    (openChecks s.session s.openOps = none ∧
      exec .bwOpen s =
        .next (State.succeed 0 { s with session := Session.opened s.openOps.base s.openOps.cap })) := by
  cases h : openChecks s.session s.openOps with
  | some r => exact .inl ⟨r, rfl, by simp [exec, execBwOpen, h]⟩
  | none => exact .inr ⟨rfl, by simp [exec, execBwOpen, h]⟩

theorem execBwWrite_cases (s : State) :
    (s.session.active = false ∧ exec .bwWrite s = .next (s.raise ⟨.session, 0⟩)) ∨
    (s.session.active = true ∧ ∃ r, writeChecks s.session (s.opnd 1) = some r ∧
      exec .bwWrite s = .next (s.abort.raise r)) ∨
    (s.session.active = true ∧ writeChecks s.session (s.opnd 1) = none ∧
      s.session.flushFits (s.opnd 1) = true ∧
      exec .bwWrite s = .next (s.settle (s.sink.append s.snap[0] (s.opnd 1)))) ∨
    (s.session.active = true ∧ writeChecks s.session (s.opnd 1) = none ∧
      s.session.flushFits (s.opnd 1) = false ∧ exec .bwWrite s = .fault .flushOutsideMemory) := by
  cases ha : s.session.active with
  | false => exact .inl ⟨rfl, by simp [exec, execBwWrite, sessionCheck, ha]⟩
  | true =>
    refine .inr ?_
    cases h : writeChecks s.session (s.opnd 1) with
    | some r => exact .inl ⟨rfl, r, rfl, by simp [exec, execBwWrite, sessionCheck, ha, h]⟩
    | none =>
      refine .inr ?_
      cases hf : s.session.flushFits (s.opnd 1) with
      | true => exact .inl ⟨rfl, rfl, rfl, by simp [exec, execBwWrite, sessionCheck, ha, h, hf]⟩
      | false => exact .inr ⟨rfl, rfl, rfl, by simp [exec, execBwWrite, sessionCheck, ha, h, hf]⟩

theorem execBwWriteb_cases (s : State) :
    (s.session.active = false ∧ exec .bwWriteb s = .next (s.raise ⟨.session, 0⟩)) ∨
    (s.session.active = true ∧ ∃ r, batchChecks s.session s.batchOps = some r ∧
      exec .bwWriteb s = .next (s.abort.raise r)) ∨
    (s.session.active = true ∧ batchChecks s.session s.batchOps = none ∧
      s.session.flushFits (s.batchOps.w * s.batchOps.cnt) = true ∧
      exec .bwWriteb s =
        .next (s.settle (s.sink.appendAll s.batchOps.w (s.mem.loadWords s.batchOps.src s.batchOps.cnt)))) ∨
    (s.session.active = true ∧ batchChecks s.session s.batchOps = none ∧
      s.session.flushFits (s.batchOps.w * s.batchOps.cnt) = false ∧
      exec .bwWriteb s = .fault .flushOutsideMemory) := by
  cases ha : s.session.active with
  | false => exact .inl ⟨rfl, by simp [exec, execBwWriteb, sessionCheck, ha]⟩
  | true =>
    refine .inr ?_
    cases h : batchChecks s.session s.batchOps with
    | some r => exact .inl ⟨rfl, r, rfl, by simp [exec, execBwWriteb, sessionCheck, ha, h]⟩
    | none =>
      refine .inr ?_
      cases hf : s.session.flushFits (s.batchOps.w * s.batchOps.cnt) with
      | true => exact .inl ⟨rfl, rfl, rfl, by simp [exec, execBwWriteb, sessionCheck, ha, h, hf]⟩
      | false => exact .inr ⟨rfl, rfl, rfl, by simp [exec, execBwWriteb, sessionCheck, ha, h, hf]⟩

theorem execBwClose_cases (s : State) :
    (s.session.active = false ∧ exec .bwClose s = .next (s.raise ⟨.session, 0⟩)) ∨
    (s.session.active = true ∧ s.session.flushFits 0 = true ∧
      exec .bwClose s = .next (s.settle s.sink.close)) ∨
    (s.session.active = true ∧ s.session.flushFits 0 = false ∧
      exec .bwClose s = .fault .flushOutsideMemory) := by
  cases ha : s.session.active with
  | false => exact .inl ⟨rfl, by simp [exec, execBwClose, sessionCheck, ha]⟩
  | true =>
    refine .inr ?_
    cases hf : s.session.flushFits 0 with
    | true => exact .inl ⟨rfl, rfl, by simp [exec, execBwClose, sessionCheck, ha, hf]⟩
    | false => exact .inr ⟨rfl, rfl, by simp [exec, execBwClose, sessionCheck, ha, hf]⟩

/-- The shape GD.DECODE and SD.DECODE share: an operand error, an error of the decoding, or the field delivered. -/
def DecodesAs (s t : State) (checks : Option Raise) (result : Except Raise (List Slot)) : Prop :=
  (∃ r, checks = some r ∧ t = s.raise r) ∨
  (checks = none ∧ ∃ r, result = .error r ∧ t = s.raiseFrom s.groupOps.dest r) ∨
  (checks = none ∧ ∃ fs, result = .ok fs ∧ t = s.deliver s.groupOps.dst (fs.map Slot.word) s.groupOps.size)

theorem gdDecode_cases (mg : Nat) (s : State) :
    DecodesAs s (gdDecode mg s) (groupChecks mg s.groupOps)
      (gdCore s.groupOps s.mem s.groupOps.payload s.groupOps.size) := by
  unfold DecodesAs gdDecode
  cases h : groupChecks mg s.groupOps with
  | some r => exact .inl ⟨r, rfl, by simp [h]⟩
  | none =>
    cases g : gdCore s.groupOps s.mem s.groupOps.payload s.groupOps.size with
    | error r => exact .inr (.inl ⟨rfl, r, rfl, by simp [h, g]⟩)
    | ok fs => exact .inr (.inr ⟨rfl, fs, rfl, by simp [h, g]⟩)

theorem sdDecode_cases (mg : Nat) (s : State) :
    DecodesAs s (sdDecode mg s) (diffChecks mg s.sdOrder s.sdEow s.groupOps)
      (diffCore s.groupOps s.sdOrder s.sdEow s.mem) := by
  unfold DecodesAs sdDecode
  cases h : diffChecks mg s.sdOrder s.sdEow s.groupOps with
  | some r => exact .inl ⟨r, rfl, by simp [h]⟩
  | none =>
    cases g : diffCore s.groupOps s.sdOrder s.sdEow s.mem with
    | error r => exact .inr (.inl ⟨rfl, r, rfl, by simp [h, g]⟩)
    | ok fs => exact .inr (.inr ⟨rfl, fs, rfl, by simp [h, g]⟩)

theorem execBmExpand_cases (s : State) :
    (∃ r, expandChecks s.expandOps = some r ∧ exec .bmExpand s = .next (s.raise r)) ∨
    (expandChecks s.expandOps = none ∧
      ∃ r, bitmapCheck (setBits (bitmapBits s.mem s.expandOps.b s.expandOps.n)) s.expandOps.nc = some r ∧
        exec .bmExpand s = .next (s.raise r)) ∨
    (expandChecks s.expandOps = none ∧
      bitmapCheck (setBits (bitmapBits s.mem s.expandOps.b s.expandOps.n)) s.expandOps.nc = none ∧
      exec .bmExpand s =
        .next (s.deliver s.expandOps.d
          (scatter s.mem s.expandOps.c (bitmapBits s.mem s.expandOps.b s.expandOps.n) 0)
          (setBits (bitmapBits s.mem s.expandOps.b s.expandOps.n)))) := by
  cases h : expandChecks s.expandOps with
  | some r => exact .inl ⟨r, rfl, by simp [exec, execBmExpand, h]⟩
  | none =>
    cases g : bitmapCheck (setBits (bitmapBits s.mem s.expandOps.b s.expandOps.n)) s.expandOps.nc with
    | some r => exact .inr (.inl ⟨rfl, r, rfl, by simp [exec, execBmExpand, h, g]⟩)
    | none => exact .inr (.inr ⟨rfl, rfl, by simp [exec, execBmExpand, h, g]⟩)

theorem scatter_length (m : Memory) (c : Nat) (bs : List Bool) : ∀ j, (scatter m c bs j).length = bs.length := by
  induction bs with
  | nil => intro j; rfl
  | cons b bs ih => intro j; cases b <;> simp [scatter, ih]

theorem extract_length (gs : List Group) (m : Memory) (base mvm nbits : Nat) :
    (extract gs m base mvm nbits).length = (gs.map (fun g => g.length)).sum := by
  simp only [extract, List.length_flatMap, Group.slots, List.length_map, List.length_range]

theorem layout_lengths (h : Nat) (ds : List Descriptor) : ∀ i p,
    (layout h ds i p).map (fun g => g.length) = ds.map (fun d => d.length) := by
  induction ds with
  | nil => intro i p; rfl
  | cons d ds ih => intro i p; simp [layout, ih]

theorem layout_length (h : Nat) (ds : List Descriptor) (i p : Nat) : (layout h ds i p).length = ds.length := by
  have := congrArg List.length (layout_lengths h ds i p)
  simpa using this

/-- The core's success: all its checks pass and the field has npnts slots below MISSING (42_group R148, R157). -/
theorem gdCore_ok (o : GroupOps) (m : Memory) (base size : Nat) (fs : List Slot) (h : gdCore o m base size = .ok fs) :
    coreChecks o size (o.descriptors m base) = none ∧
      fs = extract (layout o.headerBytes (o.descriptors m base) 0 0) m base o.mvm o.nbits ∧
      collisionCheck fs = none ∧ fs.length = o.npnts := by
  unfold gdCore at h
  simp only at h
  cases hc : coreChecks o size (o.descriptors m base) with
  | some r => simp [hc] at h
  | none =>
    rw [hc] at h
    simp only at h
    cases ho : collisionCheck (extract (layout o.headerBytes (o.descriptors m base) 0 0) m base o.mvm o.nbits) with
    | some r => simp [ho] at h
    | none =>
      rw [ho] at h
      simp only [Except.ok.injEq] at h
      subst h
      refine ⟨rfl, rfl, ho, ?_⟩
      rw [extract_length, layout_lengths]
      have := (firstFailure_eq_none _).1 hc (check (totalLength (o.descriptors m base) ≠ o.npnts) .badPacking
        (sat32 (totalLength (o.descriptors m base)))) (by simp)
      rw [check_eq_none] at this
      have := of_decide_eq_false this
      simpa [totalLength] using this

theorem sdInvert_length (order : Nat) (q : Seeds) (fs : List Slot) : ∀ (i : Nat) (r : Rolling) (gs : List Slot),
    sdInvert order q fs i r = .ok gs → gs.length = fs.length := by
  induction fs with
  | nil => intro i r gs h; simp only [sdInvert, Except.ok.injEq] at h; subst h; rfl
  | cons f fs ih =>
    intro i r gs h
    cases f with
    | miss =>
      simp only [sdInvert] at h
      cases g : sdInvert order q fs (i + 1) r with
      | error e => simp [g, Except.map] at h
      | ok l => simp only [g, Except.map, Except.ok.injEq] at h; subst h; simp [ih _ _ _ g]
    | val d =>
      simp only [sdInvert] at h
      split at h
      · simp at h
      · cases g : sdInvert order q fs (i + 1) (r.push (reconstruct order q r d)) with
        | error e => simp [g, Except.map] at h
        | ok l => simp only [g, Except.map, Except.ok.injEq] at h; subst h; simp [ih _ _ _ g]

theorem diffCore_ok_length (o : GroupOps) (order eow : Nat) (m : Memory) (fs : List Slot)
    (h : diffCore o order eow m = .ok fs) : fs.length = o.npnts := by
  unfold diffCore at h
  simp only at h
  cases g : gdCore o m (o.payload + (order + 1) * eow) (o.size - (order + 1) * eow) with
  | error r => simp [g] at h
  | ok l =>
    rw [g] at h
    rw [sdInvert_length _ _ _ _ _ _ h]
    exact (gdCore_ok _ _ _ _ _ g).2.2.2

end Sys2Proof.Machine
end

