-- ==== Sys2Proof/Laws/Checks.lean ====
section
/-! SUPPORT. When each command's checks all pass, and the memory bounds that follow. -/

namespace Sys2Proof.Machine

theorem readChecks_eq_none (o : ReadOps) :
    readChecks o = none ↔
      o.w ≤ 31 ∧ o.off ≤ 7 ∧ o.source.inBounds ∧ o.dest.inBounds ∧ o.source.apart o.dest := by
  simp [readChecks, firstFailure_eq_none, check_eq_none, Region.inBounds,
    Region.apart]

theorem openChecks_eq_none (b : Session) (o : OpenOps) :
    openChecks b o = none ↔ b.active = false ∧ (Region.mk o.base o.cap).inBounds := by
  simp [openChecks, firstFailure_eq_none, check_eq_none, Region.inBounds]

theorem writeChecks_eq_none (b : Session) (w : Nat) :
    writeChecks b w = none ↔ w ≤ 25 ∧ b.bytesNeeded w ≤ b.cap.toNat := by
  simp [writeChecks, firstFailure_eq_none, check_eq_none]

theorem batchChecks_eq_none (b : Session) (o : BatchOps) :
    batchChecks b o = none ↔
      o.w ≤ 25 ∧ o.source.inBounds ∧ o.source.apart b.target ∧ b.bytesNeeded (o.w * o.cnt) ≤ b.cap.toNat := by
  simp [batchChecks, firstFailure_eq_none, check_eq_none, Region.inBounds, Region.apart]

theorem groupChecks_eq_none (mg : Nat) (o : GroupOps) : groupChecks mg o = none ↔ o.Valid mg := by
  simp only [groupChecks, groupParamChecks, groupRegionChecks, firstFailure_eq_none, List.cons_append,
    List.nil_append, List.mem_cons, List.not_mem_nil, or_false, forall_eq_or_imp, forall_eq, check_eq_none,
    decide_eq_false_iff_not, GroupOps.Valid, Region.inBounds, Region.apart,
    Bool.not_eq_false', Bool.or_eq_true, decide_eq_true_eq]
  simp only [Config.rdMaxW]
  constructor <;>
    (intro h; obtain ⟨h1, h2, h3, h4, h5, h6, h7, h8⟩ := h
     refine ⟨?_, ?_, ?_, ?_, h5, ?_, ?_, h8⟩ <;> omega)

theorem diffChecks_eq_none (mg order eow : Nat) (o : GroupOps) :
    diffChecks mg order eow o = none ↔
      (order = 1 ∨ order = 2) ∧ (1 ≤ eow ∧ eow ≤ 4) ∧ o.Valid mg ∧ (order + 1) * eow ≤ o.size := by
  rw [← groupChecks_eq_none]
  simp only [diffChecks, groupChecks, firstFailure_eq_none, List.mem_append, List.mem_cons, List.not_mem_nil,
    or_false, or_imp, forall_and, forall_eq, check_eq_none, Bool.or_eq_false_iff, decide_eq_false_iff_not,
    Bool.not_eq_false', Bool.or_eq_true, decide_eq_true_eq]
  simp only [Config.eowMin, Config.eowMax]
  constructor
  · rintro ⟨⟨⟨⟨h1, h2, h3⟩, h4⟩, h5⟩, h6⟩
    exact ⟨h1, ⟨by omega, by omega⟩, ⟨h4, h5⟩, by omega⟩
  · rintro ⟨h1, ⟨h2, h3⟩, ⟨h4, h5⟩, h6⟩
    exact ⟨⟨⟨⟨h1, by omega, by omega⟩, h4⟩, h5⟩, by omega⟩

theorem expandChecks_eq_none (o : ExpandOps) :
    expandChecks o = none ↔
      o.compact.inBounds ∧ o.bitmap.inBounds ∧ o.dest.inBounds ∧ o.dest.apart o.compact ∧ o.dest.apart o.bitmap := by
  simp [expandChecks, firstFailure_eq_none, check_eq_none, Region.inBounds, Region.apart]

theorem read_dest_end (s : State) (h : readChecks s.readOps = none) :
    s.readOps.dst + 4 * s.readOps.n ≤ Config.memSize :=
  Region.end_le s.readOps.dest (opnd_lt s 4) ((readChecks_eq_none _).1 h).2.2.2.1

theorem group_dest_end (mg : Nat) (s : State) (h : s.groupOps.Valid mg) :
    s.groupOps.dst + 4 * s.groupOps.npnts ≤ Config.memSize :=
  Region.end_le s.groupOps.dest (opnd_lt s 2) h.2.2.2.2.2.2.2.2.1

theorem expand_dest_end (s : State) (h : expandChecks s.expandOps = none) :
    s.expandOps.d + 4 * s.expandOps.n ≤ Config.memSize :=
  Region.end_le s.expandOps.dest (opnd_lt s 4) ((expandChecks_eq_none _).1 h).2.2.1

@[simp] theorem readValues_length (m : Memory) (o : ReadOps) : (readValues m o).length = o.n := by simp [readValues]

@[simp] theorem bitmapBits_length (m : Memory) (b n : Nat) : (bitmapBits m b n).length = n := by simp [bitmapBits]

@[simp] theorem loadWords_length (m : Memory) (a n : Nat) : (m.loadWords a n).length = n := by
  simp [Memory.loadWords]

end Sys2Proof.Machine
end

