-- ==== Sys2Proof/Laws/Result.lean ====
section
/-! SUPPORT. What a completed command can be, said once for all commands: the inversion `exec_result`. -/

namespace Sys2Proof.Machine

theorem next_inj {s t : State} (h : (Host.Outcome.next s : Host.Outcome State Fault Refusal) = .next t) : s = t := by
  injection h

theorem check_some (b : Bool) (c : ErrCode) (n : Nat) (r : Raise) : check b c n = some r ↔ b = true ∧ r = ⟨c, n⟩ := by
  cases b <;> simp [check, eq_comm]

/-- An error after which memory is unchanged (60_exceptions R204). -/
def Raise.Plain (r : Raise) : Prop := r.code ≠ .none ∧ r.code.spoilsDestination = false

theorem plain_first (cs : List (Option Raise)) (r : Raise) (h : firstFailure cs = some r)
    (hc : ∀ c ∈ cs, ∀ r, c = some r → r.Plain) : r.Plain := hc _ (mem_of_firstFailure _ _ h) r rfl

theorem plain_check (b : Bool) (c : ErrCode) (n : Nat) (hc : c ≠ .none ∧ c.spoilsDestination = false) :
    ∀ r, check b c n = some r → r.Plain := by
  intro r h; rw [check_some] at h; rw [h.2]; exact hc

theorem readChecks_plain (o r) (h : readChecks o = some r) : r.Plain := by
  refine plain_first _ _ h ?_
  intro c hc
  simp only [List.mem_cons, List.not_mem_nil, or_false] at hc
  rcases hc with rfl | rfl | rfl | rfl | rfl <;> exact plain_check _ _ _ (by decide)

theorem openChecks_plain (b o r) (h : openChecks b o = some r) : r.Plain := by
  refine plain_first _ _ h ?_
  intro c hc
  simp only [List.mem_cons, List.not_mem_nil, or_false] at hc
  rcases hc with rfl | rfl <;> exact plain_check _ _ _ (by decide)

theorem writeChecks_plain (b o r) (h : writeChecks b o = some r) : r.Plain := by
  refine plain_first _ _ h ?_
  intro c hc
  simp only [List.mem_cons, List.not_mem_nil, or_false] at hc
  rcases hc with rfl | rfl <;> exact plain_check _ _ _ (by decide)

theorem batchChecks_plain (b o r) (h : batchChecks b o = some r) : r.Plain := by
  refine plain_first _ _ h ?_
  intro c hc
  simp only [List.mem_cons, List.not_mem_nil, or_false] at hc
  rcases hc with rfl | rfl | rfl | rfl <;> exact plain_check _ _ _ (by decide)

theorem expandChecks_plain (o r) (h : expandChecks o = some r) : r.Plain := by
  refine plain_first _ _ h ?_
  intro c hc
  simp only [List.mem_cons, List.not_mem_nil, or_false] at hc
  rcases hc with rfl | rfl | rfl | rfl | rfl <;> exact plain_check _ _ _ (by decide)

theorem groupParamRegion_plain (mg o) : ∀ c ∈ groupParamChecks mg o ++ groupRegionChecks o, ∀ r, c = some r → r.Plain := by
  intro c hc
  simp only [groupParamChecks, groupRegionChecks, List.cons_append, List.nil_append, List.mem_cons, List.not_mem_nil, or_false] at hc
  rcases hc with rfl | rfl | rfl | rfl | rfl | rfl | rfl | rfl | rfl | rfl <;> exact plain_check _ _ _ (by decide)

theorem groupChecks_plain (mg o r) (h : groupChecks mg o = some r) : r.Plain := plain_first _ _ h (groupParamRegion_plain mg o)

theorem diffChecks_plain (mg a b o r) (h : diffChecks mg a b o = some r) : r.Plain := by
  refine plain_first _ _ h ?_
  intro c hc
  simp only [List.mem_append, List.mem_cons, List.not_mem_nil, or_false] at hc
  rcases hc with (((rfl | rfl) | hc) | hc) | rfl
  · exact plain_check _ _ _ (by decide)
  · exact plain_check _ _ _ (by decide)
  · exact groupParamRegion_plain mg o c (by simp [hc])
  · exact groupParamRegion_plain mg o c (by simp [hc])
  · exact plain_check _ _ _ (by decide)

theorem coreChecks_plain (o sz ds r) (h : coreChecks o sz ds = some r) : r.Plain := by
  refine plain_first _ _ h ?_
  intro c hc
  simp only [List.mem_cons, List.not_mem_nil, or_false] at hc
  rcases hc with rfl | rfl | rfl | rfl
  · exact plain_check _ _ _ (by decide)
  · intro r hr
    simp only [Option.map_eq_some_iff] at hr
    obtain ⟨g, -, rfl⟩ := hr
    exact ⟨by simp, rfl⟩
  · exact plain_check _ _ _ (by decide)
  · exact plain_check _ _ _ (by decide)

theorem gdCore_err (o m b sz r) (h : gdCore o m b sz = .error r) : r.Plain ∨ r.code = .overflow := by
  unfold gdCore at h
  simp only at h
  cases hc : coreChecks o sz (o.descriptors m b) with
  | some q => simp only [hc, Except.error.injEq] at h; subst h; exact .inl (coreChecks_plain _ _ _ _ hc)
  | none =>
    simp only [hc] at h
    cases ho : collisionCheck (extract (layout o.headerBytes (o.descriptors m b) 0 0) m b o.mvm o.nbits) with
    | none => simp [ho] at h
    | some q =>
      simp only [ho, Except.error.injEq] at h; subst h
      simp only [collisionCheck, Option.map_eq_some_iff] at ho
      obtain ⟨g, -, rfl⟩ := ho
      exact .inr rfl

theorem sdInvert_err (order q fs) : ∀ i r e, sdInvert order q fs i r = .error e → e.code = .overflow := by
  induction fs with
  | nil => intro i r e h; simp [sdInvert] at h
  | cons f fs ih =>
    intro i r e h
    cases f with
    | miss =>
      simp only [sdInvert] at h
      cases g : sdInvert order q fs (i+1) r with
      | error e' => simp only [g, Except.map, Except.error.injEq] at h; subst h; exact ih _ _ _ g
      | ok l => simp [g, Except.map] at h
    | val d =>
      simp only [sdInvert] at h
      split at h
      · simp only [Except.error.injEq] at h; subst h; rfl
      · cases g : sdInvert order q fs (i+1) (r.push (reconstruct order q r d)) with
        | error e' => simp only [g, Except.map, Except.error.injEq] at h; subst h; exact ih _ _ _ g
        | ok l => simp [g, Except.map] at h

theorem diffCore_err (o a b m r) (h : diffCore o a b m = .error r) : r.Plain ∨ r.code = .overflow := by
  unfold diffCore at h
  simp only at h
  split at h
  · rename_i g; simp only [Except.error.injEq] at h; subst h; exact gdCore_err _ _ _ _ _ g
  · exact .inr (sdInvert_err _ _ _ _ _ _ h)

theorem floatCheck_err (vs r) (h : floatCheck vs = some r) : r.code = .floatRange := by
  simp only [floatCheck, Option.map_eq_some_iff] at h
  obtain ⟨i, -, rfl⟩ := h; rfl

/-- What the state after a completed command can be. -/
inductive Completion (i : Instr) (s : State) : State → Prop
  | reject (r : Raise) (hp : r.Plain) : Completion i s (s.raise r)
  | abort (r : Raise) (hp : r.Plain) (hi : i = .bwWrite ∨ i = .bwWriteb) (ha : s.session.active = true) : Completion i s (s.abort.raise r)
  | spoil (d) (r : Raise) (hw : writeRegions i s = [d]) (hd : d.base + d.len ≤ Config.memSize)
      (hr : r.code = .overflow ∨ r.code = .floatRange) : Completion i s ((s.draw d).raise r)
  | deliver (d : Region) (vs v) (hw : writeRegions i s = [d]) (hd : d.base + d.len ≤ Config.memSize)
      (hl : d.len = 4 * vs.length) : Completion i s (s.deliver d.base vs v)
  | opened (hi : i = .bwOpen) (h : openChecks s.session s.openOps = none) : Completion i s (State.succeed 0 { s with session := Session.opened s.openOps.base s.openOps.cap })
  | appended (w : Nat) (vs) (hi : i = .bwWrite ∨ i = .bwWriteb) (ha : s.session.active = true)
      (hn : s.session.bytesNeeded (w * vs.length) ≤ s.session.cap.toNat) (hf : s.session.flushFits (w * vs.length) = true) :
      Completion i s (s.settle (s.sink.appendAll w vs))
  | closed (hi : i = .bwClose) (ha : s.session.active = true) (hf : s.session.flushFits 0 = true) : Completion i s (s.settle s.sink.close)

theorem result_raiseFrom (i s d r) (hw : writeRegions i s = [d]) (hd : d.base + d.len ≤ Config.memSize)
    (hr : r.Plain ∨ r.code = .overflow ∨ r.code = .floatRange) : Completion i s (s.raiseFrom d r) := by
  rcases raiseFrom_cases s d r with ⟨h1, h2⟩ | ⟨h1, h2⟩ <;> rw [h2]
  · exact .spoil d r hw hd ((spoilsDestination_iff _).1 h1)
  · refine .reject r ⟨?_, h1⟩
    rcases hr with h | h | h
    · exact h.1
    · rw [h]; simp
    · rw [h]; simp

theorem exec_result (i : Instr) (s t : State) (h : exec i s = .next t) : Completion i s t := by
  cases i with
  | brRead =>
    rcases execBrRead_cases s with ⟨r, hr, e⟩ | ⟨hr, e⟩ <;> rw [e] at h <;> cases next_inj h
    · exact .reject r (readChecks_plain _ _ hr)
    · exact .deliver s.readOps.dest _ _ rfl (read_dest_end s hr) (by simp [ReadOps.dest])
  | brReadf =>
    rcases execBrReadf_cases s with ⟨r, hr, e⟩ | ⟨hr, r, hf, e⟩ | ⟨hr, -, e⟩ <;> rw [e] at h <;> cases next_inj h
    · exact .reject r (readChecks_plain _ _ hr)
    · exact result_raiseFrom _ _ _ _ rfl (read_dest_end s hr) (.inr (.inr (floatCheck_err _ _ hf)))
    · exact .deliver s.readOps.dest _ _ rfl (read_dest_end s hr) (by simp [ReadOps.dest])
  | bwOpen =>
    rcases execBwOpen_cases s with ⟨r, hr, e⟩ | ⟨hr, e⟩ <;> rw [e] at h <;> cases next_inj h
    · exact .reject r (openChecks_plain _ _ _ hr)
    · exact .opened rfl hr
  | bwWrite =>
    rcases execBwWrite_cases s with ⟨-, e⟩ | ⟨ha, r, hr, e⟩ | ⟨ha, hr, hf, e⟩ | ⟨-, -, -, e⟩ <;> rw [e] at h <;> cases h
    · exact .reject _ ⟨by simp, rfl⟩
    · exact .abort r (writeChecks_plain _ _ _ hr) (.inl rfl) ha
    · exact .appended (s.opnd 1) [s.snap[0]] (.inl rfl) ha (by simpa using ((writeChecks_eq_none _ _).1 hr).2) (by simpa using hf)
  | bwWriteb =>
    rcases execBwWriteb_cases s with ⟨-, e⟩ | ⟨ha, r, hr, e⟩ | ⟨ha, hr, hf, e⟩ | ⟨-, -, -, e⟩ <;> rw [e] at h <;> cases h
    · exact .reject _ ⟨by simp, rfl⟩
    · exact .abort r (batchChecks_plain _ _ _ hr) (.inr rfl) ha
    · exact .appended s.batchOps.w _ (.inr rfl) ha (by simpa using ((batchChecks_eq_none _ _).1 hr).2.2.2) (by simpa using hf)
  | bwClose =>
    rcases execBwClose_cases s with ⟨-, e⟩ | ⟨ha, hf, e⟩ | ⟨-, -, e⟩ <;> rw [e] at h <;> cases h
    · exact .reject _ ⟨by simp, rfl⟩
    · exact .closed rfl ha hf
  | gdDecode =>
    cases next_inj h
    rcases gdDecode_cases Config.maxGroups s with ⟨r, hr, e⟩ | ⟨hr, r, hg, e⟩ | ⟨hr, fs, hg, e⟩ <;> rw [e]
    · exact .reject r (groupChecks_plain _ _ _ hr)
    · refine result_raiseFrom _ _ _ _ rfl (group_dest_end _ s ((groupChecks_eq_none _ _).1 hr)) ?_
      rcases gdCore_err _ _ _ _ _ hg with h | h
      · exact .inl h
      · exact .inr (.inl h)
    · refine .deliver s.groupOps.dest _ _ rfl (group_dest_end _ s ((groupChecks_eq_none _ _).1 hr)) ?_
      rw [List.length_map, (gdCore_ok _ _ _ _ _ hg).2.2.2]; rfl
  | sdDecode =>
    cases next_inj h
    rcases sdDecode_cases Config.maxGroups s with ⟨r, hr, e⟩ | ⟨hr, r, hg, e⟩ | ⟨hr, fs, hg, e⟩ <;> rw [e]
    · exact .reject r (diffChecks_plain _ _ _ _ _ hr)
    · refine result_raiseFrom _ _ _ _ rfl (group_dest_end _ s ((diffChecks_eq_none _ _ _ _).1 hr).2.2.1) ?_
      rcases diffCore_err _ _ _ _ _ hg with h | h
      · exact .inl h
      · exact .inr (.inl h)
    · refine .deliver s.groupOps.dest _ _ rfl (group_dest_end _ s ((diffChecks_eq_none _ _ _ _).1 hr).2.2.1) ?_
      rw [List.length_map, diffCore_ok_length _ _ _ _ _ hg]; rfl
  | bmExpand =>
    rcases execBmExpand_cases s with ⟨r, hr, e⟩ | ⟨hr, r, hb, e⟩ | ⟨hr, -, e⟩ <;> rw [e] at h <;> cases next_inj h
    · exact .reject r (expandChecks_plain _ _ hr)
    · exact .reject r (plain_check _ _ _ (by decide) _ hb)
    · exact .deliver s.expandOps.dest _ _ rfl (expand_dest_end s hr) (by simp [ExpandOps.dest, scatter_length])

theorem ceil8_mono {a b : Nat} (h : a ≤ b) : ceil8 a ≤ ceil8 b := by unfold ceil8; omega

theorem flush_bounds (b : Session) (n : Nat) (h : b.flushFits n = true) (hn : b.bytesNeeded n ≤ b.cap.toNat) :
    b.base.toNat + (b.bits + n) / 8 ≤ Config.memSize ∧ (b.bits + n) / 8 < 2 ^ 32 := by
  simp only [Session.flushFits, decide_eq_true_eq] at h
  have := b.cap.isLt
  simp only [Session.bytesNeeded, ceil8] at h hn
  omega

theorem wf_close (b : Session) (x : Sink) (hx : x.session = b) (hb : b.wf) : x.close.session.wf := by
  obtain ⟨h2, h3, h4, h5⟩ := hb
  subst hx
  have hl := x.session.nacc_lt
  rcases Sink.close_cases x with ⟨h, e⟩ | ⟨h, e⟩ <;> rw [e]
  · refine ⟨h2, ?_, by simp, by simp⟩
    simpa [Session.bytesNeeded, Session.bits, h] using h3
  · have : x.session.nacc.toNat ≠ 0 := fun h' => h (BitVec.eq_of_toNat_eq h')
    refine ⟨h2, ?_, by simp, by simp⟩
    simp only [Session.bytesNeeded, Session.bits, ceil8] at h3 ⊢
    simp only [BitVec.toNat_add, BitVec.toNat_ofNat]
    omega

theorem close_mem (x : Sink) (hx : x.mem.wf) (hf : x.session.flushFits 0 = true) : x.close.mem.wf := by
  rcases Sink.close_cases x with ⟨h, e⟩ | ⟨h, e⟩ <;> rw [e]
  · exact hx
  · have : x.session.nacc.toNat ≠ 0 := fun h' => h (BitVec.eq_of_toNat_eq h')
    refine Memory.wf_write _ _ _ ?_ hx
    simp only [Session.flushFits, decide_eq_true_eq] at hf
    simp only [Session.bytesNeeded, Session.bits, ceil8, Session.cursor] at hf ⊢
    omega

theorem close_read (x : Sink) (hx : x.mem.wf) (a : Nat)
    (ha : ¬ (x.session.cursor ≤ a ∧ a < x.session.base.toNat + x.session.bytesNeeded 0)) : x.close.mem.read a = x.mem.read a := by
  rcases Sink.close_cases x with ⟨h, e⟩ | ⟨h, e⟩ <;> rw [e]
  have : x.session.nacc.toNat ≠ 0 := fun h' => h (BitVec.eq_of_toNat_eq h')
  have hl := x.session.nacc_lt
  rw [Memory.read_write _ _ _ _ hx, if_neg]
  simp only [Session.cursor, Session.bytesNeeded, Session.bits, ceil8] at ha ⊢
  omega

end Sys2Proof.Machine
end

