-- ==== Sys2Proof/Laws/Outcomes.lean ====
section
/-! SUPPORT. How a command's state after is recognised as rejected, aborted, spoiled, succeeded or delivered. -/

namespace Sys2Proof.Machine

/-- A number below 2^32 survives in a register. -/
theorem toNat_ofNat_small (n : Nat) (h : n < 2^32) : (BitVec.ofNat 32 n).toNat = n := by
  rw [BitVec.toNat_ofNat, Nat.mod_eq_of_lt h]

/-- Raising an error alone is a rejection (60_exceptions R203). -/
theorem rejected_raise (s : State) (c : ErrCode) (n : Nat) (h : n < 2^32) : Rejected s (s.raise ⟨c, n⟩) c n :=
  ⟨⟨completed_raise _ _, rfl, toNat_ofNat_small _ h, rfl⟩, rfl, rfl, rfl⟩

/-- Aborting and raising records the error (41_bitwriter R129). -/
theorem aborted_raise (s : State) (c : ErrCode) (n : Nat) (h : n < 2^32) :
   Failed s (s.abort.raise ⟨c, n⟩) c n := ⟨completed_abort_raise _ _, rfl, toNat_ofNat_small _ h, rfl⟩

theorem sat32_lt (n) : sat32 n < 2^32 := by unfold sat32; omega

theorem bytesNeeded_eq (b : Session) (n : Nat) : b.bytesNeeded n = (8 * b.count.toNat + b.nacc.toNat + n + 7) / 8 := by
  simp [Session.bytesNeeded, Session.bits, ceil8]

/-- The footprint of a BitReader command whose checks pass fits RES0. -/
theorem footprint_lt (s : State) (h3 : s.readOps.source.inBounds)
  (h4 : s.readOps.dest.inBounds)
  (h5 : s.readOps.source.apart s.readOps.dest) : s.readOps.footprint < 2^32 := by
  by_contra hc
  have hl := Region.end_le s.readOps.source (opnd_lt s 0) h3
  have hd := Region.end_le s.readOps.dest (opnd_lt s 4) h4
  simp only [ReadOps.source] at hl
  have e : Config.memSize = 2^32 := rfl
  have hn : 0 < s.readOps.n := by
    by_contra h0
    have : s.readOps.n = 0 := by omega
    simp [ReadOps.footprint, this] at hc
  unfold Region.apart at h5
  rw [Region.overlaps_eq_false] at h5
  simp only [ReadOps.source, ReadOps.dest] at h5
  simp only [ReadOps.dest] at hd
  omega

/-- A command that stores an element array delivers it (20_memory R58). -/
theorem delivers_deliver (s : State) (i : Instr) (d : Region) (vs : List Word) (v : Nat) (P : Memory → Prop) (hw : s.mem.wf) (hd : d.base + 4 * vs.length ≤ 2^32)
   (hl : d.len = 4 * vs.length) (hv : v < 2^32) (he : exec i s = .next (s.deliver d.base vs v)) (hP : P (s.mem.storeWords d.base vs)) : Delivers i s d v P := by
  refine ⟨_, he, ⟨completed_deliver _ _ _ _, rfl, rfl, toNat_ofNat_small _ hv, rfl⟩, rfl, ?_, hP⟩
  intro a ha
  exact Memory.read_storeWords_outside _ _ _ _ hd hw (by rw [← hl]; exact ha)

/-- An error that spoils the destination draws its bytes (60_exceptions R204). -/
theorem spoiled_raiseFrom (s : State) (d : Region) (c : ErrCode) (n : Nat) (hw : s.mem.wf) (hn : n < 2^32) (hd : d.base + d.len ≤ 2^32) (hc : c.spoilsDestination = true) :
   Spoiled s (s.raiseFrom d ⟨c, n⟩) d c n := by
  unfold State.raiseFrom
  rw [if_pos hc]
  refine ⟨⟨completed_draw_raise _ _ _, rfl, toNat_ofNat_small _ hn, rfl⟩, rfl, rfl, ?_, ?_⟩
  · intro a ha
    show (s.mem.drawRegion s.draws d).read a = _
    have ha' := (Region.has_iff d a).1 ha
    have e : Config.memSize = 2^32 := rfl
    rw [Memory.read_drawRegion _ _ _ _ hw, if_pos ⟨ha, by omega⟩]
  · intro a ha
    show (s.mem.drawRegion s.draws d).read a = _
    rw [Memory.read_drawRegion _ _ _ _ hw, if_neg (by simp [ha])]

theorem succeeded_settle (s : State) (x : Sink) (v) (h : x.session.count.toNat = v) : Succeeded s (s.settle x) v := by
  refine ⟨completed_settle _ _, rfl, rfl, ?_, rfl⟩
  show (BitVec.ofNat 32 x.session.count.toNat).toNat = v
  simpa using h

theorem sink_settle (s : State) (x : Sink) : (s.settle x).sink = x := rfl

theorem withOperands_opnd (s : State) (l : List Word) (i : Fin 16) : (s.withOperands l).opnd i = (l.getD i.val 0#32).toNat := by
  simp [State.withOperands, State.opnd]

theorem withOperands_snap (s : State) (l : List Word) (i : Fin 16) : (s.withOperands l).snap[i] = l.getD i.val 0#32 := by
  simp [State.withOperands]

theorem readOps_withOperands (s : State) (a b c d e : Word) : (s.withOperands [a, b, c, d, e]).readOps = ⟨a.toNat, b.toNat, c.toNat, d.toNat, e.toNat⟩ := by
  simp only [State.readOps, withOperands_opnd]; rfl

end Sys2Proof.Machine
end

