-- ==== Sys2Proof/Laws/Groups.lean ====
section
/-! SUPPORT. The group-decoded field slot by slot, and the inversion of the differencing as a recurrence. -/

namespace Sys2Proof.Machine

theorem flatMap_get {α β : Type} (f : α → List β) : ∀ (l : List α) (g k : Nat) (a : α), l[g]? = some a → k < (f a).length →
   (l.flatMap f)[((l.take g).map (fun a => (f a).length)).sum + k]? = (f a)[k]? := by
  intro l
  induction l with
  | nil => intro g k a h; simp at h
  | cons x l ih =>
    intro g k a h hk
    cases g with
    | zero =>
      simp only [List.getElem?_cons_zero, Option.some.injEq] at h; subst h
      simp only [List.take_zero, List.map_nil, List.sum_nil, Nat.zero_add, List.flatMap_cons]
      rw [List.getElem?_append_left hk]
    | succ g =>
      simp only [List.getElem?_cons_succ] at h
      simp only [List.take_succ_cons, List.map_cons, List.sum_cons, List.flatMap_cons]
      rw [List.getElem?_append_right (by omega), ← ih g k a h hk]
      congr 1; omega

/-- The record of group g after the layout passes (42_group R147). -/
theorem layout_get (h : Nat) (ds : List Descriptor) : ∀ (i p g : Nat) (d : Descriptor), ds[g]? = some d →
   (layout h ds i p)[g]? = some ⟨d.reference, d.width, d.length,
      i + ((ds.take g).map (fun d => d.length)).sum,
      h + (p + ((ds.take g).map (fun d => d.length * d.width)).sum) / 8,
      (p + ((ds.take g).map (fun d => d.length * d.width)).sum) % 8⟩ := by
  induction ds with
  | nil => intro i p g d h; simp at h
  | cons x ds ih =>
    intro i p g d hd
    cases g with
    | zero => simp only [List.getElem?_cons_zero, Option.some.injEq] at hd; subst hd; simp [layout]
    | succ g =>
      simp only [List.getElem?_cons_succ] at hd
      simp only [layout, List.getElem?_cons_succ, List.take_succ_cons, List.map_cons, List.sum_cons]
      rw [ih _ _ g d hd]; simp only [Nat.add_assoc]

theorem take_sum (n g : Nat) (f : Nat → Nat) (h : g ≤ n) : (((List.range n).take g).map f).sum = ∑ i ∈ Finset.range g, f i := by
  rw [List.take_range, Nat.min_eq_left h]
  induction g with
  | zero => rfl
  | succ g ih => rw [List.range_succ, List.map_append, List.sum_append, ih (by omega), Finset.sum_range_succ]; simp

theorem descriptors_get (o : GroupOps) (m : Memory) (b g : Nat) (h : g < o.ng) : (o.descriptors m b)[g]? = some { reference := o.ref m b g, width := o.width m b g, length := o.length m b g } := by
  rw [GroupOps.descriptors, List.getElem?_map, List.getElem?_range h]; rfl

theorem totalLength_eq (o : GroupOps) (m : Memory) (b : Nat) : totalLength (o.descriptors m b) = o.start m b o.ng := by
  rw [GroupOps.start, ← take_sum o.ng o.ng _ (le_refl _), totalLength, GroupOps.descriptors, List.map_map, List.take_of_length_le (by simp)]; rfl

theorem totalBits_eq (o : GroupOps) (m : Memory) (b : Nat) : totalBits (o.descriptors m b) = o.position m b o.ng := by
  rw [GroupOps.position, ← take_sum o.ng o.ng _ (le_refl _), totalBits, GroupOps.descriptors, List.map_map, List.take_of_length_le (by simp)]; rfl

theorem start_take (o : GroupOps) (m : Memory) (b g : Nat) (h : g ≤ o.ng) : (((o.descriptors m b).take g).map (fun d => d.length)).sum = o.start m b g := by
  rw [GroupOps.start, ← take_sum o.ng g _ h, GroupOps.descriptors, ← List.map_take, List.map_map]; rfl

theorem pos_take (o : GroupOps) (m : Memory) (b g : Nat) (h : g ≤ o.ng) : (((o.descriptors m b).take g).map (fun d => d.length * d.width)).sum = o.position m b g := by
  rw [GroupOps.position, ← take_sum o.ng g _ h, GroupOps.descriptors, ← List.map_take, List.map_map]; rfl

theorem slots_len (g : Group) (m b v n) : (g.slots m b v n).length = g.length := by simp [Group.slots]

theorem layout_take_len (h : Nat) (ds : List Descriptor) : ∀ i p g, (((layout h ds i p).take g).map (fun a => a.length)) = ((ds.take g).map (fun d => d.length)) := by
  induction ds with
  | nil => intro i p g; simp [layout]
  | cons d ds ih => intro i p g; cases g <;> simp [layout, ih]

/-- The slot of the field that group g stores as its k-th (42_group R151). -/
theorem extract_get (o : GroupOps) (m : Memory) (b g k : Nat) (hg : g < o.ng) (hk : k < o.length m b g) :
   (extract (layout o.headerBytes (o.descriptors m b) 0 0) m b o.mvm o.nbits)[o.start m b g + k]? = some (o.slotAt m b g k) := by
  have hl := layout_get o.headerBytes (o.descriptors m b) 0 0 g _ (descriptors_get o m b g hg)
  rw [start_take o m b g (by omega), pos_take o m b g (by omega)] at hl
  have := flatMap_get (fun g : Group => g.slots m b o.mvm o.nbits) _ g k _ hl (by rw [slots_len]; exact hk)
  simp only [slots_len] at this
  rw [layout_take_len, start_take o m b g (by omega)] at this
  rw [extract, this]
  simp only [Group.slots, Nat.zero_add, List.getElem?_map, List.getElem?_range hk, Option.map_some]
  rfl

theorem extract_length_start (o : GroupOps) (m : Memory) (b : Nat) : (extract (layout o.headerBytes (o.descriptors m b) 0 0) m b o.mvm o.nbits).length = o.start m b o.ng := by
  rw [← start_take o m b o.ng (le_refl _), ← layout_take_len o.headerBytes _ 0 0, extract, List.length_flatMap]
  rw [List.take_of_length_le (by rw [layout_length]; simp [GroupOps.descriptors])]
  congr 1
  apply List.map_congr_left; intro a _; exact slots_len _ _ _ _ _

/-- Every index below a sum of lengths lies in one slice. -/
theorem index_split (f : Nat → Nat) (n i : Nat) (h : i < ∑ h ∈ Finset.range n, f h) : ∃ g, g < n ∧ ∃ k, k < f g ∧ i = (∑ h ∈ Finset.range g, f h) + k := by
  induction n with
  | zero => simp at h
  | succ n ih =>
    rw [Finset.sum_range_succ] at h
    by_cases hi : i < ∑ h ∈ Finset.range n, f h
    · obtain ⟨g, hg, k, hk, e⟩ := ih hi; exact ⟨g, by omega, k, hk, e⟩
    · exact ⟨n, by omega, i - ∑ h ∈ Finset.range n, f h, by omega, by omega⟩

/-- A consistent section passes every check before extraction. -/
theorem coreChecks_of_consistent (o : GroupOps) (m : Memory) (b size : Nat) (h : o.Consistent m b size) : coreChecks o size (o.descriptors m b) = none := by
  obtain ⟨h1, h2, h3, h4⟩ := h
  have e1 : (o.descriptors m b).findIdx? (fun d => decide (Config.gwMax < d.width)) = none := by
    rw [List.findIdx?_eq_none_iff]
    intro d hd
    simp only [GroupOps.descriptors, List.mem_map, List.mem_range] at hd
    obtain ⟨g, hg, rfl⟩ := hd
    have := h2 g hg
    simp [Config.gwMax]; omega
  have e2 : totalA o.headerBytes (o.descriptors m b) = size := by rw [totalA, totalBits_eq]; exact h4
  have e3 : totalB o.headerBytes (o.descriptors m b) = size := by rw [← e2]; unfold totalA totalB ceil8; split <;> omega
  have e4 : ¬ size < o.headerBytes := by omega
  rw [coreChecks, e1, e2, e3, totalLength_eq, h3]
  simp [check, e4]

theorem missing_int : ((Config.missing : Nat) : Int) = 2 ^ 31 - 1 := by norm_num [Config.missing]

theorem collides_val (x : Int) : (Slot.val x).collides = decide (2 ^ 31 - 1 ≤ x) := by rw [Slot.collides, missing_int]

/-- The collision check finds the lowest slot that reaches MISSING (42_group R157). -/
theorem collision_some (fs : List Slot) (i : Nat) (x : Int) (h : fs[i]? = some (.val x)) (hx : 2^31-1 ≤ x)
   (hb : ∀ j, j < i → ∀ y, fs[j]? = some (.val y) → y < 2^31-1) : collisionCheck fs = some ⟨.overflow, i⟩ := by
  have hi : i < fs.length := by by_contra hh; rw [List.getElem?_eq_none (by omega)] at h; cases h
  have : fs.findIdx? Slot.collides = some i := by
    rw [List.findIdx?_eq_some_iff_getElem]
    refine ⟨hi, ?_, ?_⟩
    · rw [List.getElem?_eq_getElem hi, Option.some.injEq] at h; rw [h, collides_val, decide_eq_true_eq]; exact hx
    · intro j hj
      have hj' : j < fs.length := by omega
      cases hs : fs[j] with
      | miss => simp [Slot.collides]
      | val y =>
        have := hb j hj y (by rw [List.getElem?_eq_getElem hj', hs])
        rw [collides_val, decide_eq_true_eq]; omega
  simp [collisionCheck, this]

/-- The recurrence of 43_spatial R174 as a list function. -/
def recon (order : Nat) (q : Seeds) : Rolling → List Int → List Int
  | _, [] => []
  | r, d :: ds => reconstruct order q r d :: recon order q (r.push (reconstruct order q r d)) ds

theorem recon_of (order : Nat) (q : Seeds) (ho : order = 1 ∨ order = 2) (ds ys : List Int) (h : Reconstruction order q ds ys) :
   ∀ n c r, ds.length - c = n → r.cnt = c → (1 ≤ c → ys[c-1]? = some r.last ∨ ys.length ≤ c - 1) → (2 ≤ c → ys[c-2]? = some r.pen ∨ ys.length ≤ c - 2) →
    ys.drop c = recon order q r (ds.drop c) := by
  obtain ⟨hl, h0, h1, h2⟩ := h
  intro n
  induction n with
  | zero =>
    intro c r hn hc _ _
    rw [List.drop_eq_nil_of_le (by omega), List.drop_eq_nil_of_le (by omega)]; rfl
  | succ n ih =>
    intro c r hn hc hlast hpen
    have c1 : c < ds.length := by omega
    have c2 : c < ys.length := by omega
    have key : reconstruct order q r ds[c] = ys[c] := by
      unfold reconstruct
      rw [hc]
      by_cases e0 : c = 0
      · subst e0; rw [if_pos rfl]; exact (h0 _ (List.getElem?_eq_getElem c2)).symm
      · rw [if_neg e0]
        have hla : ys[c-1]? = some r.last := by rcases hlast (by omega) with h | h; exact h; omega
        rcases ho with rfl | rfl
        · simp only [Nat.reduceEqDiff, false_and, if_false, if_true]
          have := h1 rfl (c-1) ds[c] r.last ys[c] (by rw [show c - 1 + 1 = c by omega]; exact List.getElem?_eq_getElem c1) hla (by rw [show c - 1 + 1 = c by omega]; exact List.getElem?_eq_getElem c2)
          exact this.symm
        · by_cases e1 : c = 1
          · subst e1; simp only [true_and, if_true]; exact ((h2 rfl).1 _ (List.getElem?_eq_getElem c2)).symm
          · have hpe : ys[c-2]? = some r.pen := by rcases hpen (by omega) with h | h; exact h; omega
            simp only [e1, and_false, if_false, Nat.reduceEqDiff]
            have := (h2 rfl).2 (c-2) ds[c] r.pen r.last ys[c] (by rw [show c - 2 + 2 = c by omega]; exact List.getElem?_eq_getElem c1) hpe (by rw [show c - 2 + 1 = c - 1 by omega]; exact hla) (by rw [show c - 2 + 2 = c by omega]; exact List.getElem?_eq_getElem c2)
            exact this.symm
    rw [List.drop_eq_getElem_cons c1, List.drop_eq_getElem_cons c2, recon, key]
    congr 1
    refine ih (c+1) _ (by omega) (by simp [Rolling.push, hc]) (fun _ => .inl ?_) (fun h => ?_)
    · simp only [Rolling.push, Nat.add_sub_cancel]; exact List.getElem?_eq_getElem c2
    · rw [show c + 1 - 2 = c - 1 by omega]; exact hlast (by omega)

/-- A reconstruction is what the recurrence computes. -/
theorem recon_of_reconstruction (order q ds ys) (ho : order = 1 ∨ order = 2) (h : Reconstruction order q ds ys) : ys = recon order q Rolling.start ds := by
  simpa using recon_of order q ho ds ys h _ 0 Rolling.start rfl rfl (fun h => by omega) (fun h => by omega)

theorem outOfRange_iff (y : Int) : outOfRange y = true ↔ (y < -2^31 ∨ 2^31 - 1 ≤ y) := by
  simp only [outOfRange, missing_int, Bool.or_eq_true, decide_eq_true_eq]

theorem filterMap_miss (l : List Slot) : (Slot.miss :: l).filterMap Slot.value? = l.filterMap Slot.value? := rfl

theorem filterMap_val (x : Int) (l : List Slot) : (Slot.val x :: l).filterMap Slot.value? = x :: l.filterMap Slot.value? := rfl

/-- The inversion succeeds on a field whose reconstruction can be stored. -/
theorem sdInvert_ok (order q) (fs : List Slot) : ∀ (gs : List Slot) (i : Nat) (r : Rolling),
   gs.map (fun f => f.value?.isSome) = fs.map (fun f => f.value?.isSome) → gs.filterMap Slot.value? = recon order q r (fs.filterMap Slot.value?) →
   (∀ x, Slot.val x ∈ gs → -2 ^ 31 ≤ x ∧ x < 2 ^ 31 - 1) → sdInvert order q fs i r = .ok gs := by
  induction fs with
  | nil => intro gs i r h _ _; simp at h; subst h; rfl
  | cons f fs ih =>
    intro gs i r h1 h2 h3
    cases gs with
    | nil => simp at h1
    | cons g gs =>
      simp only [List.map_cons, List.cons.injEq] at h1
      obtain ⟨hh, ht⟩ := h1
      cases f with
      | miss =>
        cases g with
        | val x => simp [Slot.value?] at hh
        | miss =>
          simp only [sdInvert]
          rw [ih gs (i+1) r ht (by simpa only [List.cons_append, filterMap_miss] using h2) (fun x hx => h3 x (by simp [hx]))]; rfl
      | val d =>
        cases g with
        | miss => simp [Slot.value?] at hh
        | val x =>
          simp only [filterMap_val, recon, List.cons.injEq] at h2
          obtain ⟨hx, h2⟩ := h2
          have hr := h3 x (by simp)
          have ho : ¬ outOfRange x = true := by rw [outOfRange_iff]; omega
          simp only [sdInvert]
          rw [← hx] at h2 ⊢
          rw [if_neg ho, ih gs (i+1) _ ht h2 (fun x hx => h3 x (by simp [hx]))]; rfl

/-- The inversion stops at the first value that cannot be stored (43_spatial R178). -/
theorem sdInvert_error (order q d rest y) (hy : y < -2^31 ∨ 2^31 - 1 ≤ y) (p : List Slot) : ∀ (gs : List Slot) (i : Nat) (r : Rolling),
   gs.map (fun f => f.value?.isSome) = p.map (fun f => f.value?.isSome) → (gs ++ [Slot.val y]).filterMap Slot.value? = recon order q r ((p ++ [Slot.val d]).filterMap Slot.value?) →
   (∀ x, Slot.val x ∈ gs → -2 ^ 31 ≤ x ∧ x < 2 ^ 31 - 1) → sdInvert order q (p ++ Slot.val d :: rest) i r = .error ⟨.overflow, i + p.length⟩ := by
  induction p with
  | nil =>
    intro gs i r h1 h2 h3; simp at h1; subst h1
    simp only [List.nil_append, filterMap_val, List.filterMap_nil, recon, List.cons.injEq, and_true] at h2
    simp only [List.nil_append, sdInvert]
    rw [← h2, if_pos ((outOfRange_iff y).2 hy)]; rfl
  | cons f fs ih =>
    intro gs i r h1 h2 h3
    cases gs with
    | nil => simp at h1
    | cons g gs =>
      simp only [List.map_cons, List.cons.injEq] at h1
      obtain ⟨hh, ht⟩ := h1
      cases f with
      | miss =>
        cases g with
        | val x => simp [Slot.value?] at hh
        | miss =>
          simp only [List.cons_append, sdInvert]
          rw [ih gs (i+1) r ht (by simpa only [List.cons_append, filterMap_miss] using h2) (fun x hx => h3 x (by simp [hx]))]
          simp only [Except.map, List.length_cons]; congr 2; omega
      | val e =>
        cases g with
        | miss => simp [Slot.value?] at hh
        | val x =>
          simp only [List.cons_append, filterMap_val, recon, List.cons.injEq] at h2
          obtain ⟨hx, h2⟩ := h2
          have hr := h3 x (by simp)
          have ho : ¬ outOfRange x = true := by rw [outOfRange_iff]; omega
          simp only [List.cons_append, sdInvert]
          rw [← hx] at h2 ⊢
          rw [if_neg ho, ih gs (i+1) _ ht h2 (fun x hx => h3 x (by simp [hx]))]
          simp only [Except.map, List.length_cons]; congr 2; omega

theorem diffChecks_of_valid (s : State) (mg : Nat) (o : GroupOps) (ho : s.groupOps = o) (h1 : s.sdOrder = 1 ∨ s.sdOrder = 2) (h2 : 1 ≤ s.sdEow) (h3 : s.sdEow ≤ 4) (hv : o.Valid mg)
   (h : (s.sdOrder + 1) * s.sdEow ≤ o.size) : diffChecks mg s.sdOrder s.sdEow o = none := by
  rw [diffChecks_eq_none]
  exact ⟨h1, ⟨h2, h3⟩, hv, h⟩

/-- ERR_INFO holds every number the group decoding reports. -/
theorem gdCore_info_lt (o : GroupOps) (m b size r) (h1 : o.ng < 2^32) (h2 : o.npnts < 2^32) (h : gdCore o m b size = .error r) : r.info < 2^32 := by
  unfold gdCore at h
  simp only at h
  cases hc : coreChecks o size (o.descriptors m b) with
  | some q =>
    simp only [hc, Except.error.injEq] at h; subst h
    have := mem_of_firstFailure _ _ hc
    simp only [List.mem_cons, List.not_mem_nil, or_false] at this
    rcases this with h | h | h | h
    · have := ((check_some _ _ _ _).1 h.symm).2; rw [this]; exact sat32_lt _
    · obtain ⟨g, hg, rfl⟩ := Option.map_eq_some_iff.1 h.symm
      have := (List.findIdx?_eq_some_iff_getElem.1 hg).1
      simp [GroupOps.descriptors] at this
      show g < _; omega
    · have := ((check_some _ _ _ _).1 h.symm).2; rw [this]; exact sat32_lt _
    · have := ((check_some _ _ _ _).1 h.symm).2; rw [this]; exact sat32_lt _
  | none =>
    simp only [hc] at h
    have hb : totalLength (o.descriptors m b) = o.npnts := by
      have := (firstFailure_eq_none _).1 hc
      have := this (check (totalLength (o.descriptors m b) ≠ o.npnts) .badPacking (sat32 (totalLength (o.descriptors m b)))) (by simp)
      rw [check_eq_none] at this; simpa using this
    cases ho : collisionCheck (extract (layout o.headerBytes (o.descriptors m b) 0 0) m b o.mvm o.nbits) with
    | none => simp [ho] at h
    | some q =>
      simp only [ho, Except.error.injEq] at h; subst h
      simp only [collisionCheck, Option.map_eq_some_iff] at ho
      obtain ⟨g, hg, rfl⟩ := ho
      have := (List.findIdx?_eq_some_iff_getElem.1 hg).1
      rw [extract_length_start, ← totalLength_eq, hb] at this
      show g < _; omega

end Sys2Proof.Machine
end

