-- ==== Sys2Proof/Laws/Streams.lean ====
section
/-! SUPPORT. Element words, set bits, and the bit string of a session (10_state R32) as BW.WRITE, BW.WRITEB and BW.CLOSE extend it. -/

namespace Sys2Proof.Machine

theorem le32_toNat (m : Memory) (a : Nat) : (m.le32 a).toNat = (m.read a).toNat + 256 * ((m.read (a+1)).toNat + 256 * ((m.read (a+2)).toNat + 256 * (m.read (a+3)).toNat)) := by
  simp only [Memory.le32, Memory.readLE, BitVec.toNat_ofNat]
  have h0 := (m.read a).isLt
  have h1 := (m.read (a+1)).isLt
  have h2 := (m.read (a+2)).isLt
  have h3 := (m.read (a+3)).isLt
  rw [show a+1+1 = a+2 by omega, show a+2+1 = a+3 by omega]
  omega

/-- The set bits counted as a sum (44_bitmap R190). -/
theorem setBits_sum (m : Memory) (b n : Nat) : setBits (bitmapBits m b n) = ∑ p ∈ Finset.range n, (streamBit m b p).toNat := by
  induction n with
  | zero => rfl
  | succ n ih =>
    rw [Finset.sum_range_succ, ← ih]
    simp only [setBits, bitmapBits, List.range_succ, List.map_append, List.countP_append, List.map_cons, List.map_nil]
    cases streamBit m b n <;> rfl

/-- The word BM.EXPAND stores at position p (44_bitmap R194). -/
theorem scatter_get (m : Memory) (c : Nat) (bs : List Bool) : ∀ (j p : Nat), p < bs.length →
   (scatter m c bs j)[p]? = some (if bs.getD p false then m.le32 (c + 4 * (j + (bs.take p).countP (fun b => b))) else Config.qnan) := by
  induction bs with
  | nil => intro j p h; simp at h
  | cons b bs ih =>
    intro j p hp
    cases p with
    | zero => cases b <;> simp [scatter]
    | succ p =>
      have hp' : p < bs.length := by simpa using hp
      cases b
      · simp only [scatter, List.getElem?_cons_succ]; rw [ih j p hp']; simp
      · simp only [scatter, List.getElem?_cons_succ]; rw [ih (j+1) p hp']; simp; congr 3; omega

theorem bitsValue_snoc (bs : List Bool) (b : Bool) : bitsValue (bs ++ [b]) = 2 * bitsValue bs + b.toNat := by
  simp [bitsValue]

theorem bitsValue_lt (bs : List Bool) : bitsValue bs < 2 ^ bs.length := by
  induction bs using List.reverseRecOn with
  | nil => simp [bitsValue]
  | append_singleton bs b ih =>
    rw [bitsValue_snoc, List.length_append, List.length_singleton, Nat.pow_succ]
    have := b.toNat_le; omega

/-- Bit j from the front of a bit string, read off its value. -/
theorem bitsValue_testBit (bs : List Bool) : ∀ j, j < bs.length → (bitsValue bs).testBit (bs.length - 1 - j) = bs.getD j false := by
  induction bs using List.reverseRecOn with
  | nil => intro j h; simp at h
  | append_singleton bs b ih =>
    intro j hj
    rw [bitsValue_snoc, List.length_append, List.length_singleton]
    simp only [List.length_append, List.length_singleton] at hj
    by_cases h : j = bs.length
    · subst h
      have : (2 * bitsValue bs + b.toNat).testBit 0 = b := by cases b <;> simp [Nat.testBit_zero]
      simpa [List.getD_eq_getElem?_getD] using this
    · have hj' : j < bs.length := by omega
      rw [show bs.length + 1 - 1 - j = (bs.length - 1 - j) + 1 by omega, Nat.testBit_succ,
        show (2 * bitsValue bs + b.toNat) / 2 = bitsValue bs by have := b.toNat_le; omega, ih j hj']
      simp only [List.getD_eq_getElem?_getD]
      rw [List.getElem?_append_left hj']

theorem holds_bits (x : Sink) (bs : List Bool) (h : x.Holds bs) : x.session.bits = bs.length := by
  obtain ⟨h1, h2, -, -⟩ := h
  simp only [Session.bits]; omega

/-- Appending one bit extends the bit string (41_bitwriter R122). -/
theorem holds_appendBit (x : Sink) (bs : List Bool) (b : Bool) (h : x.Holds bs) (hw : x.mem.wf)
    (hc : (bs.length + 1) / 8 < 2 ^ 32) : (x.appendBit b).Holds (bs ++ [b]) := by
  obtain ⟨h1, h2, h3, h4⟩ := h
  have hbl := b.toNat_le
  have hdl : (bs.drop (8 * (bs.length / 8))).length = bs.length % 8 := by rw [List.length_drop]; omega
  have hval := bitsValue_lt (bs.drop (8 * (bs.length / 8)))
  rw [hdl] at hval
  rcases Sink.appendBit_cases x b with ⟨hn, e⟩ | ⟨hn, e⟩ <;> rw [e]
  · have hd : bs.length % 8 = 7 := by omega
    have hl : (bs ++ [b]).length = bs.length + 1 := by simp
    refine ⟨?_, ?_, ?_, ?_⟩
    · rw [hl]; simp only [BitVec.toNat_add, BitVec.toNat_ofNat]; omega
    · rw [hl]; simp; omega
    · rw [hl, List.drop_eq_nil_of_le (by rw [hl]; omega)]; rfl
    · intro k hk
      rw [hl] at hk
      simp only [streamBit]
      rw [Memory.read_write _ _ _ _ hw]
      by_cases hkk : k < 8 * (bs.length / 8)
      · rw [if_neg (by simp only [Session.cursor]; omega)]
        rw [List.getElem?_append_left (by omega)]; exact h4 k hkk
      · rw [if_pos (by simp only [Session.cursor]; omega)]
        have hj : k - 8 * (bs.length / 8) < 8 := by omega
        have key := bitsValue_testBit (bs.drop (8 * (bs.length / 8)) ++ [b]) (k - 8 * (bs.length / 8)) (by simp; omega)
        rw [bitsValue_snoc, ← h3] at key
        have hlen : (bs.drop (8 * (bs.length / 8)) ++ [b]).length = 8 := by simp; omega
        rw [hlen] at key
        rw [BitVec.getLsbD_ofNat]
        rw [show 7 - k % 8 = 8 - 1 - (k - 8 * (bs.length / 8)) by omega]
        rw [key]
        have : 8 - 1 - (k - 8 * (bs.length / 8)) < 8 := by omega
        simp only [this, decide_true, Bool.true_and, List.getD_eq_getElem?_getD]
        have hd' : bs.drop (8 * (bs.length / 8)) ++ [b] = (bs ++ [b]).drop (8 * (bs.length / 8)) := by
          rw [List.drop_append_of_le_length (by omega)]
        rw [hd', List.getElem?_drop, show 8 * (bs.length / 8) + (k - 8 * (bs.length / 8)) = k by omega]
        rw [List.getElem?_eq_getElem (by rw [hl]; omega)]; rfl
  · have hl : (bs ++ [b]).length = bs.length + 1 := by simp
    have hq : (bs.length + 1) / 8 = bs.length / 8 := by omega
    have hp : 2 ^ (bs.length % 8 + 1) ≤ 2 ^ 7 := Nat.pow_le_pow_right (by omega) (by omega)
    rw [Nat.pow_succ] at hp
    refine ⟨?_, ?_, ?_, ?_⟩
    · rw [hl, hq]; exact h1
    · rw [hl]; simp only [BitVec.toNat_ofNat]; omega
    · rw [hl, hq, List.drop_append_of_le_length (by omega), bitsValue_snoc, ← h3]
      simp only [BitVec.toNat_ofNat]
      omega
    · intro k hk
      rw [hl, hq] at hk
      rw [List.getElem?_append_left (by omega)]; exact h4 k hk

theorem msbBits_succ (v : Word) (w : Nat) : msbBits v (w + 1) = v.getLsbD w :: msbBits v w := by
  simp only [msbBits, List.range_succ_eq_map, List.map_cons, List.map_map]
  congr 1
  apply List.map_congr_left
  intro j _
  simp only [Function.comp]
  congr 1; omega

theorem msbBits_length (v w) : (msbBits v w).length = w := by simp [msbBits]

/-- Appending a value extends the bit string by its low bits, most significant first. -/
theorem holds_append (v : Word) (w : Nat) : ∀ (x : Sink) (bs : List Bool), x.Holds bs → x.mem.wf →
   (bs.length + w) / 8 < 2 ^ 32 → x.session.base.toNat + (bs.length + w) / 8 ≤ Config.memSize →
   (x.append v w).Holds (bs ++ msbBits v w) := by
  induction w with
  | zero => intro x bs h _ _ _; simpa [msbBits, Sink.append] using h
  | succ w ih =>
    intro x bs h hw hc hm
    have hb := holds_bits x bs h
    rw [msbBits_succ, Sink.append, List.append_cons]
    have hwf := Sink.appendBit_wf x (v.getLsbD w) hw (by rw [hb]; omega)
    refine ih _ _ (holds_appendBit x bs _ h hw (by omega)) hwf ?_ ?_
    · simp; omega
    · rw [(Sink.appendBit_fixed x _).2.1]; simp; omega

/-- Appending values extends the bit string by theirs, in order. -/
theorem holds_appendAll (w : Nat) (vs : List Word) : ∀ (x : Sink) (bs : List Bool), x.Holds bs → x.mem.wf →
   (bs.length + w * vs.length) / 8 < 2 ^ 32 → x.session.base.toNat + (bs.length + w * vs.length) / 8 ≤ Config.memSize →
   (x.appendAll w vs).Holds (bs ++ vs.flatMap (fun v => msbBits v w)) := by
  induction vs with
  | nil => intro x bs h _ _ _; simpa [Sink.appendAll] using h
  | cons v vs ih =>
    intro x bs h hw hc hm
    have hb := holds_bits x bs h
    rw [List.length_cons, Nat.mul_succ] at hc hm
    rw [List.flatMap_cons, ← List.append_assoc, Sink.appendAll]
    refine ih _ _ (holds_append v w x bs h hw (by omega) (by omega)) (Sink.append_mem v w x hw (by rw [hb]; omega) (by rw [hb]; omega)).1 ?_ ?_
    · rw [List.length_append, msbBits_length]; omega
    · rw [(Sink.append_fixed v w x).2.1, List.length_append, msbBits_length]; omega

theorem flatMap_msbBits_length (w : Nat) (vs : List Word) : (vs.flatMap (fun v => msbBits v w)).length = w * vs.length := by
  induction vs with
  | nil => rfl
  | cons v vs ih => rw [List.flatMap_cons, List.length_append, ih, msbBits_length, List.length_cons]; ring

/-- What closing leaves of a held bit string (41_bitwriter R131). -/
theorem close_holds (x : Sink) (bs : List Bool) (hw : x.mem.wf) (hh : x.Holds bs) (hc : (bs.length + 7) / 8 < 2 ^ 32) :
   x.close.session = { x.session with active := false, count := BitVec.ofNat 32 ((bs.length + 7) / 8), nacc := 0#3, acc := 0#7 } ∧
   (∀ k, k < bs.length → bs[k]? = some (streamBit x.close.mem x.session.base.toNat k)) ∧
   (∀ k, bs.length ≤ k → k < 8 * ((bs.length + 7) / 8) → streamBit x.close.mem x.session.base.toNat k = false) := by
  obtain ⟨h1, h2, h3, h4⟩ := hh
  have hdl : (bs.drop (8 * (bs.length / 8))).length = bs.length % 8 := by rw [List.length_drop]; omega
  have hval := bitsValue_lt (bs.drop (8 * (bs.length / 8)))
  rw [hdl] at hval
  rcases Sink.close_cases x with ⟨hn, e⟩ | ⟨hn, e⟩ <;> rw [e]
  · have : x.session.nacc.toNat = 0 := by rw [hn]; rfl
    refine ⟨?_, fun k hk => h4 k (by omega), fun k hk => by omega⟩
    simp only [Session.mk.injEq, true_and, and_true]
    apply BitVec.eq_of_toNat_eq
    rw [toNat_ofNat_small _ hc]; omega
  · have hn' : x.session.nacc.toNat ≠ 0 := fun h' => hn (BitVec.eq_of_toNat_eq h')
    have key : ∀ k, 8 * (bs.length / 8) ≤ k → k < 8 * ((bs.length + 7) / 8) →
        streamBit (x.mem.write x.session.cursor (BitVec.ofNat 8 (x.session.acc.toNat * 2 ^ (8 - x.session.nacc.toNat)))) x.session.base.toNat k = bs.getD k false := by
      intro k k1 k2
      simp only [streamBit]
      rw [Memory.read_write _ _ _ _ hw, if_pos (by simp only [Session.cursor]; omega), BitVec.getLsbD_ofNat]
      have : 7 - k % 8 < 8 := by omega
      simp only [this, decide_true, Bool.true_and]
      rw [← Nat.shiftLeft_eq, Nat.testBit_shiftLeft, h2]
      by_cases hk : k < bs.length
      · have q1 : 7 - k % 8 ≥ 8 - bs.length % 8 := by omega
        simp only [q1, decide_true, Bool.true_and]
        have kk := bitsValue_testBit (bs.drop (8 * (bs.length / 8))) (k - 8 * (bs.length / 8)) (by rw [hdl]; omega)
        rw [hdl, ← h3] at kk
        rw [show 7 - k % 8 - (8 - bs.length % 8) = bs.length % 8 - 1 - (k - 8 * (bs.length / 8)) by omega, kk]
        simp only [List.getD_eq_getElem?_getD, List.getElem?_drop]
        congr 2; omega
      · have q1 : ¬ (7 - k % 8 ≥ 8 - bs.length % 8) := by omega
        simp only [q1, decide_false, Bool.false_and]
        rw [List.getD_eq_default _ _ (by omega)]
    refine ⟨?_, fun k hk => ?_, fun k hk hk2 => ?_⟩
    · simp only [Session.mk.injEq, true_and, and_true]
      apply BitVec.eq_of_toNat_eq
      rw [toNat_ofNat_small _ hc, BitVec.toNat_add]; simp only [BitVec.toNat_ofNat]; omega
    · by_cases hb : k < 8 * (bs.length / 8)
      · rw [h4 k hb]; simp only [streamBit]
        rw [Memory.read_write _ _ _ _ hw, if_neg (by simp only [Session.cursor]; omega)]
      · rw [key k (by omega) (by omega), List.getD_eq_getElem?_getD, List.getElem?_eq_getElem hk]; rfl
    · rw [key k (by omega) hk2, List.getD_eq_default _ _ hk]

/-- A field over stream bits that spell a value is the value. -/
theorem field_of_bits (m : Memory) (bs : List Bool) (base : Nat) (h : ∀ k, k < bs.length → bs[k]? = some (streamBit m base k)) (v : Word) (w k : Nat) (hk : k + w ≤ bs.length)
   (hm : ∀ j, j < w → bs[k + j]? = some (v.getLsbD (w - 1 - j))) : field m base k w = v.toNat % 2 ^ w := by
  have : ∀ u, u ≤ w → field m base k u = v.toNat / 2 ^ (w - u) % 2 ^ u := by
    intro u
    induction u with
    | zero => intro _; simp [field, Nat.mod_one]
    | succ u ih =>
      intro hu
      rw [field_succ, ih (by omega)]
      have a1 := h (k + u) (by omega)
      rw [hm u (by omega)] at a1
      rw [← Option.some.inj a1]
      rw [BitVec.getLsbD, Nat.testBit_eq_decide_div_mod_eq]
      rw [show w - u = (w - 1 - u) + 1 by omega, show w - (u + 1) = w - 1 - u by omega]
      set x := v.toNat
      rw [Nat.pow_succ, ← Nat.div_div_eq_div_mul, Nat.pow_succ]
      set y := x / 2 ^ (w - 1 - u)
      rw [Nat.mul_comm (2 ^ u) 2, Nat.mod_mul]
      have := Nat.mod_two_eq_zero_or_one y
      rcases this with e | e <;> simp [e]
      omega
  simpa using this w (le_refl _)

theorem flatMap_msbBits_get (w : Nat) (vs : List Word) : ∀ (i j : Nat) (v : Word), vs[i]? = some v → j < w →
    (vs.flatMap (fun v => msbBits v w))[i * w + j]? = some (v.getLsbD (w - 1 - j)) := by
  induction vs with
  | nil => intro i j v h; simp at h
  | cons a vs ih =>
    intro i j v h hj
    rw [List.flatMap_cons]
    cases i with
    | zero =>
      simp only [List.getElem?_cons_zero, Option.some.injEq] at h; subst h
      rw [List.getElem?_append_left (by rw [msbBits_length]; omega)]
      simp [msbBits, hj]
    | succ i =>
      simp only [List.getElem?_cons_succ] at h
      rw [List.getElem?_append_right (by rw [msbBits_length, Nat.succ_mul]; omega), msbBits_length,
        show (i + 1) * w + j - w = i * w + j by rw [Nat.succ_mul]; omega]
      exact ih i j v h hj

/-- Successful BW.WRITE commands in a row append their values (41_bitwriter R128). -/
theorem writes_run (w : Word) (hw : w.toNat ≤ 25) (vs : List Word) : ∀ (s : State), s.session.wf → s.session.accFits → s.session.active = true →
   s.session.bytesNeeded (w.toNat * vs.length) ≤ s.session.cap.toNat →
   ∃ u, writesInTurn s w vs = .next u ∧ u.mem = (s.sink.appendAll w.toNat vs).mem ∧ u.session = (s.sink.appendAll w.toNat vs).session := by
  induction vs with
  | nil => intro s _ _ _ _; exact ⟨s, rfl, rfl, rfl⟩
  | cons v vs ih =>
    intro s hs hac ha hn
    set s0 := s.withOperands [v, w] with hs0
    have o1 : s0.opnd 1 = w.toNat := by rw [hs0, withOperands_opnd]; rfl
    have o0 : s0.snap[0] = v := withOperands_snap s [v, w] 0
    have e0 : s0.session = s.session := rfl
    have hn1 : s0.session.bytesNeeded (s0.opnd 1) ≤ s0.session.cap.toNat := by
      rw [o1, e0]; refine le_trans ?_ hn
      refine ceil8_mono ?_
      rw [List.length_cons, Nat.mul_succ]; omega
    have hch : writeChecks s0.session (s0.opnd 1) = none := (writeChecks_eq_none _ _).2 ⟨by rw [o1]; exact hw, hn1⟩
    have hf := Session.flushFits_of_wf _ _ (show s0.session.wf from hs) hn1
    have he : exec .bwWrite s0 = .next (s0.settle (s.sink.append v w.toNat)) := by
      rw [show s.sink = s0.sink from rfl]
      rw [e0] at hch hf; rw [← o1, ← o0]; simp [exec, execBwWrite, sessionCheck, e0, ha, hch, hf]
    obtain ⟨g1, g2⟩ := Machine.flush_bounds _ _ hf hn1
    rw [o1] at g1 g2 hn1
    obtain ⟨f1, f2, f3⟩ := Sink.append_fixed v w.toNat s.sink
    have fb := Sink.append_bits v w.toNat s.sink g2
    have hwf : (s.sink.append v w.toNat).session.wf := by
      refine ⟨by rw [f2, f3]; exact hs.1, ?_, Sink.append_accFits v w.toNat s.sink hac, ?_⟩
      · rw [Session.bytesNeeded_zero, fb, f3]; exact hn1
      · intro h; rw [f1] at h; rw [show s.sink.session.active = s.session.active from rfl, ha] at h; cases h
    obtain ⟨u, h1, h2, h3⟩ := ih (s0.settle (s.sink.append v w.toNat)) (by rw [State.settle_session]; exact hwf) (by rw [State.settle_session]; exact hwf.2.2.1) (by rw [State.settle_session, f1]; exact ha) (by
      rw [State.settle_session, f3, Session.bytesNeeded, fb]; refine le_trans (ceil8_mono ?_) hn
      rw [List.length_cons, Nat.mul_succ]
      have : s.sink.session.bits = s.session.bits := rfl
      omega)
    refine ⟨u, ?_, ?_, ?_⟩
    · rw [writesInTurn, ← hs0, he]; exact h1
    · rw [h2, sink_settle, Sink.appendAll]
    · rw [h3, sink_settle, Sink.appendAll]

end Sys2Proof.Machine
end

