-- ==== Sys2Proof/Laws/Agree.lean ====
section
/-! SUPPORT. Memories that agree on a region give the operations of the commands the same values there (20_memory R57). -/

namespace Sys2Proof.Machine

/-- The second memory agrees with the first on the region. -/
def AgreeOn (m m' : Memory) (r : Region) : Prop := ∀ a, r.has a = true → m'.read a = m.read a

theorem AgreeOn.bit {m m' : Memory} {b l : Nat} (h : AgreeOn m m' ⟨b, l⟩) (base k : Nat) (h1 : b ≤ base + k / 8) (h2 : base + k / 8 < b + l) : streamBit m' base k = streamBit m base k := by
  rw [streamBit, streamBit, h _ ((Region.has_iff _ _).2 ⟨h1, h2⟩)]

theorem AgreeOn.field {m m' : Memory} {b l : Nat} (h : AgreeOn m m' ⟨b, l⟩) (base k w : Nat) (h1 : b ≤ base + k / 8) (h2 : k + w ≤ 8 * (b + l - base)) (h3 : base ≤ b + l): field m' base k w = field m base k w := by
  apply field_congr
  intro j hj
  exact h.bit base (k+j) (by omega) (by omega)

theorem AgreeOn.be {m m' : Memory} {b l : Nat} (h : AgreeOn m m' ⟨b, l⟩) (a : Nat) : ∀ n, b ≤ a → a + n ≤ b + l → bigEndian m' a n = bigEndian m a n
  | 0, _, _ => rfl
  | n+1, h1, h2 => by
    rw [bigEndian, bigEndian, AgreeOn.be h a n h1 (by omega), h (a+n) ((Region.has_iff _ _).2 ⟨by show b ≤ _; omega, by show _ < b + l; omega⟩)]

theorem AgreeOn.besm {m m' : Memory} {b l : Nat} (h : AgreeOn m m' ⟨b, l⟩) (a n : Nat) (h1 : b ≤ a) (h2 : a + n ≤ b + l) : besm m' a n = besm m a n := by
  rw [Machine.besm, Machine.besm, h.be a n h1 h2]

theorem AgreeOn.le32 {m m' : Memory} {b l : Nat} (h : AgreeOn m m' ⟨b, l⟩) (a : Nat) (h1 : b ≤ a) (h2 : a + 4 ≤ b + l) : m'.le32 a = m.le32 a := by
  apply BitVec.eq_of_toNat_eq
  have hh : ∀ x, b ≤ x → x < b + l → m'.read x = m.read x := fun x y z => h x ((Region.has_iff _ _).2 ⟨y, z⟩)
  rw [le32_toNat, le32_toNat, hh a (by omega) (by omega), hh (a+1) (by omega) (by omega), hh (a+2) (by omega) (by omega), hh (a+3) (by omega) (by omega)]

/-- From the memories `m0` and `n0` to `m` and `n`: every byte is equal in both, or in both the byte that stood there. -/
def Follows (m0 n0 m n : Memory) : Prop :=
  ∀ a, n.read a = m.read a ∨ (n.read a = n0.read a ∧ m.read a = m0.read a)

theorem Follows.refl (m0 n0 : Memory) : Follows m0 n0 m0 n0 := fun _ => .inr ⟨rfl, rfl⟩

theorem Follows.write {m0 n0 m n : Memory} (h : Follows m0 n0 m n) (hm : m.wf) (hn : n.wf) (a : Nat) (b : Byte) :
    Follows m0 n0 (m.write a b) (n.write a b) := by
  intro x
  rw [Memory.read_write _ _ _ _ hm, Memory.read_write _ _ _ _ hn]
  split
  · exact .inl rfl
  · exact h x

/-- The same error, result and session, and memories that follow each other. -/
def SameResult (s : State) (m : Memory) (t u : State) : Prop :=
  u.err = t.err ∧ u.errInfo = t.errInfo ∧ u.res0 = t.res0 ∧ u.session = t.session ∧ Follows s.mem m t.mem u.mem

theorem rel_raise (s : State) (m : Memory) (r : Raise) : SameResult s m (s.raise r) (State.raise r { s with mem := m }) :=
  ⟨rfl, rfl, rfl, rfl, Follows.refl _ _⟩

theorem rel_abort (s : State) (m : Memory) (r : Raise) : SameResult s m (s.abort.raise r) (State.raise r (State.abort { s with mem := m })) :=
  ⟨rfl, rfl, rfl, rfl, Follows.refl _ _⟩

theorem rel_raiseFrom (s : State) (m : Memory) (d : Region) (r : Raise) (hw : s.mem.wf) (hm : m.wf) : SameResult s m (s.raiseFrom d r) (State.raiseFrom d r { s with mem := m }) := by
  unfold State.raiseFrom
  split
  · refine ⟨rfl, rfl, rfl, rfl, fun a => ?_⟩
    show (m.drawRegion s.draws d).read a = (s.mem.drawRegion s.draws d).read a ∨ ((m.drawRegion s.draws d).read a = _ ∧
      (s.mem.drawRegion s.draws d).read a = _)
    rw [Memory.read_drawRegion _ _ _ _ hw, Memory.read_drawRegion _ _ _ _ hm]
    split
    · exact .inl rfl
    · exact .inr ⟨rfl, rfl⟩
  · exact rel_raise s m r

theorem rel_deliver (s : State) (m : Memory) (d : Nat) (vs : List Word) (v) (hw : s.mem.wf) (hm : m.wf) (hd : d + 4 * vs.length ≤ 2^32) : SameResult s m (s.deliver d vs v) (State.deliver d vs v { s with mem := m }) := by
  refine ⟨rfl, rfl, rfl, rfl, fun a => ?_⟩
  show (m.storeWords d vs).read a = (s.mem.storeWords d vs).read a ∨ ((m.storeWords d vs).read a = _ ∧
    (s.mem.storeWords d vs).read a = _)
  rw [Memory.read_storeWords vs m d a hd hm, Memory.read_storeWords vs s.mem d a hd hw]
  split
  · exact .inl rfl
  · exact .inr ⟨rfl, rfl⟩

theorem sink_bit (x y : Sink) (b : Bool) (hs : y.session = x.session) (hx : x.mem.wf) (hy : y.mem.wf)  {m0 n0 : Memory} (h : Follows m0 n0 x.mem y.mem) :
   (y.appendBit b).session = (x.appendBit b).session ∧ Follows m0 n0 (x.appendBit b).mem (y.appendBit b).mem := by
  unfold Sink.appendBit
  simp only [hs]
  split
  · exact ⟨rfl, h.write hx hy _ _⟩
  · exact ⟨rfl, h⟩

theorem sink_append (v : Word) (m0 n0 : Memory) (w : Nat) : ∀ (x y : Sink), y.session = x.session → x.mem.wf → y.mem.wf → (x.session.bits + w) / 8 < 2^32 → x.session.base.toNat + (x.session.bits + w) / 8 ≤ Config.memSize → Follows m0 n0 x.mem y.mem →
   (y.append v w).session = (x.append v w).session ∧ Follows m0 n0 (x.append v w).mem (y.append v w).mem := by
  induction w with
  | zero => intro x y h1 _ _ _ _ h2; exact ⟨h1, h2⟩
  | succ w ih =>
    intro x y hs hx hy hb hc h
    obtain ⟨g1, g2⟩ := sink_bit x y (v.getLsbD w) hs hx hy h
    have hbits := Sink.appendBit_bits x (v.getLsbD w) (by omega)
    have hbase := (Sink.appendBit_fixed x (v.getLsbD w)).2.1
    refine ih _ _ g1 (Sink.appendBit_wf x _ hx (by omega)) (Sink.appendBit_wf y _ hy (by rw [hs]; omega)) (by rw [hbits]; omega) (by rw [hbits, hbase]; omega) g2

theorem sink_all (m0 n0 : Memory) (w : Nat) (vs : List Word) : ∀ (x y : Sink), y.session = x.session → x.mem.wf → y.mem.wf → (x.session.bits + w * vs.length) / 8 < 2^32 → x.session.base.toNat + (x.session.bits + w * vs.length) / 8 ≤ Config.memSize → Follows m0 n0 x.mem y.mem →
   (y.appendAll w vs).session = (x.appendAll w vs).session ∧ Follows m0 n0 (x.appendAll w vs).mem (y.appendAll w vs).mem := by
  induction vs with
  | nil => intro x y h1 _ _ _ _ h2; exact ⟨h1, h2⟩
  | cons v vs ih =>
    intro x y hs hx hy hb hc h
    rw [List.length_cons, Nat.mul_succ] at hb hc
    obtain ⟨g1, g2⟩ := sink_append v m0 n0 w x y hs hx hy (by omega) (by omega) h
    have hbits := Sink.append_bits v w x (by omega)
    have hbase := (Sink.append_fixed v w x).2.1
    refine ih _ _ g1 (Sink.append_mem v w x hx (by omega) (by omega)).1 (Sink.append_mem v w y hy (by rw [hs]; omega) (by rw [hs]; omega)).1 (by rw [hbits]; omega) (by rw [hbits, hbase]; omega) g2

theorem sink_close (x y : Sink) (hs : y.session = x.session) (hx : x.mem.wf) (hy : y.mem.wf)  {m0 n0 : Memory} (h : Follows m0 n0 x.mem y.mem) :
   y.close.session = x.close.session ∧ Follows m0 n0 x.close.mem y.close.mem := by
  unfold Sink.close
  simp only [hs]
  split
  · exact ⟨rfl, h⟩
  · exact ⟨rfl, h.write hx hy _ _⟩

theorem rel_settle (s : State) (m : Memory) (x y : Sink) (h1 : y.session = x.session) (h2 : Follows s.mem m x.mem y.mem) :
    SameResult s m (s.settle x) (State.settle y { s with mem := m }) := by
  refine ⟨rfl, rfl, ?_, h1, h2⟩
  show BitVec.ofNat 32 y.session.count.toNat = BitVec.ofNat 32 x.session.count.toNat
  rw [h1]

theorem desc_agree (o : GroupOps) (m m' : Memory) (b size : Nat) (h : AgreeOn m m' ⟨b, size⟩) (hs : o.headerBytes ≤ size) (g : Nat) (hg : g < o.ng) :
   o.ref m' b g = o.ref m b g ∧ o.width m' b g = o.width m b g ∧ o.length m' b g = o.length m b g := by
  have key : ∀ n w, g < n → g * w + w ≤ 8 * ceil8 (n * w) := by
    intro n w hgn
    have : (g + 1) * w ≤ n * w := Nat.mul_le_mul_right _ hgn
    rw [Nat.succ_mul] at this
    unfold ceil8; omega
  have e : o.headerBytes = o.bRef + o.bWid + o.bLen := rfl
  refine ⟨?_, ?_, ?_⟩
  · have := key o.ng o.nbits hg
    have e1 : o.bRef = ceil8 (o.ng * o.nbits) := rfl
    exact h.field _ _ _ (by omega) (by omega) (by omega)
  · have := key o.ng o.nbgw hg
    have e1 : o.bWid = ceil8 (o.ng * o.nbgw) := rfl
    unfold GroupOps.width
    rw [h.field _ _ _ (by omega) (by omega) (by omega)]
  · unfold GroupOps.length
    split
    · rename_i hn
      have := key o.nlen o.nbgl hn
      have e1 : o.bLen = ceil8 (o.nlen * o.nbgl) := rfl
      rw [h.field _ _ _ (by omega) (by omega) (by omega)]
    · rfl

/-- The group decoding reads only its section. -/
theorem core_agree (o : GroupOps) (m m' : Memory) (b size : Nat) (h : AgreeOn m m' ⟨b, size⟩) : gdCore o m' b size = gdCore o m b size := by
  by_cases hs : size < o.headerBytes
  · simp [gdCore, coreChecks, check, hs]
  have hs' : o.headerBytes ≤ size := by omega
  have hd : o.descriptors m' b = o.descriptors m b := by
    unfold GroupOps.descriptors
    apply List.map_congr_left
    intro g hg
    obtain ⟨a1, a2, a3⟩ := desc_agree o m m' b size h hs' g (by simpa using hg)
    rw [a1, a2, a3]
  unfold gdCore
  simp only [hd]
  cases hc : coreChecks o size (o.descriptors m b) with
  | some r => rfl
  | none =>
    have hx : extract (layout o.headerBytes (o.descriptors m b) 0 0) m' b o.mvm o.nbits = extract (layout o.headerBytes (o.descriptors m b) 0 0) m b o.mvm o.nbits := by
      have htot : o.headerBytes + ceil8 (o.position m b o.ng) = size := by
        have h1 := (firstFailure_eq_none _).1 hc
        have h2 := h1 (check (totalA o.headerBytes (o.descriptors m b) ≠ size || totalB o.headerBytes (o.descriptors m b) ≠ size) .size
          (sat32 (totalA o.headerBytes (o.descriptors m b)))) (by simp)
        rw [check_eq_none] at h2
        simp at h2
        rw [← totalBits_eq]; exact h2.1
      have hstart : ∀ g, o.start m' b g = o.start m b g ∨ o.ng < g := by
        intro g
        by_cases hg : o.ng < g
        · exact .inr hg
        · left
          rw [← start_take o m' b g (by omega), ← start_take o m b g (by omega), hd]
      have hl := extract_length_start o m b
      have hl' := extract_length_start o m' b
      rw [hd] at hl'
      apply List.ext_getElem?
      intro i
      by_cases hi : i < o.start m b o.ng
      · obtain ⟨g, hg, k, hk, e⟩ := index_split _ _ _ hi
        have x1 := extract_get o m b g k hg hk
        obtain ⟨a1, a2, a3⟩ := desc_agree o m m' b size h hs' g hg
        have x2 := extract_get o m' b g k hg (by rw [a3]; exact hk)
        have hst : o.start m' b g = o.start m b g := by
          rcases hstart g with h | h
          · exact h
          · omega
        rw [hd, hst] at x2
        rw [show i = o.start m b g + k from e, x1, x2]
        congr 1
        have hp : o.position m' b g = o.position m b g := by
          rw [← pos_take o m' b g (by omega), ← pos_take o m b g (by omega), hd]
        unfold GroupOps.slotAt
        rw [a1, a2, hp]
        congr 1
        have hle : o.position m b g + o.length m b g * o.width m b g ≤ o.position m b o.ng := by
          have : o.position m b g + o.length m b g * o.width m b g = o.position m b (g+1) := by
            unfold GroupOps.position; rw [Finset.sum_range_succ]
          rw [this]
          unfold GroupOps.position
          exact Finset.sum_le_sum_of_subset (Finset.range_mono hg)
        have hkw : k * o.width m b g + o.width m b g ≤ o.length m b g * o.width m b g := by
          rw [← Nat.succ_mul]; exact Nat.mul_le_mul_right _ hk
        unfold ceil8 at htot
        exact h.field _ _ _ (by omega) (by omega) (by omega)
      · have hst := hstart o.ng
        rw [List.getElem?_eq_none (by rw [hl']; rcases hst with h | h <;> omega), List.getElem?_eq_none (by omega)]
    rw [hx]

/-- SD.DECODE reads only its section. -/
theorem diff_agree (o : GroupOps) (order eow : Nat) (m m' : Memory) (h : AgreeOn m m' ⟨o.payload, o.size⟩) (hs : (order + 1) * eow ≤ o.size) (ho : order = 1 ∨ order = 2) :
   diffCore o order eow m' = diffCore o order eow m := by
  have hsub : AgreeOn m m' ⟨o.payload + (order + 1) * eow, o.size - (order + 1) * eow⟩ := by
    intro a ha
    rw [Region.has_iff] at ha
    simp only at ha
    exact h a ((Region.has_iff _ _).2 ⟨by show o.payload ≤ a; omega, by show a < o.payload + o.size; omega⟩)
  have hr : readSeeds m' o.payload order eow = readSeeds m o.payload order eow := by
    unfold readSeeds
    rcases ho with rfl | rfl
    · rw [if_neg (by decide), if_neg (by decide), h.besm _ _ (by omega) (by omega), h.besm _ _ (by omega) (by omega)]
    · rw [h.besm _ _ (by omega) (by omega), h.besm _ _ (by omega) (by omega), h.besm _ _ (by omega) (by omega)]
  unfold diffCore
  simp only [core_agree o m m' _ _ hsub, hr]

theorem scatter_agree (m m' : Memory) (c nc : Nat) (h : AgreeOn m m' ⟨c, 4 * nc⟩) (bs : List Bool) : ∀ j, j + setBits bs ≤ nc → scatter m' c bs j = scatter m c bs j := by
  induction bs with
  | nil => intro j _; rfl
  | cons b bs ih =>
    intro j hj
    cases b
    · rw [scatter, scatter, ih j (by simpa [setBits] using hj)]
    · have : setBits (true :: bs) = setBits bs + 1 := by simp [setBits]
      rw [this] at hj
      rw [scatter, scatter, ih (j+1) (by omega), h.le32 _ (by omega) (by omega)]

end Sys2Proof.Machine
end

