-- ==== Sys2Proof/Laws/Step.lean ====
section
/-! SUPPORT. What one step can be, said once, and what a Host move can do to the block. -/

namespace Sys2Proof.Machine

@[simp] theorem nextMove_takeTurn (s : State) : s.takeTurn.nextMove? = s.nextMove? := rfl

@[simp] theorem following_takeTurn (m : HostMove) (s : State) : s.takeTurn.following m = s.following m := by cases m <;> rfl

/-- The footprints do not depend on the schedule. -/
theorem readRegions_takeTurn (i : Instr) (s : State) : readRegions i s.takeTurn = readRegions i s := by
  cases i <;> rfl

theorem readsDevice_takeTurn (s : State) : s.takeTurn.readsDevice = s.readsDevice := by
  unfold State.readsDevice State.running
  rw [State.takeTurn_busy, State.takeTurn_cmdLatch, State.takeTurn_devices]
  cases decode s.cmdLatch with
  | error e => rfl
  | ok i => simp only [readRegions_takeTurn]

/-- It is the platform's turn exactly when the schedule says so, whatever the block and the Host are doing. -/
theorem turn_platform (s : State) : s.turn = some .platform ↔ s.schedule.head? = some .platform := by
  unfold State.turn
  split
  · simp [*]
  · split <;> [skip; split] <;> simp [*]

/-- It is the Host's turn when the platform leaves it, the Host has a move, and it need not wait for the Engine. -/
theorem turn_host (s : State) : s.turn = some .host ↔
    s.schedule.head? ≠ some .platform ∧ (∃ m, s.nextMove? = some m) ∧
      (s.busy = false ∨ s.schedule.head? = some .host) := by
  unfold State.turn
  rw [← Option.isSome_iff_exists]
  cases s.nextMove?.isSome <;> cases s.busy <;> by_cases h : s.schedule.head? = some .platform <;>
    by_cases g : s.schedule.head? = some .host <;> simp_all

/-- It is the Engine's turn when a command runs and neither of the others has the turn. -/
theorem turn_engine (s : State) : s.turn = some .engine ↔
    s.busy = true ∧ s.schedule.head? ≠ some .platform ∧ (s.nextMove? = none ∨ s.schedule.head? ≠ some .host) := by
  unfold State.turn
  cases s.nextMove? <;> cases s.busy <;> by_cases h : s.schedule.head? = some .platform <;>
    by_cases g : s.schedule.head? = some .host <;> simp_all

/-- It is no one's turn when the block is idle, the Host has no move and the platform asserts no reset. -/
theorem turn_none (s : State) : s.turn = none ↔
    s.busy = false ∧ s.schedule.head? ≠ some .platform ∧ s.nextMove? = none := by
  unfold State.turn
  cases s.nextMove? <;> cases s.busy <;> by_cases h : s.schedule.head? = some .platform <;>
    by_cases g : s.schedule.head? = some .host <;> simp_all

/-- On the Host's turn a step is the effect of its next move, in the state in which the Host has gone on from it. -/
theorem step_of_host (s : State) (m : HostMove) (h : s.turn = some .host) (hm : s.nextMove? = some m) :
    step s = hostMove m { s.takeTurn with position := s.following m } := by
  simp [step, h, hostStep, hm]

theorem step_of_platform (s : State) (h : s.turn = some .platform) : step s = .next s.takeTurn.platformReset := by
  simp [step, h]

theorem step_of_engine (s : State) (h : s.turn = some .engine) : step s = complete s.takeTurn := by
  simp [step, h]

/-- One step is one of four things: a platform reset, a Host move, a completion, or nothing. -/
theorem step_cases (s : State) :
    (s.turn = some .platform ∧ step s = .next s.takeTurn.platformReset) ∨
    (s.turn = some .host ∧ ∃ m, s.nextMove? = some m ∧ step s = hostMove m { s.takeTurn with position := s.following m }) ∨
    (s.turn = some .engine ∧ s.busy = true ∧ step s = complete s.takeTurn) ∨
    (s.turn = none ∧ s.busy = false ∧ step s = .next s.takeTurn) := by
  cases h : s.turn with
  | none => exact .inr (.inr (.inr ⟨rfl, ((turn_none s).1 h).1, by simp [step, h]⟩))
  | some a =>
    cases a with
    | platform => exact .inl ⟨rfl, step_of_platform s h⟩
    | host =>
      obtain ⟨-, ⟨m, hm⟩, -⟩ := (turn_host s).1 h
      exact .inr (.inl ⟨rfl, m, hm, step_of_host s m h hm⟩)
    | engine => exact .inr (.inr (.inl ⟨rfl, ((turn_engine s).1 h).1, step_of_engine s h⟩))

/-- A completion is one of three things: E_ILLEGAL, the refusal for a device, or the decoded command. -/
theorem complete_cases (s : State) :
    (∃ e, decode s.cmdLatch = .error e ∧ complete s = .next (s.raise ⟨.illegal, s.cmdLatch.toNat⟩)) ∨
    (∃ i, decode s.cmdLatch = .ok i ∧ s.readsDevice = true ∧ complete s = .refused .deviceInReadFootprint) ∨
    (∃ i, decode s.cmdLatch = .ok i ∧ s.readsDevice = false ∧ complete s = exec i s) := by
  cases hd : decode s.cmdLatch with
  | error e => exact .inl ⟨e, rfl, by simp [complete, hd]⟩
  | ok i =>
    refine .inr ?_
    cases hr : s.readsDevice with
    | true => exact .inl ⟨i, rfl, rfl, by simp [complete, hd, hr]⟩
    | false => exact .inr ⟨i, rfl, rfl, by simp [complete, hd, hr]⟩

/-- An aligned 32-bit access inside the block reaches the register of its word. -/
theorem registerAccess_word (w : Nat) (h : w < 32) : registerAccess (4 * w) 4 = .ok (regOfWord w) := by
  unfold registerAccess
  rw [if_neg (by omega), if_neg (by simp only [Config.blockSize]; omega), Nat.mul_div_cancel_left _ (by omega)]

theorem regOfWord_arg (i : Fin 16) : regOfWord (16 + i.val) = .arg i := by
  unfold regOfWord
  rw [if_neg (by omega)]
  congr 1
  ext
  simp [Fin.ofNat]

/-- The schedule and the Host's place in its program are the business of `step` alone: the effect of a move leaves them. -/
theorem hostMove_keeps (m : HostMove) (s t : State) (h : hostMove m s = .next t) :
    t.schedule = s.schedule ∧ t.program = s.program ∧ t.position = s.position := by
  cases m with
  | regRead off sz =>
    simp only [hostMove] at h
    split at h <;> simp only [Host.Outcome.next.injEq, reduceCtorEq] at h
    subst h; exact ⟨rfl, rfl, rfl⟩
  | regWrite off sz v =>
    simp only [hostMove] at h
    split at h <;> simp only [Host.Outcome.next.injEq, reduceCtorEq] at h
    subst h
    rename_i r _
    cases r <;> try exact ⟨rfl, rfl, rfl⟩
    simp only [State.hostWrite, State.submit]; split <;> exact ⟨rfl, rfl, rfl⟩
  | memRead a =>
    simp only [hostMove, Host.Outcome.next.injEq] at h; subst h
    simp only [State.hostLoad]; split <;> exact ⟨rfl, rfl, rfl⟩
  | memWrite a b =>
    simp only [hostMove] at h
    split at h <;> simp only [Host.Outcome.next.injEq, reduceCtorEq] at h
    subst h; exact ⟨rfl, rfl, rfl⟩
  | wait => simp only [hostMove, Host.Outcome.next.injEq] at h; subst h; exact ⟨rfl, rfl, rfl⟩
  | check n => simp only [hostMove, Host.Outcome.next.injEq] at h; subst h; exact ⟨rfl, rfl, rfl⟩

/-- The Host never makes the machine fault. -/
theorem hostMove_not_fault (m : HostMove) (s : State) (f : Fault) : hostMove m s ≠ .fault f := by
  cases m <;> simp only [hostMove] <;> (try split) <;> simp

/-- MMIO_BASE is 4-byte aligned, so a host address is aligned exactly when its offset is (10_state R23; log 6). -/
theorem hostAddress_aligned (off : Nat) : Config.hostAddress off % 4 = 0 ↔ off % 4 = 0 := by
  simp only [Config.hostAddress, Config.mmioBase]; omega

/-- MAX_GROUPS is at least 1 (00_scope R6; log 5). -/
theorem maxGroups_pos : 1 ≤ Config.maxGroups := le_max_left _ _

end Sys2Proof.Machine
end

