-- ==== Sys2Proof/Laws/Lines.lean ====
section
/-! SUPPORT. The register words as numbers, and the Host moves of a command instance (30_encoding R78). -/

namespace Sys2Proof.Machine

/-- STATUS as a number (10_state R25). -/
theorem statusWord_toNat (s : State) : s.statusWord.toNat = s.busy.toNat + 2 * s.done.toNat + 4 * (if s.err = .none then 0 else 1)
        + 8 * s.ovr.toNat + 16 * s.session.active.toNat := by
  have he : s.errorFlag = !(decide (s.err = .none)) := by
    unfold State.errorFlag
    by_cases h : s.err = .none
    · simp [h, ErrCode.number]
    · simp [h, number_eq_zero]
  unfold State.statusWord
  rw [he]
  by_cases h : s.err = .none <;> simp only [h] <;>
  cases s.busy <;> cases s.done <;> cases s.ovr <;> cases s.session.active <;> decide

/-- BW_PART as a number (10_state R34). -/
theorem partWord_toNat (b : Session) : b.partWord.toNat = b.acc.toNat * 2 ^ 8 + b.nacc.toNat := by
  unfold Session.partWord
  simp only [BitVec.toNat_append, BitVec.toNat_ofNat]
  have h1 := b.acc.isLt
  have h2 := b.nacc.isLt
  simp only [Nat.shiftLeft_eq]
  rw [Nat.or_comm _ b.nacc.toNat]
  have : (0 % 2 ^ 17 * 2 ^ 7 ||| b.acc.toNat) = b.acc.toNat := by simp
  rw [this]
  simp
  rw [Nat.or_comm, ← Nat.shiftLeft_eq _ 3, ← Nat.shiftLeft_add_eq_or_of_lt h2, Nat.shiftLeft_eq]
  omega

/-- How many moves a line expands to does not depend on where its label is. -/
theorem expand_length (place : Nat → Nat) (l : HostLine) : (l.expand place).length = l.size := by
  cases l <;> simp [HostLine.size, HostLine.expand]

theorem covers_append (a b : List Region) (x : Nat) : covers (a ++ b) x = (covers a x || covers b x) := by simp [covers]

theorem argWrites_cons (i v vs) : argWrites i (v :: vs) = (argOffset i, BitVec.ofNat 32 v) :: argWrites (i+1) vs := by
  simp only [argWrites, List.mapIdx_cons, Nat.add_zero]
  congr 1
  congr 1; funext j v; rw [show i + (j+1) = i + 1 + j by omega]

/-- The ARG writes hold operand j at ARGj. -/
theorem argWrites_lookup (vs : List Nat) : ∀ (i j : Nat), j < vs.length → (argWrites i vs).lookup (argOffset (i + j)) = (vs[j]?).map (BitVec.ofNat 32) := by
  induction vs with
  | nil => intro i j h; simp at h
  | cons v vs ih =>
    intro i j h
    rw [argWrites_cons]
    cases j with
    | zero => simp [List.lookup]
    | succ j =>
      have : (argOffset (i + (j+1)) == argOffset i) = false := by simp [argOffset]
      rw [List.lookup_cons, this, List.getElem?_cons_succ, ← ih (i+1) j (by simpa using h), show i + (j+1) = i + 1 + j by omega]

theorem lookup_append (a b : List (Nat × Word)) (k : Nat) (v) (h : a.lookup k = some v) : (a ++ b).lookup k = some v := by
  induction a with
  | nil => simp at h
  | cons x a ih =>
    obtain ⟨x1, x2⟩ := x
    rw [List.cons_append, List.lookup_cons]
    rw [List.lookup_cons] at h
    cases e : (k == x1)
    · rw [e] at h; exact ih h
    · rw [e] at h; exact h

theorem arg_move (s : State) (i : Fin 16) (v : Nat) : hostMove (mmioWrite (argOffset i.val, BitVec.ofNat 32 v)) s = .next { s with args := s.args.set i (BitVec.ofNat 32 v) } := by
  have := registerAccess_word (16 + i.val) (by omega)
  rw [regOfWord_arg, show 4 * (16 + i.val) = 0x40 + 4 * i.val by omega] at this
  simp only [hostMove, mmioWrite, argOffset, this, State.hostWrite]

/-- The Host moves of ARG writes change those ARG registers alone. -/
theorem arg_moves (vs : List Nat) : ∀ (i : Nat) (s : State) (rest : List HostMove), i + vs.length ≤ 16 →
   ∃ a : Vector Word 16, hostMoves ((argWrites i vs).map mmioWrite ++ rest) s = hostMoves rest { s with args := a } ∧
    (∀ j : Fin 16, i ≤ j.val → j.val < i + vs.length → a[j] = BitVec.ofNat 32 (vs.getD (j.val - i) 0)) ∧ (∀ j : Fin 16, (j.val < i ∨ i + vs.length ≤ j.val) → a[j] = s.args[j]) := by
  induction vs with
  | nil => intro i s rest _; exact ⟨s.args, rfl, fun j h1 h2 => by simp at h2; omega, fun j _ => rfl⟩
  | cons v vs ih =>
    intro i s rest h
    simp only [List.length_cons] at h
    have hm := arg_move s ⟨i, by omega⟩ v
    simp only at hm
    obtain ⟨a, h1, h2, h3⟩ := ih (i+1) { s with args := s.args.set i (BitVec.ofNat 32 v) (by omega) } rest (by omega)
    refine ⟨a, ?_, ?_, ?_⟩
    · rw [argWrites_cons, List.map_cons, List.cons_append, hostMoves, hm]; exact h1
    · intro j j1 j2
      simp only [List.length_cons] at j2
      by_cases e : j.val = i
      · rw [h3 j (by omega)]
        simp only [Fin.getElem_fin, e, Nat.sub_self]
        simp
      · rw [h2 j (by omega) (by omega)]
        rw [show j.val - i = (j.val - (i+1)) + 1 by omega]; simp
    · intro j hj
      simp only [List.length_cons] at hj
      rw [h3 j (by omega)]
      simp only [Fin.getElem_fin]
      rw [Vector.getElem_set_ne]; omega

theorem cmd_move (s : State) (w : Word) (hb : s.busy = false) : hostMoves [mmioWrite (cmdOffset, w)] s = .next (s.accept w) := by
  show hostMoves [.regWrite 0x04 4 w] s = _
  have : hostMove (.regWrite 0x04 4 w) s = .next (s.submit w) := rfl
  simp only [hostMoves, this, State.submit, hb]; rfl

theorem arity_le (i : Instr) : i.arity ≤ 16 := by cases i <;> decide

end Sys2Proof.Machine
end

