-- ==== Sys2Proof/Laws/PerInstr.lean ====
section
/-! SUPPORT. What holds of every command as syntax: its row of the opcode map (30_encoding R70, R72, R73). -/

namespace Sys2Proof.Laws.OpcodeRow

/-- The command has the row of its opcode in the map, its word carries that opcode and RSV = 0, and it lists at most
sixteen operands. -/
def Statement (i : Instr) : Prop :=
  (i.opcode, i) ∈ opcodeMap ∧ opcField (encode i) = i.opcode ∧ rsvField (encode i) = 0#24 ∧ i.arity ≤ 16

theorem brRead : Statement .brRead := by unfold Statement; decide
theorem brReadf : Statement .brReadf := by unfold Statement; decide
theorem bwOpen : Statement .bwOpen := by unfold Statement; decide
theorem bwWrite : Statement .bwWrite := by unfold Statement; decide
theorem bwWriteb : Statement .bwWriteb := by unfold Statement; decide
theorem bwClose : Statement .bwClose := by unfold Statement; decide
theorem gdDecode : Statement .gdDecode := by unfold Statement; decide
theorem sdDecode : Statement .sdDecode := by unfold Statement; decide
theorem bmExpand : Statement .bmExpand := by unfold Statement; decide

end Sys2Proof.Laws.OpcodeRow
end

