-- ==== Sys2Proof/Tests/Slice0.lean ====
section
/-! SUPPORT. Tests of the model, their results taken from the spec (95_test_vectors, 30_encoding), and for each statement
with hypotheses a witness that meets them together, one for each clause. -/

namespace Sys2Proof.Tests
open Sys2Proof Sys2Proof.Machine

/-! ### Helpers -/

/-- The state of a next outcome. -/
def state? : Host.Outcome State Fault Refusal → Option State
  | .next t    => some t
  | .fault _   => none
  | .refused _ => none

/-- Memory with the listed bytes from an address. -/
def bytes (m : Memory) (a : Nat) : List Nat → Memory
  | [] => m
  | b :: bs => bytes (m.write a (BitVec.ofNat 8 b)) (a + 1) bs

/-- A state with the given memory, operands in the snapshot. -/
def st (m : Memory) (ops : List Nat) : State :=
  { State.reset.withOperands (ops.map (BitVec.ofNat 32)) with mem := m }

/-- A state with an open session. -/
def writing (m : Memory) (ops : List Nat) (base cap count nacc acc : Nat) : State :=
  { st m ops with session :=
      { active := true, base := BitVec.ofNat 32 base, cap := BitVec.ofNat 32 cap, count := BitVec.ofNat 32 count,
        nacc := BitVec.ofNat 3 nacc, acc := BitVec.ofNat 7 acc } }

/-- Error number, ERR_INFO, RES0 and n words of memory after an outcome. -/
def seen (o : Host.Outcome State Fault Refusal) (a n : Nat) : Option (Nat × Nat × Nat × List Nat) :=
  (state? o).map (fun t =>
    (t.err.number.toNat, t.errInfo.toNat, t.res0.toNat, (t.mem.loadWords a n).map BitVec.toNat))

/-- As `seen`, with BW_COUNT, BW_PART and one byte. -/
def wrote (o : Host.Outcome State Fault Refusal) (a : Nat) : Option (Nat × Nat × Nat × Nat × Nat) :=
  (state? o).map (fun t =>
    (t.err.number.toNat, t.res0.toNat, t.session.count.toNat, t.session.partWord.toNat, (t.mem.read a).toNat))

/-! ### Decoding and encoding -/

/-- BitReader words written out from R70 and R73: OPC in bits 7:0, RSV 0. -/
theorem test_decode_br : decode 0b00000000000000000000000000000001#32 = .ok .brRead ∧
    decode 0b00000000000000000000000000000010#32 = .ok .brReadf := ⟨rfl, rfl⟩

/-- BitWriter words. -/
theorem test_decode_bw : decode 0b00000000000000000000000000010000#32 = .ok .bwOpen ∧
    decode 0b00000000000000000000000000010001#32 = .ok .bwWrite ∧
    decode 0b00000000000000000000000000010010#32 = .ok .bwWriteb ∧
    decode 0b00000000000000000000000000010011#32 = .ok .bwClose := ⟨rfl, rfl, rfl, rfl⟩

/-- GroupDecoder, differencing and bitmap words. -/
theorem test_decode_gd_sd_bm : decode 0b00000000000000000000000000100000#32 = .ok .gdDecode ∧
    decode 0b00000000000000000000000000100001#32 = .ok .sdDecode ∧
    decode 0b00000000000000000000000000110000#32 = .ok .bmExpand := ⟨rfl, rfl, rfl⟩

/-- Vectors ENC-1 to ENC-4. -/
theorem test_decode_illegal : decode 0x00000000#32 = .error .unassignedOpcode ∧
    decode 0x00000003#32 = .error .unassignedOpcode ∧ decode 0x00000101#32 = .error .reservedBitsSet ∧
    decode 0x000000FF#32 = .error .unassignedOpcode := ⟨rfl, rfl, rfl, rfl⟩

/-- The table word of a row, at the table's 32 bits. -/
theorem test_table_word : decodeTableWord 32 0x21 = some .sdDecode ∧ decodeTableWord 32 0x121 = none := by decide

/-- The encoding list of BW.OPEN in program P1 (`.keep`). -/
theorem test_line_keep : encodeLine ⟨.bwOpen, [0x3000, 8], true⟩ = [(0x40, 0x3000#32), (0x44, 8#32), (0x04, 0x10#32)] := by
  decide

/-- R78: without `.keep` the ignored ARG registers are written 0 before CMD. -/
theorem test_line_full : (encodeLine ⟨.bwWrite, [5, 3], false⟩).length = 17 ∧
    (encodeLine ⟨.bwWrite, [5, 3], false⟩)[2]? = some (0x48, 0#32) ∧
    (encodeLine ⟨.bwWrite, [5, 3], false⟩)[15]? = some (0x7C, 0#32) ∧
    (encodeLine ⟨.bwWrite, [5, 3], false⟩)[16]? = some (0x04, 0x11#32) := by decide

/-! ### Well-formedness -/

theorem test_wf_good : (CommandLine.mk .brRead [0x1000, 0, 3, 5, 0x2000] false).wf = true := by decide
theorem test_wf_too_few : (CommandLine.mk .brRead [0x1000, 0, 3, 5] false).wf = false := by decide
theorem test_wf_too_many : (CommandLine.mk .bwClose [0] true).wf = false := by decide
theorem test_wf_operand_range : (CommandLine.mk .bwOpen [0x1000, 2 ^ 32] false).wf = false := by decide
theorem test_wf_line : (HostLine.command ⟨.bwWrite, [2 ^ 32, 1], false⟩).wf 1 = false ∧ HostLine.wait.wf 1 = true := by decide
theorem test_wf_label : hostProgramWf [.check 1] = true ∧ hostProgramWf [.check 2] = false := by decide

/-! ### One step -/

/-- A decoded word runs as the first command after reset (vector ENC-5: BW.CLOSE with no session). -/
theorem test_step_close : (state? (step (State.reset.withFetchWord 32 0x13))).map (fun t => (t.err, t.errInfo, t.done)) =
    some (.session, 0#32, true) := by decide

/-- Vector ENC-3: RSV ≠ 0. -/
theorem test_step_illegal : (state? (step (State.reset.withFetchWord 32 0x101))).map (fun t => (t.err, t.errInfo, t.busy)) =
    some (.illegal, 0x101#32, false) := by decide

/-- 10_state R37: a CMD write while a command runs only sets OVR. -/
theorem test_step_overrun :
    (state? (step { State.reset with busy := true, schedule := [.host], program := [.regWrite 0x04 4 0x30#32] })).map
      (fun t => (t.ovr, t.busy, t.cmdLatch)) = some (true, true, 0#32) := by decide

/-- 70_reset R230: a reset on the Engine's first chance, while the Host polls: no completion happens. -/
theorem test_step_reset :
    (state? (step { State.reset.withFetchWord 32 0x01 with ovr := true, program := [.wait], schedule := [.platform, .host] })).map
      (fun t => (t.busy, t.done, t.ovr, t.program, t.schedule)) = some (false, false, false, [.wait], [.host]) := by decide

/-- 30_encoding R78: the labels of a host program, one forward to the acknowledgement and one back to the start. -/
theorem test_program_labels : hostProgram [.command ⟨.bwClose, [], true⟩, .check 3, .check 0, .ack] =
    [.regWrite 0x04 4 0x13#32, .wait, .check 4, .check 0, .regWrite 0x08 4 0x0A#32] := by decide

/-- 30_encoding R78: `cpc.check` goes back to an earlier move on E_WIDTH, and on without an error. -/
theorem test_check_back :
    (state? (step { State.reset with err := .width, program := [.wait, .check 0], position := 1 })).map
      (fun t => (t.position, t.replies)) = some (0, [.word 2#32]) ∧
    (state? (step { State.reset with program := [.wait, .check 0], position := 1 })).map
      (fun t => (t.position, t.replies)) = some (2, [.word 0#32]) := by decide

/-! ### The commands (vectors of 95_test_vectors) -/

/-- BR-2. -/
theorem test_br_read : seen (exec .brRead (st (bytes [] 0x1000 [0xB5, 0x3C]) [0x1000, 3, 5, 2, 0x2000])) 0x2000 2 =
    some (0, 0, 2, [21, 7]) := by decide

/-- BR-3: the widest span. -/
theorem test_br_read_wide :
    seen (exec .brRead (st (bytes [] 0x1000 [0x01, 0xFF, 0xFF, 0xFF, 0xFF]) [0x1000, 7, 31, 1, 0x2000])) 0x2000 1 =
      some (0, 0, 5, [0x7FFFFFFF]) := by decide

/-- BRF-4. -/
theorem test_br_readf : seen (exec .brReadf (st (bytes [] 0x1000 [0x1F]) [0x1000, 0, 4, 2, 0x2000])) 0x2000 2 =
    some (0, 0, 1, [0x3F800000, 0x41700000]) := by decide

/-- BRF-3: 2^24 + 1 is refused. -/
theorem test_br_readf_range :
    seen (exec .brReadf (st (bytes [] 0x1000 [0x80, 0, 0, 0x80]) [0x1000, 0, 25, 1, 0x2000])) 0x2000 0 =
      some (0x0F, 0, 0, []) := by decide

/-- BW-11 step 1. -/
theorem test_bw_open_bounds : seen (exec .bwOpen (st [] [0xFFFFFFFC, 8])) 0 0 = some (0x07, 0xFFFFFFFC, 0, []) := by decide

/-- BW-1 step 1. -/
theorem test_bw_open : (state? (exec .bwOpen (st [] [0x2000, 4]))).map (fun t => (t.session.active, t.session.base, t.session.cap)) =
    some (true, 0x2000#32, 4#32) := by decide

/-- BW-1 step 4: the byte A5 is completed. -/
theorem test_bw_write : wrote (exec .bwWrite (writing [] [1, 1] 0x2000 4 0 7 0x52)) 0x2000 = some (0, 1, 1, 0, 0xA5) := by
  decide

/-- BW-3 step 3: width 26 aborts the session. -/
theorem test_bw_write_width : (state? (exec .bwWrite (writing [] [0, 26] 0x2000 4 0 2 3))).map
    (fun t => (t.err, t.errInfo, t.session.active, t.session.partWord)) = some (.width, 26#32, false, 0#32) := by decide

/-- BW-12 step 3: 01 then 01 10 11 fill the byte 5B. -/
theorem test_bw_writeb :
    wrote (exec .bwWriteb (writing (bytes [] 0x1000 [1, 0, 0, 0, 2, 0, 0, 0, 3, 0, 0, 0]) [0x1000, 3, 2] 0x2000 1 0 2 1)) 0x2000 =
      some (0, 1, 1, 0, 0x5B) := by decide

/-- BW-4 step 3. -/
theorem test_bw_close : wrote (exec .bwClose (writing [] [] 0x2000 4 0 6 0x1B)) 0x2000 = some (0, 1, 1, 0, 0x6C) := by decide

/-- GD-1, with room for three groups. -/
theorem test_gd_decode :
    seen (.next (gdDecode 3 (st (bytes [] 0x1000 [0x3F, 0x20, 0x8C, 0x80, 0x37, 0xC0])
      [0x1000, 6, 0x2000, 6, 4, 3, 1, 1, 0, 2, 1, 1, 2, 2]))) 0x2000 6 =
      some (0, 0, 6, [3, 0x7FFFFFFF, 4, 0x7FFFFFFF, 0x7FFFFFFF, 6]) := by decide

/-- GD-2: uniform lengths, two sentinels. -/
theorem test_gd_decode_uniform :
    seen (.next (gdDecode 2 (st (bytes [] 0x1000 [0x38, 0x90, 0x40, 0x8E])
      [0x1000, 4, 0x2000, 4, 3, 2, 0, 2, 0, 2, 1, 2, 99, 2]))) 0x2000 4 =
      some (0, 0, 4, [0x7FFFFFFF, 1, 0x7FFFFFFF, 0x7FFFFFFF]) := by decide

/-- SD-3: order 1 with a missing slot. -/
theorem test_sd_decode :
    seen (.next (sdDecode 1 (st (bytes [] 0x1000 [0x05, 0x02, 0x36])
      [0x1000, 3, 0x2000, 4, 0, 1, 1, 1, 2, 0, 0, 0, 4, 0, 1, 1]))) 0x2000 4 =
      some (0, 0, 3, [5, 0x7FFFFFFF, 8, 12]) := by decide

/-- SD-9: order 2, a negative minimum. -/
theorem test_sd_decode_second :
    seen (.next (sdDecode 1 (st (bytes [] 0x1000 [0x0A, 0x14, 0x81, 0x00])
      [0x1000, 4, 0x2000, 4, 0, 1, 1, 0, 2, 0, 0, 0, 4, 0, 2, 1]))) 0x2000 4 =
      some (0, 0, 4, [10, 20, 29, 37]) := by decide

/-- BM-5: a NaN and -0.0 are copied bit for bit. -/
theorem test_bm_expand :
    seen (exec .bmExpand (st (bytes (bytes [] 0x1000 [0x01, 0, 0xC0, 0xFF, 0, 0, 0, 0x80]) 0x1100 [0x90])
      [0x1000, 2, 0x1100, 4, 0x2000])) 0x2000 4 =
      some (0, 0, 2, [0xFFC00001, 0x7FC00000, 0x7FC00000, 0x80000000]) := by decide

/-- BM-2: fewer compact values than set bits. -/
theorem test_bm_expand_count :
    seen (exec .bmExpand (st (bytes [] 0x1100 [0xD0]) [0x1000, 2, 0x1100, 4, 0x2000])) 0 0 = some (0x0C, 3, 0, []) := by decide

/-! ### Witnesses: concrete states and operands that meet a statement's hypotheses together -/

theorem st_inv (m : Memory) (ops : List Nat) (h : m.wf) : (st m ops).Inv :=
  ⟨h, Session.wf_reset, ⟨fun hb => Bool.noConfusion (show false = true from hb), fun _ => rfl, fun _ => rfl⟩⟩

theorem writing_inv (m : Memory) (ops : List Nat) (base cap count nacc acc : Nat) (h : m.wf)
    (hs : (writing m ops base cap count nacc acc).session.wf) : (writing m ops base cap count nacc acc).Inv :=
  ⟨h, hs, ⟨fun hb => Bool.noConfusion (show false = true from hb), fun _ => rfl, fun _ => rfl⟩⟩

/-- A running command on the given state, with a schedule. -/
def busyWith (s : State) (i : Instr) (turns : List Agent) : State :=
  { s with busy := true, cmdLatch := encode i, schedule := turns }

/-- BR-1's memory and operands. -/
def br1 : State := st (bytes [] 0x1000 [0xB5, 0x3C]) [0x1000, 0, 3, 5, 0x2000]

/-- A session at 0x2000 with five pending bits 10100 of its string. -/
def bw1 (ops : List Nat) : State := writing [] ops 0x2000 4 0 5 0x14

theorem bw1_wf (ops : List Nat) : (bw1 ops).session.wf := by
  show Session.wf { active := true, base := 0x2000#32, cap := 4#32, count := 0#32, nacc := 5#3, acc := 0x14#7 }
  unfold Session.wf; decide

theorem bw1_holds (ops : List Nat) : (bw1 ops).sink.Holds [true, false, true, false, false] :=
  ⟨rfl, rfl, rfl, fun k hk => absurd hk (by simp)⟩

/-- GD-2's payload with one group: references 1 (3 bits), width 2, four values. -/
def gd1 (mvm npnts : Nat) : State :=
  st (bytes [] 0x1000 [0x20, 0x80, 0x1B]) [0x1000, 3, 0x2000, npnts, 3, 1, 1, mvm, 0, 2, 0, 0, 4, 0]

/-- SD-1. -/
def sd1 (size npnts order eow : Nat) : State :=
  st (bytes [] 0x1000 [0x05, 0x02, 0x06]) [0x1000, size, 0x2000, npnts, 0, 1, 1, 0, 2, 0, 0, 0, 4, 0, order, eow]

/-- BM-1. -/
def bm1 (nc n d : Nat) : State :=
  st (bytes (bytes [] 0x1000 [0, 0, 0x20, 0x41, 0, 0, 0xA0, 0x41, 0, 0, 0xF0, 0x41]) 0x1100 [0xD0])
    [0x1000, nc, 0x1100, n, d]

theorem witness_CommandLineRoundTrip :
    (CommandLine.mk .bwOpen [2 ^ 32 - 1, 0] false).wf = true ∧ (CommandLine.mk .bwClose [] true).wf = true := by decide

theorem witness_CommandLineReachesTheSnapshot :
    ((CommandLine.mk .bwWrite [2 ^ 32 - 1, 1] false).wf = true ∧ State.reset.busy = false ∧
      (CommandLine.mk .bwWrite [2 ^ 32 - 1, 1] false).keep = false) ∧
    ((CommandLine.mk .bwWrite [5, 3] true).wf = true ∧ (CommandLine.mk .bwWrite [5, 3] true).keep = true) := by decide

theorem witness_StepRunsTheDecodedCommand (i : Instr) :
    (busyWith br1 i [.engine]).turn = some .engine ∧
      decode (busyWith br1 i [.engine]).cmdLatch = .ok i ∧ (busyWith br1 i [.engine]).readsDevice = false := by
  cases i <;> decide

theorem witness_IllegalWordIsReported : ∀ w ∈ [0x101, 0, 0xFF], (State.reset.loadCommand (BitVec.ofNat 32 w)).turn = some .engine ∧
    ((State.reset.loadCommand (BitVec.ofNat 32 w)).cmdLatch.toNat / 2 ^ 8 ≠ 0 ∨
      (State.reset.loadCommand (BitVec.ofNat 32 w)).cmdLatch.toNat % 2 ^ 8 ∉
        [0x01, 0x02, 0x10, 0x11, 0x12, 0x13, 0x20, 0x21, 0x30]) := by decide

/-- The device is the last byte of BR-1's footprint. -/
theorem witness_DeviceReadIsRefused :
    (busyWith { br1 with devices := [⟨0x1001, 1⟩] } .brRead []).turn = some .engine ∧
    decode (busyWith { br1 with devices := [⟨0x1001, 1⟩] } .brRead []).cmdLatch = .ok .brRead ∧
    ∃ r ∈ readRegions .brRead (busyWith { br1 with devices := [⟨0x1001, 1⟩] } .brRead []),
      ∃ d ∈ (busyWith { br1 with devices := [⟨0x1001, 1⟩] } .brRead []).devices, ∃ a, r.has a = true ∧ d.has a = true :=
  ⟨rfl, rfl, ⟨0x1000, 2⟩, by decide, ⟨0x1001, 1⟩, by decide, 0x1001, by decide, by decide⟩

theorem witness_IdleStep : State.reset.busy = false ∧ State.reset.schedule.head? ≠ some .platform ∧
    State.reset.program[State.reset.position]? = none ∧
    { State.reset with program := [HostMove.wait] }.program[State.reset.position]? = some HostMove.wait :=
  ⟨rfl, by decide, rfl, rfl⟩

/-- The Engine's turn with the Host out of moves and with the Host waiting; then a Host turn and a platform turn. -/
theorem witness_HostTurnsBeforeCompletionAreFinite :
    ((busyWith br1 .brRead [.host]).schedule.head? ≠ some .platform ∧
      (busyWith br1 .brRead [.host]).program[(busyWith br1 .brRead [.host]).position]? = none) ∧
    (busyWith { br1 with program := [.wait] } .brRead []).schedule.head? ≠ some .host ∧
    (∃ t, (busyWith { br1 with program := [.wait] } .brRead [.host]).turn ≠ some .engine ∧
      step (busyWith { br1 with program := [.wait] } .brRead [.host]) = .next t) ∧
    ∃ t, (busyWith br1 .brRead [.platform]).turn ≠ some .engine ∧ step (busyWith br1 .brRead [.platform]) = .next t :=
  ⟨⟨by decide, rfl⟩, by decide, ⟨_, by decide, rfl⟩, ⟨_, by decide, rfl⟩⟩

/-- Both outcomes of `cpc.wait`, both of `cpc.check` (back to move 0), and another move. -/
theorem witness_WaitAndCheck :
    ((busyWith { br1 with program := [.wait] } .brRead [.host]).turn = some .host ∧
      (busyWith { br1 with program := [.wait] } .brRead [.host]).program[0]? = some .wait) ∧
    { br1 with program := [.wait] }.turn = some .host ∧
    ({ br1 with err := .width, program := [.wait, .check 0], position := 1 }.turn = some .host ∧
      [HostMove.wait, .check 0][1]? = some (.check 0)) ∧
    { br1 with program := [.wait, .check 0], position := 1 }.turn = some .host ∧
    ({ br1 with program := [.regRead 0x14 4] }.turn = some .host ∧
      ∃ t, step { br1 with program := [.regRead 0x14 4] } = .next t) :=
  ⟨⟨rfl, rfl⟩, rfl, ⟨rfl, rfl⟩, rfl, rfl, _, rfl⟩

theorem witness_StepKeepsTheInvariant : ∃ t, State.reset.Inv ∧ step State.reset = .next t :=
  ⟨_, ⟨by decide, Session.wf_reset, by decide, by decide, by decide⟩, rfl⟩

theorem witness_EveryCommandCompletes : br1.Inv := st_inv _ _ (by decide)

theorem witness_CompletionFrame (i : Instr) : ∃ t, exec i br1 = .next t := by
  cases i with
  | brRead => exact ⟨_, rfl⟩
  | brReadf => exact ⟨_, rfl⟩
  | bwOpen => exact ⟨_, rfl⟩
  | bwWrite => exact ⟨_, rfl⟩
  | bwWriteb => exact ⟨_, rfl⟩
  | bwClose => exact ⟨_, rfl⟩
  | gdDecode => exact ⟨_, rfl⟩
  | sdDecode => exact ⟨_, rfl⟩
  | bmExpand =>
    show ∃ t, execBmExpand br1 = .next t
    unfold execBmExpand
    dsimp only
    split
    · exact ⟨_, rfl⟩
    · split <;> exact ⟨_, rfl⟩

/-- The byte just below and the byte just above BR-1's destination. -/
theorem witness_WritesOnlyTheWriteFootprint : br1.Inv ∧ (∃ t, exec .brRead br1 = .next t) ∧
    covers (writeRegions .brRead br1) 0x1FFF = false ∧ covers (writeRegions .brRead br1) 0x2014 = false :=
  ⟨st_inv _ _ (by decide), ⟨_, rfl⟩, by decide, by decide⟩

/-- E_FLOAT_RANGE (BRF-3), E_ILLEGAL, and an aborted session (BW-3). -/
theorem witness_MemoryAndSessionAfterAnError :
    (∃ t, complete (busyWith (st (bytes [] 0x1000 [0x80, 0, 0, 0x80]) [0x1000, 0, 25, 1, 0x2000]) .brReadf []) = .next t ∧
      t.err = .floatRange) ∧
    (∃ t, complete (State.reset.loadCommand 0#32) = .next t ∧ t.err = .illegal) ∧
    (∃ t, complete (busyWith (bw1 [0, 26]) .bwWrite []) = .next t ∧ t.err = .width) ∧
    (busyWith (bw1 [0, 26]) .bwWrite []).Inv ∧ (State.reset.loadCommand 0#32).Inv ∧
    (busyWith (st (bytes [] 0x1000 [0x80, 0, 0, 0x80]) [0x1000, 0, 25, 1, 0x2000]) .brReadf []).Inv :=
  ⟨⟨_, rfl, rfl⟩, ⟨_, rfl, rfl⟩, ⟨_, rfl, rfl⟩,
    ⟨by decide, bw1_wf [0, 26], by decide, by decide, by decide⟩, ⟨by decide, Session.wf_reset, by decide, by decide, by decide⟩,
    ⟨by decide, Session.wf_reset, by decide, by decide, by decide⟩⟩

theorem witness_OnlyWriterCommandsUseTheSession :
    ∀ i ∈ [Instr.brRead, .brReadf, .gdDecode, .sdDecode, .bmExpand], i ∉ [Instr.bwOpen, .bwWrite, .bwWriteb, .bwClose] := by
  decide

/-- BW.WRITE lists two operands; the other fourteen differ. -/
theorem witness_IgnoredOperandsDoNotMatter :
    (∀ j : Fin 16, j.val < Instr.bwWrite.arity → (bw1 [1, 1, 7]).snap[j] = (bw1 [1, 1]).snap[j]) ∧
    (bw1 [1, 1, 7]).snap[2] ≠ (bw1 [1, 1]).snap[2] ∧ ∃ t, exec .bwWrite (bw1 [1, 1]) = .next t :=
  ⟨by decide, by decide, ⟨_, rfl⟩⟩

/-- The other memory differs just outside BR-1's footprint. -/
theorem witness_ReadsOnlyTheReadFootprint : br1.Inv ∧ Memory.wf (bytes br1.mem 0x1002 [0xFF]) ∧
    (∀ a, covers (readRegions .brRead br1) a = true → (bytes br1.mem 0x1002 [0xFF]).read a = br1.mem.read a) ∧
    ∃ t, exec .brRead br1 = .next t := by
  refine ⟨st_inv _ _ (by decide), by decide, fun a ha => ?_, ⟨_, rfl⟩⟩
  have h : covers (readRegions .brRead br1) a = (Region.mk 0x1000 2).has a := by
    show (Region.has ⟨0x1000, 2⟩ a || false) = _
    rw [Bool.or_false]
  rw [h, Region.has_iff] at ha
  show ((br1.mem.write 0x1002 0xFF#8).read a) = _
  rw [Memory.read_write _ _ _ _ (by decide), if_neg (by simp only at ha; omega)]

theorem witness_AcceptanceTakesTheSnapshot : State.reset.busy = false := rfl
theorem witness_DroppedSubmissionSetsOvr : (busyWith br1 .brRead []).busy = true := rfl

/-- The edges of the read-only offsets (ID, ERR, the last reserved one) and two ARG offsets. -/
theorem witness_RegisterWritesOfArgAndReadOnly :
    (∀ w ∈ [0, 3, 15], w = 0 ∨ (3 ≤ w ∧ w < 16)) ∧ 0x40 + 4 * (0 : Fin 16).val = 0x40 ∧ 0x40 + 4 * (15 : Fin 16).val = 0x7C ∧
      (15 : Fin 16) ≠ 0 := by decide

/-- The edges of the register map. -/
theorem witness_RegisterReads :
    (∀ w ∈ [0, 9, 15, 16, 31], w < 32) ∧ (10 ≤ 10 ∧ 15 < 16) ∧ 16 = 16 + (0 : Fin 16).val ∧ 31 = 16 + (15 : Fin 16).val := by
  decide

/-- The byte 80 is the sign-magnitude zero with the sign bit set. -/
theorem witness_SignMagnitudeRead : 1 ≤ 1 ∧ besm (bytes [] 0x1000 [0x80]) 0x1000 1 = 0 ∧
    besm (bytes [] 0x1000 [0x80, 0x05]) 0x1000 2 = -5 := by decide

theorem witness_MisshapenRegisterAccessIsRefused :
    (1 ≠ 4 ∨ 0x08 % 4 ≠ 0) ∧ (2 ≠ 4 ∨ 0x08 % 4 ≠ 0) ∧ (8 ≠ 4 ∨ 0x08 % 4 ≠ 0) ∧ (4 ≠ 4 ∨ 0x0A % 4 ≠ 0) := by decide

/-- The first and last bytes of the running BR-1's footprints, and the bytes next to them. -/
theorem witness_HostMemoryAccess :
    (covers ((busyWith br1 .brRead []).running readRegions) 0x1000 = true ∧
      covers ((busyWith br1 .brRead []).running readRegions) 0x1001 = true ∧
      covers ((busyWith br1 .brRead []).running writeRegions) 0x2000 = true ∧
      covers ((busyWith br1 .brRead []).running writeRegions) 0x2013 = true) ∧
    (∀ a ∈ [0x0FFF, 0x1002, 0x1FFF, 0x2014], (covers ((busyWith br1 .brRead []).running readRegions) a ||
      covers ((busyWith br1 .brRead []).running writeRegions) a) = false) ∧ (busyWith br1 .brRead []).mem.wf := by decide

/-- Reset of a running BW.WRITE that would have flushed byte 0x2000, while the Host polls in `cpc.wait`; of a running
BR.READ; and of an idle block whose Host has no move left. -/
theorem witness_PlatformReset :
    ((busyWith { bw1 [7, 3] with program := [.wait] } .bwWrite [.platform]).mem.wf ∧
      (busyWith { bw1 [7, 3] with program := [.wait] } .bwWrite [.platform]).schedule.head? = some .platform ∧
      covers ((busyWith { bw1 [7, 3] with program := [.wait] } .bwWrite [.platform]).running abandonedRegions) 0x2000 = true ∧
      covers ((busyWith { bw1 [7, 3] with program := [.wait] } .bwWrite [.platform]).running abandonedRegions) 0x2001 = false) ∧
    covers ((busyWith br1 .brRead [.platform]).running abandonedRegions) 0x2013 = true ∧
    ({ br1 with schedule := [.platform] }.busy = false ∧ { br1 with schedule := [.platform] }.nextMove? = none) := by decide

theorem witness_LittleEndianWrites : Memory.wf [] ∧ (2 ^ 32 - 4) + 4 ≤ 2 ^ 32 := by decide

/-- BR-1, the widest span BR-3, an adjacent destination BR-10, and width 0 at offset 7. -/
theorem witness_ReadStoresTheFields :
    ∀ s ∈ [br1, st (bytes [] 0x1000 [1, 0xFF, 0xFF, 0xFF, 0xFF]) [0x1000, 7, 31, 1, 0x2000],
      st (bytes [] 0x1000 [0xAB, 0xCD]) [0x1000, 0, 8, 2, 0x1004], st [] [0x1000, 7, 0, 4, 0x2000]],
      s.mem.wf ∧ s.readOps.w ≤ 31 ∧ s.readOps.off ≤ 7 ∧ s.readOps.source.outOfBounds = false ∧
        s.readOps.dest.outOfBounds = false ∧ s.readOps.source.overlaps s.readOps.dest = false := by decide

/-- BRF-2: the value 2^24. -/
theorem witness_ReadfStoresTheFloats :
    let s := st (bytes [] 0x1000 [0x80, 0, 0, 0]) [0x1000, 0, 25, 1, 0x2000]
    s.mem.wf ∧ s.readOps.w ≤ 31 ∧ s.readOps.off ≤ 7 ∧ s.readOps.source.outOfBounds = false ∧
      s.readOps.dest.outOfBounds = false ∧ s.readOps.source.overlaps s.readOps.dest = false ∧
      ∀ i, i < s.readOps.n → field s.mem s.readOps.src (s.readOps.off + i * s.readOps.w) s.readOps.w ≤ 2 ^ 24 := by decide

/-- BRF-3: the value 2^24 + 1. -/
theorem witness_ReadfRangeError :
    let s := st (bytes [] 0x1000 [0x80, 0, 0, 0x80]) [0x1000, 0, 25, 1, 0x2000]
    s.mem.wf ∧ s.readOps.w ≤ 31 ∧ s.readOps.off ≤ 7 ∧ s.readOps.source.outOfBounds = false ∧
      s.readOps.dest.outOfBounds = false ∧ s.readOps.source.overlaps s.readOps.dest = false ∧ 0 < s.readOps.n ∧
      2 ^ 24 < field s.mem s.readOps.src (s.readOps.off + 0 * s.readOps.w) s.readOps.w := by decide

/-- BR-6, BR-7, BR-8, BR-9 and BR-11. -/
theorem witness_ReadErrorsInOrder :
    31 < (st [] [0x1000, 8, 32, 1, 0x2000]).readOps.w ∧
    ((st [] [0x1000, 8, 31, 1, 0x2000]).readOps.w ≤ 31 ∧ 7 < (st [] [0x1000, 8, 31, 1, 0x2000]).readOps.off) ∧
    (st [] [0xFFFFFFFF, 7, 8, 2, 0x2000]).readOps.source.outOfBounds = true ∧
    ((st [] [0x1000, 0, 4, 1, 0xFFFFFFFD]).readOps.source.outOfBounds = false ∧
      (st [] [0x1000, 0, 4, 1, 0xFFFFFFFD]).readOps.dest.outOfBounds = true) ∧
    ((st [] [0x1000, 0, 8, 2, 0x1001]).readOps.source.outOfBounds = false ∧
      (st [] [0x1000, 0, 8, 2, 0x1001]).readOps.dest.outOfBounds = false ∧
      (st [] [0x1000, 0, 8, 2, 0x1001]).readOps.source.overlaps (st [] [0x1000, 0, 8, 2, 0x1001]).readOps.dest = true) := by
  decide

theorem witness_FloatEncodingIsExact : (1 ≤ 1 ∧ 1 ≤ 2 ^ 24) ∧ (1 ≤ 2 ^ 24 ∧ 2 ^ 24 ≤ 2 ^ 24) := by decide

/-- A target that ends at 2^32, one byte more, and a second open. -/
theorem witness_OpenBeginsASession :
    ((st [] [0xFFFFFFFC, 4]).session.active = false ∧ (st [] [0xFFFFFFFC, 4]).opnd 0 + (st [] [0xFFFFFFFC, 4]).opnd 1 ≤ 2 ^ 32) ∧
    (bw1 [0x3000, 4]).session.active = true ∧
    ((st [] [0xFFFFFFFC, 5]).session.active = false ∧ (st [] [0xFFFFFFFC, 5]).opnd 0 + (st [] [0xFFFFFFFC, 5]).opnd 1 > 2 ^ 32) := by
  decide

/-- Width 25 into a session that holds five bits: 30 bits in four bytes. -/
theorem witness_WriteAppendsTheBits :
    (bw1 [7, 25]).mem.wf ∧ (bw1 [7, 25]).session.wf ∧ (bw1 [7, 25]).session.active = true ∧
    (bw1 [7, 25]).sink.Holds [true, false, true, false, false] ∧ (bw1 [7, 25]).opnd 1 ≤ 25 ∧
    (5 + (bw1 [7, 25]).opnd 1 + 7) / 8 ≤ (bw1 [7, 25]).session.cap.toNat :=
  ⟨by decide, bw1_wf _, rfl, bw1_holds _, by decide, by decide⟩

/-- No session; width 26; and one bit more than the capacity (BW-5). -/
theorem witness_WriteErrorsInOrder :
    (st [] [1, 1]).session.active = false ∧ ((bw1 [0, 26]).session.active = true ∧ 25 < (bw1 [0, 26]).opnd 1) ∧
    ((writing [] [1, 1] 0x2000 1 1 0 0).session.active = true ∧ (writing [] [1, 1] 0x2000 1 1 0 0).opnd 1 ≤ 25 ∧
      (writing [] [1, 1] 0x2000 1 1 0 0).session.cap.toNat < 2 ∧
      2 = (8 * (writing [] [1, 1] 0x2000 1 1 0 0).session.count.toNat +
        (writing [] [1, 1] 0x2000 1 1 0 0).session.nacc.toNat + (writing [] [1, 1] 0x2000 1 1 0 0).opnd 1 + 7) / 8) := by
  decide

theorem witness_WriteOfWidthZero : (bw1 [0x55, 0]).session.wf ∧ (bw1 [0x55, 0]).session.active = true ∧ (bw1 [0x55, 0]).opnd 1 = 0 :=
  ⟨bw1_wf _, rfl, rfl⟩

theorem witness_ChunkSplittingIsInvisible : 9 + 16 ≤ 25 := by decide

/-- Nine values of width 3 after five bits: 32 bits fill the four bytes. -/
theorem witness_BatchAppendsTheArray :
    (bw1 [0x1000, 9, 3]).mem.wf ∧ (bw1 [0x1000, 9, 3]).session.wf ∧ (bw1 [0x1000, 9, 3]).session.active = true ∧
    (bw1 [0x1000, 9, 3]).sink.Holds [true, false, true, false, false] ∧ (bw1 [0x1000, 9, 3]).batchOps.w ≤ 25 ∧
    (bw1 [0x1000, 9, 3]).batchOps.source.inBounds ∧
    (bw1 [0x1000, 9, 3]).batchOps.source.apart (bw1 [0x1000, 9, 3]).session.target ∧
    (5 + (bw1 [0x1000, 9, 3]).batchOps.w * (bw1 [0x1000, 9, 3]).batchOps.cnt + 7) / 8 ≤ (bw1 [0x1000, 9, 3]).session.cap.toNat :=
  ⟨by decide, bw1_wf _, rfl, bw1_holds _, by decide, rfl, rfl, by decide⟩

/-- Each clause: no session; width 26; a source past 2^32; a source on the target; ten values, 35 bits in four bytes. -/
theorem witness_BatchErrorsInOrder :
    (st [] [0x1000, 1, 1]).session.active = false ∧ 25 < (bw1 [0x1000, 1, 26]).batchOps.w ∧
    ((bw1 [0xFFFFFFFD, 1, 25]).batchOps.w ≤ 25 ∧ (bw1 [0xFFFFFFFD, 1, 25]).batchOps.source.outOfBounds = true) ∧
    ((bw1 [0x2003, 1, 3]).batchOps.source.outOfBounds = false ∧
      (bw1 [0x2003, 1, 3]).batchOps.source.overlaps (bw1 [0x2003, 1, 3]).session.target = true) ∧
    ((bw1 [0x2004, 10, 3]).batchOps.source.outOfBounds = false ∧
      (bw1 [0x2004, 10, 3]).batchOps.source.overlaps (bw1 [0x2004, 10, 3]).session.target = false ∧
      (bw1 [0x2004, 10, 3]).session.cap.toNat < 5) := by decide

/-- A batch that succeeds and one that fails. -/
theorem witness_BatchEqualsSingleWrites :
    (bw1 [0x1000, 9, 3]).Inv ∧ (∃ t, exec .bwWriteb (bw1 [0x1000, 9, 3]) = .next t ∧ t.err = .none) ∧
    ∃ t, exec .bwWriteb (bw1 [0x1000, 10, 3]) = .next t ∧ t.err ≠ .none :=
  ⟨⟨by decide, bw1_wf _, by decide, by decide, by decide⟩, ⟨_, rfl, rfl⟩, ⟨_, rfl, by decide⟩⟩

theorem witness_CloseFlushesAndEnds : (st [] []).session.active = false ∧
    (bw1 []).mem.wf ∧ (bw1 []).session.wf ∧ (bw1 []).session.active = true ∧
    (bw1 []).sink.Holds [true, false, true, false, false] := ⟨rfl, by decide, bw1_wf _, rfl, bw1_holds _⟩

/-- Two values of width 25 in seven bytes, read back to the top of memory. -/
theorem witness_WriterReaderRoundTrip :
    (st [] []).Inv ∧ (st [] []).session.active = false ∧ 1 ≤ (25#32).toNat ∧ (25#32).toNat ≤ 25 ∧
    (∀ v ∈ [0x1FFFFFF#32, 0#32], v.toNat < 2 ^ (25#32).toNat) ∧ (0x2000#32).toNat + (7#32).toNat ≤ 2 ^ 32 ∧
    ((25#32).toNat * [0x1FFFFFF#32, 0#32].length + 7) / 8 ≤ (7#32).toNat ∧
    (0xFFFFFFF8#32).toNat + 4 * [0x1FFFFFF#32, 0#32].length ≤ 2 ^ 32 ∧
    (Region.mk (0x2000#32).toNat (((25#32).toNat * [0x1FFFFFF#32, 0#32].length + 7) / 8)).apart
      ⟨(0xFFFFFFF8#32).toNat, 4 * [0x1FFFFFF#32, 0#32].length⟩ :=
  ⟨st_inv _ _ (by decide), rfl, by decide, by decide, by simp, by decide, by decide, by decide, rfl⟩

theorem gd1_valid (mg : Nat) (h : 1 ≤ mg) : (gd1 1 4).groupOps.Valid mg :=
  ⟨by decide, by decide, by decide, by decide, .inr rfl, le_refl _, h, rfl, rfl, rfl⟩

/-- One group of four values 0, 1, 2, 3 on reference 1; the widths, lengths and totals agree. -/
theorem gd1_consistent : (gd1 1 4).groupOps.Consistent (gd1 1 4).mem (gd1 1 4).groupOps.payload (gd1 1 4).groupOps.size := by
  unfold GroupOps.Consistent GroupOps.start GroupOps.position
  decide

theorem witness_GroupDecodeStoresTheField :
    (gd1 1 4).mem.wf ∧ (gd1 1 4).groupOps.Valid Config.maxGroups ∧
    (gd1 1 4).groupOps.Consistent (gd1 1 4).mem (gd1 1 4).groupOps.payload (gd1 1 4).groupOps.size ∧
    ∀ g, g < (gd1 1 4).groupOps.ng → ∀ k, k < (gd1 1 4).groupOps.length (gd1 1 4).mem (gd1 1 4).groupOps.payload g →
      ∀ x, (gd1 1 4).groupOps.slotAt (gd1 1 4).mem (gd1 1 4).groupOps.payload g k = .val x → x < 2 ^ 31 - 1 := by
  refine ⟨by decide, gd1_valid _ maxGroups_pos, gd1_consistent, ?_⟩
  have h : ∀ g, g < 1 → ∀ k, k < 4 →
      (gd1 1 4).groupOps.slotAt (gd1 1 4).mem (gd1 1 4).groupOps.payload g k ∈ [.val 1, .val 2, .val 3, .miss] := by
    unfold GroupOps.slotAt GroupOps.position
    decide
  intro g hg k hk x hx
  have hm := h g hg k hk
  rw [hx] at hm
  simp only [List.mem_cons, Slot.val.injEq, List.not_mem_nil, or_false, reduceCtorEq] at hm
  omega

/-- The operands of each clause, every one at the edge of its range. -/
theorem witness_GroupOperandErrorsInOrder :
    let op (l : List Nat) : GroupOps := (st [] l).groupOps
    (31 < (op [0, 0, 0, 0, 32]).nbits) ∧
    (31 < (op [0, 0, 0, 0, 31, 0, 0, 0, 0, 32]).nbgw) ∧
    (31 < (op [0, 0, 0, 0, 31, 0, 0, 0, 0, 31, 0, 0, 0, 32]).nbgl) ∧
    ((op [0, 0, 0, 0, 31, 0, 0, 3]).mvm ∉ [0, 1, 2]) ∧ ((op [0, 0, 0, 0, 31, 0, 2, 2]).gsm ∉ [0, 1]) ∧
    ((op [0, 0, 0, 0, 31, 0, 1, 2]).ng = 0) ∧
    ((op [0, 0, 0, 0, 31, 2, 1, 2]).ng ≠ 0 ∧ 1 < (op [0, 0, 0, 0, 31, 2, 1, 2]).ng) ∧
    ((op [0xFFFFFFFF, 2, 0, 0, 31, 1, 1, 2]).payloadRegion.outOfBounds = true) ∧
    ((op [0xFFFFFFFF, 1, 0xFFFFFFFD, 1, 31, 1, 1, 2]).payloadRegion.outOfBounds = false ∧
      (op [0xFFFFFFFF, 1, 0xFFFFFFFD, 1, 31, 1, 1, 2]).dest.outOfBounds = true) ∧
    ((op [0x1003, 1, 0x1000, 1, 31, 1, 1, 2]).dest.outOfBounds = false ∧
      (op [0x1003, 1, 0x1000, 1, 31, 1, 1, 2]).payloadRegion.overlaps
        (op [0x1003, 1, 0x1000, 1, 31, 1, 1, 2]).dest = true) := by decide

/-- A section one byte short of its header; width 32; five points declared for four; and a section one byte too long. -/
theorem witness_GroupConsistencyErrorsInOrder :
    let s (size npnts rgw : Nat) : State :=
      st (bytes [] 0x1000 [0x20, 0x80, 0x1B]) [0x1000, size, 0x2000, npnts, 3, 1, 1, 1, rgw, 2, 0, 0, 4, 0]
    (∀ p ∈ [(1, 4, 0), (3, 4, 30), (3, 5, 0), (4, 4, 0)], (s p.1 p.2.1 p.2.2).groupOps.Valid 1) ∧
    (s 1 4 0).groupOps.size < (s 1 4 0).groupOps.headerBytes ∧
    ((s 3 4 30).groupOps.headerBytes ≤ (s 3 4 30).groupOps.size ∧
      31 < (s 3 4 30).groupOps.width (s 3 4 30).mem (s 3 4 30).groupOps.payload 0) ∧
    ((s 3 5 0).groupOps.width (s 3 5 0).mem (s 3 5 0).groupOps.payload 0 ≤ 31 ∧
      (s 3 5 0).groupOps.start (s 3 5 0).mem (s 3 5 0).groupOps.payload (s 3 5 0).groupOps.ng ≠ (s 3 5 0).groupOps.npnts) ∧
    ((s 4 4 0).groupOps.start (s 4 4 0).mem (s 4 4 0).groupOps.payload (s 4 4 0).groupOps.ng = (s 4 4 0).groupOps.npnts ∧
      (s 4 4 0).groupOps.headerBytes +
        ceil8 ((s 4 4 0).groupOps.position (s 4 4 0).mem (s 4 4 0).groupOps.payload (s 4 4 0).groupOps.ng) ≠
          (s 4 4 0).groupOps.size) := by
  intro s
  refine ⟨?_, by decide, by decide, ?_, ?_⟩
  · unfold GroupOps.Valid Region.inBounds Region.apart; decide
  · unfold GroupOps.start; decide
  · unfold GroupOps.start GroupOps.position; decide

/-- GD-10: reference 2^31 - 2 and raw value 1 reach MISSING. -/
theorem witness_GroupOverflowError :
    let s := st (bytes [] 0x1000 [0xFF, 0xFF, 0xFF, 0xFC, 0x80]) [0x1000, 5, 0x2000, 1, 31, 1, 1, 0, 1, 0, 0, 0, 1, 0]
    s.mem.wf ∧ s.groupOps.Valid 1 ∧ s.groupOps.Consistent s.mem s.groupOps.payload s.groupOps.size ∧ 0 < s.groupOps.ng ∧
      0 < s.groupOps.length s.mem s.groupOps.payload 0 ∧
      s.groupOps.slotAt s.mem s.groupOps.payload 0 0 = .val (2 ^ 31 - 1) := by
  unfold GroupOps.Valid Region.inBounds Region.apart GroupOps.Consistent GroupOps.start GroupOps.position GroupOps.slotAt
    GroupOps.position
  decide

theorem witness_MissingValuePolicies : (1 = 1 ∨ 1 = 2) ∧ (2 = 1 ∨ 2 = 2) ∧ 0 < 1 := by decide

/-- Both ends of the range of values, and MISS. -/
theorem witness_TaggedViewIsExact :
    ∀ f ∈ [Slot.val (2 ^ 31 - 2), .val (-2 ^ 31), .miss], ∀ x, f = .val x → -2 ^ 31 ≤ x ∧ x < 2 ^ 31 - 1 := by
  intro f hf x hx
  simp only [List.mem_cons, List.not_mem_nil, or_false] at hf
  rcases hf with rfl | rfl | rfl <;> cases hx <;> decide

theorem sd1_valid (mg : Nat) (h : 1 ≤ mg) : (sd1 3 4 1 1).groupOps.Valid mg :=
  ⟨by decide, by decide, by decide, by decide, .inr rfl, le_refl _, h, rfl, rfl, rfl⟩

/-- SD-1: seed 5, minimum 2, deltas 0, 1, 2 after the seed's slot. -/
theorem witness_DifferenceDecodeStoresTheInversion :
    (sd1 3 4 1 1).mem.wf ∧ ((sd1 3 4 1 1).sdOrder = 1 ∨ (sd1 3 4 1 1).sdOrder = 2) ∧ 1 ≤ (sd1 3 4 1 1).sdEow ∧
    (sd1 3 4 1 1).sdEow ≤ 4 ∧ (sd1 3 4 1 1).groupOps.Valid Config.maxGroups ∧
    (5 : Int) = besm (sd1 3 4 1 1).mem (sd1 3 4 1 1).groupOps.payload (sd1 3 4 1 1).sdEow ∧
    (2 : Int) = besm (sd1 3 4 1 1).mem ((sd1 3 4 1 1).groupOps.payload + (sd1 3 4 1 1).sdOrder * (sd1 3 4 1 1).sdEow)
      (sd1 3 4 1 1).sdEow ∧
    2 = ((sd1 3 4 1 1).sdOrder + 1) * (sd1 3 4 1 1).sdEow ∧ 2 ≤ (sd1 3 4 1 1).groupOps.size ∧
    gdCore (sd1 3 4 1 1).groupOps (sd1 3 4 1 1).mem ((sd1 3 4 1 1).groupOps.payload + 2) ((sd1 3 4 1 1).groupOps.size - 2) =
      .ok [.val 0, .val 0, .val 1, .val 2] ∧
    Inverts (sd1 3 4 1 1).sdOrder ⟨5, 0, 2⟩ [.val 0, .val 0, .val 1, .val 2] [.val 5, .val 7, .val 10, .val 14] ∧
    ∀ x, Slot.val x ∈ [Slot.val 5, .val 7, .val 10, .val 14] → -2 ^ 31 ≤ x ∧ x < 2 ^ 31 - 1 := by
  refine ⟨by decide, .inl rfl, by decide, by decide, sd1_valid _ maxGroups_pos, by decide, by decide, by decide, by decide, rfl,
    ⟨rfl, rfl, ?_, fun _ => ?_, fun h => absurd h (by decide)⟩, ?_⟩
  · intro y hy; simpa [Slot.value?] using hy.symm
  · intro j d y y' hd hy hy'
    match j with
    | 0 =>
      simp [Slot.value?] at hd hy hy'
      show y' = y + 2 + d
      omega
    | 1 =>
      simp [Slot.value?] at hd hy hy'
      show y' = y + 2 + d
      omega
    | 2 =>
      simp [Slot.value?] at hd hy hy'
      show y' = y + 2 + d
      omega
    | j + 3 => simp [Slot.value?] at hd
  · intro x hx
    simp only [List.mem_cons, Slot.val.injEq, List.not_mem_nil, or_false] at hx
    omega

theorem witness_GroupCoreGivesTheField :
    (gd1 1 4).groupOps.Consistent (gd1 1 4).mem (gd1 1 4).groupOps.payload (gd1 1 4).groupOps.size ∧
    ∀ g, g < (gd1 1 4).groupOps.ng → ∀ k, k < (gd1 1 4).groupOps.length (gd1 1 4).mem (gd1 1 4).groupOps.payload g →
      ∀ x, (gd1 1 4).groupOps.slotAt (gd1 1 4).mem (gd1 1 4).groupOps.payload g k = .val x → x < 2 ^ 31 - 1 :=
  ⟨gd1_consistent, witness_GroupDecodeStoresTheField.2.2.2⟩

/-- SD-5; SD-11 and SD-6; an operand error of GD.DECODE; and SD-7's section, shorter than its seeds. -/
theorem witness_DifferenceOperandErrorsInOrder :
    (sd1 3 4 3 1).sdOrder ∉ [1, 2] ∧ (sd1 3 4 0 1).sdOrder ∉ [1, 2] ∧
    ((sd1 3 4 1 0).sdOrder ∈ [1, 2] ∧ (sd1 3 4 1 0).sdEow ∉ [1, 2, 3, 4]) ∧ (sd1 3 4 1 5).sdEow ∉ [1, 2, 3, 4] ∧
    ((sd1 3 4 2 4).sdOrder ∈ [1, 2] ∧ (sd1 3 4 2 4).sdEow ∈ [1, 2, 3, 4]) ∧
    ((sd1 3 4 1 1).sdOrder ∈ [1, 2] ∧ ¬ (sd1 3 4 1 1).groupOps.Valid 0 ∧
      Rejected (sd1 3 4 1 1) (gdDecode 0 (sd1 3 4 1 1)) .resource 1) ∧
    ((sd1 11 4 2 4).groupOps.Valid 1 ∧ (sd1 11 4 2 4).groupOps.size < ((sd1 11 4 2 4).sdOrder + 1) * (sd1 11 4 2 4).sdEow) :=
  ⟨by decide, by decide, by decide, by decide, by decide,
    ⟨by decide, fun h => absurd h.2.2.2.2.2.2.1 (by decide),
      ⟨⟨⟨rfl, rfl, rfl, rfl, rfl, rfl, rfl, rfl, rfl, rfl, rfl⟩, rfl, rfl, rfl⟩, rfl, rfl, rfl⟩⟩,
    ⟨by decide, by decide, by decide, by decide, .inr rfl, by decide, by decide, rfl, rfl, rfl⟩, by decide⟩

/-- Seed 5, minimum 2, then GD-10's section, whose one value collides with MISSING. -/
def sdCollides : State :=
  st (bytes [] 0x1000 [5, 2, 0xFF, 0xFF, 0xFF, 0xFC, 0x80]) [0x1000, 7, 0x2000, 1, 31, 1, 1, 0, 1, 0, 0, 0, 1, 0, 1, 1]

/-- SD-8: the seed 2^31 - 1. -/
def sdSeed : State :=
  st (bytes [] 0x1000 [0x7F, 0xFF, 0xFF, 0xFF, 0, 0, 0, 0]) [0x1000, 8, 0x2000, 1, 0, 1, 1, 0, 0, 0, 0, 0, 1, 0, 1, 4]

/-- SD-13 (a packing error of the reduced section), a colliding value of it, and SD-8 (the seed 2^31 - 1). -/
theorem witness_DifferenceDecodingErrors :
    ((sd1 3 5 1 1).groupOps.Valid 1 ∧
      gdCore (sd1 3 5 1 1).groupOps (sd1 3 5 1 1).mem ((sd1 3 5 1 1).groupOps.payload + 2) ((sd1 3 5 1 1).groupOps.size - 2) =
        .error ⟨.badPacking, 4⟩) ∧
    (sdCollides.groupOps.Valid 1 ∧
      gdCore sdCollides.groupOps sdCollides.mem (sdCollides.groupOps.payload + 2) (sdCollides.groupOps.size - 2) =
        .error ⟨.overflow, 0⟩) ∧
    (sdSeed.mem.wf ∧ sdSeed.sdOrder = 1 ∧ sdSeed.sdEow = 4 ∧ sdSeed.groupOps.Valid 1 ∧
      gdCore sdSeed.groupOps sdSeed.mem (sdSeed.groupOps.payload + 8) (sdSeed.groupOps.size - 8) = .ok [.val 0] ∧
      Inverts sdSeed.sdOrder (readSeeds sdSeed.mem sdSeed.groupOps.payload sdSeed.sdOrder sdSeed.sdEow)
        ([Slot.val 0].take 0 ++ [.val 0]) ([] ++ [.val (2 ^ 31 - 1)]) ∧
      [Slot.val 0][0]? = some (.val 0) ∧ (2 : Int) ^ 31 - 1 ≤ 2 ^ 31 - 1) := by
  refine ⟨⟨⟨by decide, by decide, by decide, by decide, .inr rfl, by decide, by decide, rfl, rfl, rfl⟩, rfl⟩,
    ⟨⟨by decide, by decide, by decide, by decide, .inr rfl, by decide, by decide, rfl, rfl, rfl⟩, rfl⟩,
    ⟨by decide, rfl, rfl, ⟨by decide, by decide, by decide, by decide, .inr rfl, by decide, by decide, rfl, rfl, rfl⟩, rfl,
      ⟨rfl, rfl, ?_, fun _ => ?_, fun h => absurd h (by decide)⟩, rfl, le_refl _⟩⟩
  · intro y hy
    have : y = 2 ^ 31 - 1 := by simpa [Slot.value?] using hy.symm
    rw [this]; decide
  · intro j d y y' hd hy hy'
    simp [Slot.value?] at hd

/-- BM-1, and no point at all (BM-6). -/
theorem witness_ExpandScattersTheValues :
    ∀ s ∈ [bm1 3 4 0x2000, bm1 0 0 0x2000], s.mem.wf ∧ s.expandOps.compact.outOfBounds = false ∧
      s.expandOps.bitmap.outOfBounds = false ∧ s.expandOps.dest.outOfBounds = false ∧
      s.expandOps.dest.overlaps s.expandOps.compact = false ∧ s.expandOps.dest.overlaps s.expandOps.bitmap = false ∧
      (∑ p ∈ Finset.range s.expandOps.n, (streamBit s.mem s.expandOps.b p).toNat) = s.expandOps.nc := by decide

/-- Each region past 2^32, BM-4, BM-8 and BM-2. -/
theorem witness_ExpandErrorsInOrder :
    (st [] [0xFFFFFFFD, 1, 0x1100, 4, 0x2000]).expandOps.compact.outOfBounds = true ∧
    ((st [] [0xFFFFFFFC, 1, 0xFFFFFFFF, 9, 0x2000]).expandOps.compact.outOfBounds = false ∧
      (st [] [0xFFFFFFFC, 1, 0xFFFFFFFF, 9, 0x2000]).expandOps.bitmap.outOfBounds = true) ∧
    ((bm1 3 4 0xFFFFFFF1).expandOps.bitmap.outOfBounds = false ∧ (bm1 3 4 0xFFFFFFF1).expandOps.dest.outOfBounds = true) ∧
    ((bm1 3 4 0x1008).expandOps.dest.outOfBounds = false ∧
      (bm1 3 4 0x1008).expandOps.dest.overlaps (bm1 3 4 0x1008).expandOps.compact = true) ∧
    ((bm1 3 4 0x10F8).expandOps.dest.overlaps (bm1 3 4 0x10F8).expandOps.compact = false ∧
      (bm1 3 4 0x10F8).expandOps.dest.overlaps (bm1 3 4 0x10F8).expandOps.bitmap = true) ∧
    ((bm1 2 4 0x2000).expandOps.dest.overlaps (bm1 2 4 0x2000).expandOps.bitmap = false ∧
      (∑ p ∈ Finset.range (bm1 2 4 0x2000).expandOps.n,
        (streamBit (bm1 2 4 0x2000).mem (bm1 2 4 0x2000).expandOps.b p).toNat) ≠ (bm1 2 4 0x2000).expandOps.nc) := by decide

end Sys2Proof.Tests
end

section
/-! SUPPORT. Regions, memory and streams (00_scope R9, R10, R12, R14): the operations as sums and as shared addresses. -/

namespace Sys2Proof.Machine
open Finset

/-! Regions -/

theorem Region.outOfBounds_iff (r : Region) : r.outOfBounds = true ↔ 0 < r.len ∧ r.base + r.len > 2 ^ 32 := by
  rw [← memSize_eq, Region.outOfBounds, Bool.and_eq_true, decide_eq_true_eq, decide_eq_true_eq]

/-- The bounds that `Region.overlaps` compares, said by an address: the larger base is shared when any address is. -/
theorem Region.overlaps_iff (r q : Region) :
    r.overlaps q = true ↔ 0 < r.len ∧ 0 < q.len ∧ ∃ a, r.has a = true ∧ q.has a = true := by
  rw [← Bool.not_eq_false, Region.overlaps_eq_false, not_not]
  simp only [Region.has_iff]
  constructor
  · rintro ⟨hr, hq, hrq, hqr⟩
    exact ⟨hr, hq, max r.base q.base, by omega, by omega⟩
  · rintro ⟨hr, hq, a, hra, hqa⟩
    exact ⟨hr, hq, by omega, by omega⟩

/-! Little-endian values -/

theorem Memory.toNat_read_writeLE (m : Memory) (a n v i : Nat) (ha : a + n ≤ Config.memSize) (h : m.wf) (hi : i < n) :
    ((m.writeLE a n v).read (a + i)).toNat = v / 2 ^ (8 * i) % 2 ^ 8 := by
  rw [Memory.read_writeLE n m a v _ ha h, if_pos (by omega), Nat.add_sub_cancel_left, BitVec.toNat_ofNat, show 256 = 2 ^ 8 from rfl,
    ← pow_mul]

theorem sameOutside_writeLE (m : Memory) (a n v : Nat) (ha : a + n ≤ Config.memSize) (h : m.wf) :
    SameOutside m (m.writeLE a n v) ⟨a, n⟩ := by
  intro x hx
  rw [← Bool.not_eq_true, Region.has_iff] at hx
  rw [Memory.read_writeLE n m a v x ha h, if_neg hx]

theorem le32_eq_sum (m : Memory) (a : Nat) :
    (m.le32 a).toNat = ∑ i ∈ range 4, (m.read (a + i)).toNat * 2 ^ (8 * i) := by
  rw [le32_toNat]
  simp only [sum_range_succ, sum_range_zero, Nat.add_zero]
  omega

/-! Big-endian values -/

/-- One more digit at the low end: the step of `field` and of `bigEndian`. -/
theorem sum_mul_pow_succ (f : Nat → Nat) (b n : Nat) :
    ∑ j ∈ range (n + 1), f j * b ^ (n - j) = b * (∑ j ∈ range n, f j * b ^ (n - 1 - j)) + f n := by
  rw [sum_range_succ, Nat.sub_self, pow_zero, mul_one, mul_sum]
  congr 1
  refine sum_congr rfl fun j hj => ?_
  have hexp : n - j = n - 1 - j + 1 := by have := mem_range.1 hj; omega
  rw [hexp, pow_succ]
  ring

theorem streamBit_toNat (m : Memory) (base k : Nat) :
    (streamBit m base k).toNat = (m.read (base + k / 8)).toNat / 2 ^ (7 - k % 8) % 2 :=
  Nat.toNat_testBit _ _

theorem field_eq_sum (m : Memory) (base k w : Nat) :
    field m base k w = ∑ j ∈ range w, (streamBit m base (k + j)).toNat * 2 ^ (w - 1 - j) := by
  induction w with
  | zero => rfl
  | succ w ih => rw [field_succ, ih, Nat.add_sub_cancel, sum_mul_pow_succ]

theorem bigEndian_eq_sum (m : Memory) (a n : Nat) :
    bigEndian m a n = ∑ i ∈ range n, (m.read (a + i)).toNat * 2 ^ (8 * (n - 1 - i)) := by
  simp only [pow_mul, Nat.reducePow]
  induction n with
  | zero => rfl
  | succ n ih => rw [bigEndian, ih, Nat.add_sub_cancel, sum_mul_pow_succ]

theorem bigEndian_lt (m : Memory) (a n : Nat) : bigEndian m a n < 2 ^ (8 * n) := by
  induction n with
  | zero => exact Nat.one_pos
  | succ n ih =>
    have hbyte := (m.read (a + n)).isLt
    rw [bigEndian, Nat.mul_succ, pow_add]
    omega

end Sys2Proof.Machine
end

section
/-! SUPPORT. The statements about regions, memory and streams, settled. -/

namespace Sys2Proof.Machine

/-- Settles O29: an address shared by two intervals gives the larger base as one, and the larger base is between the ends. -/
theorem regionNotions : Obligations.RegionNotions :=
  ⟨Region.outOfBounds_iff, Region.overlaps_iff⟩

/-- Settles O30, by what `Memory.read_writeLE` says a read returns inside and outside the bytes written. -/
theorem littleEndianWrites : Obligations.LittleEndianWrites :=
  ⟨fun m a n v h ha => ⟨fun i => m.toNat_read_writeLE a n v i ha h, sameOutside_writeLE m a n v ha h,
    Memory.wf_writeLE n m a v ha h⟩, le32_eq_sum⟩

/-- Settles O31, by induction on the width of the field. -/
theorem streamFieldsAreSums : Obligations.StreamFieldsAreSums :=
  ⟨streamBit_toNat, field_eq_sum, field_zero⟩

/-- Settles O32: the sum U is `bigEndian`, of which `besm` takes sign and magnitude. -/
theorem signMagnitudeRead : Obligations.SignMagnitudeRead :=
  fun m a n _ => ⟨bigEndian m a n, bigEndian_eq_sum m a n, bigEndian_lt m a n, rfl⟩

end Sys2Proof.Machine
end

section
/-! SUPPORT. What keeps the invariant: the session after each BitWriter operation (41_bitwriter R120 to R131), a completion,
a move of the Host, and a platform reset. -/

namespace Sys2Proof.Machine

/-! The session -/

/-- A session that holds no bits yet is well-formed when its target lies in the data memory (41_bitwriter R120). -/
theorem Session.wf_opened (base cap : Nat) (h : base + cap ≤ Config.memSize) : (Session.opened base cap).wf := by
  have hbase := Nat.mod_le base (2 ^ 32)
  have hcap := Nat.mod_le cap (2 ^ 32)
  have hneeded : (Session.opened base cap).bytesNeeded 0 = 0 := by
    simp [Session.bytesNeeded, Session.bits, Session.opened, ceil8]
  refine ⟨?_, hneeded.trans_le (Nat.zero_le _), Nat.one_pos, fun _ => rfl⟩
  simp only [Session.opened, BitVec.toNat_ofNat]
  omega

/-- Dropping the partial byte only lowers the bytes needed (41_bitwriter R129). -/
theorem Session.wf_abort (b : Session) (h : b.wf) : Session.wf { b with active := false, nacc := 0#3, acc := 0#7 } := by
  obtain ⟨htarget, hneeded, -, -⟩ := h
  have hfewer := ceil8_mono (Nat.add_le_add_right (Nat.le_add_right (8 * b.count.toNat) b.nacc.toNat) 0)
  exact ⟨htarget, hfewer.trans hneeded, Nat.one_pos, fun _ => rfl⟩

/-- Bits that fit the capacity leave an open session well-formed (41_bitwriter R126). -/
theorem Sink.wf_appendAll (x : Sink) (w : Nat) (vs : List Word) (h : x.session.wf) (ha : x.session.active = true)
    (hn : x.session.bytesNeeded (w * vs.length) ≤ x.session.cap.toNat)
    (hbits : (x.session.bits + w * vs.length) / 8 < 2 ^ 32) : (x.appendAll w vs).session.wf := by
  obtain ⟨htarget, -, hacc, -⟩ := h
  obtain ⟨hactive, hbase, hcap⟩ := x.appendAll_fixed w vs
  refine ⟨by rwa [hbase, hcap], ?_, x.appendAll_accFits w vs hacc, ?_⟩
  · rwa [Session.bytesNeeded_zero, x.appendAll_bits w vs hbits, hcap]
  · rw [hactive, ha]
    nofun

/-! Completions -/

/-- Every way to complete a command keeps the invariant. -/
theorem Completion.inv {i : Instr} {s t : State} (h : Completion i s t) (hs : s.Inv) : t.Inv := by
  obtain ⟨hmem, hsession, -⟩ := hs
  cases h with
  | reject r hp => exact ⟨hmem, hsession, regsWf_raise s r hp.1⟩
  | abort r hp _ _ => exact ⟨hmem, s.session.wf_abort hsession, regsWf_raise s.abort r hp.1⟩
  | spoil d r _ _ hr =>
    have herr : r.code ≠ .none := by rcases hr with h | h <;> rw [h] <;> decide
    exact ⟨Memory.wf_drawRegion _ _ d hmem, hsession, regsWf_raise (s.draw d) r herr⟩
  | deliver d vs v _ hd hl => exact ⟨Memory.wf_storeWords vs _ _ (hl ▸ hd) hmem, hsession, regsWf_deliver _ _ _ _⟩
  | opened _ h =>
    obtain ⟨-, hin⟩ := (openChecks_eq_none _ _).1 h
    have htarget := Region.end_le _ (opnd_lt s 0) hin
    exact ⟨hmem, Session.wf_opened _ _ htarget, regsWf_succeed _ _⟩
  | appended w vs _ ha hn hf =>
    obtain ⟨hend, hbits⟩ := flush_bounds _ _ hf hn
    obtain ⟨hwritten, -⟩ := s.sink.appendAll_mem w vs hmem hbits hend
    exact ⟨hwritten, s.sink.wf_appendAll w vs hsession ha hn hbits, regsWf_settle _ _⟩
  | closed _ _ hf => exact ⟨close_mem s.sink hmem hf, wf_close _ s.sink rfl hsession, regsWf_settle _ _⟩

/-- Every way to complete a command has the frame of a completion (10_state R28, R38). -/
theorem Completion.completed {i : Instr} {s t : State} (h : Completion i s t) : Completed s t := by
  cases h with
  | reject r => exact completed_raise s r
  | abort r => exact completed_abort_raise s r
  | spoil d r => exact completed_draw_raise s d r
  | deliver d vs v => exact completed_deliver s d.base v vs
  | opened => exact completed_succeed _ 0
  | appended w vs => exact completed_settle s _
  | closed => exact completed_settle s _

theorem complete_inv (s t : State) (h : complete s = .next t) (hs : s.Inv) : t.Inv := by
  rcases complete_cases s with ⟨_, -, e⟩ | ⟨_, -, -, e⟩ | ⟨i, -, -, e⟩ <;> rw [e] at h
  · cases h
    exact ⟨hs.1, hs.2.1, regsWf_raise s _ nofun⟩
  · cases h
  · exact (exec_result i s t h).inv hs

/-- A well-formed session has room for every bit the checks let through, so no command faults (93 section 1; log 10). -/
theorem exec_completes (i : Instr) (s : State) (hs : s.Inv) : ∃ t, exec i s = .next t := by
  obtain ⟨-, hsession, -⟩ := hs
  cases i with
  | brRead => rcases execBrRead_cases s with ⟨_, -, e⟩ | ⟨-, e⟩ <;> exact ⟨_, e⟩
  | brReadf => rcases execBrReadf_cases s with ⟨_, -, e⟩ | ⟨-, _, -, e⟩ | ⟨-, -, e⟩ <;> exact ⟨_, e⟩
  | bwOpen => rcases execBwOpen_cases s with ⟨_, -, e⟩ | ⟨-, e⟩ <;> exact ⟨_, e⟩
  | bwWrite =>
    rcases execBwWrite_cases s with ⟨-, e⟩ | ⟨-, _, -, e⟩ | ⟨-, -, -, e⟩ | ⟨-, hc, hf, -⟩
    · exact ⟨_, e⟩
    · exact ⟨_, e⟩
    · exact ⟨_, e⟩
    · obtain ⟨-, hn⟩ := (writeChecks_eq_none _ _).1 hc
      exact absurd (s.session.flushFits_of_wf _ hsession hn) (by simp [hf])
  | bwWriteb =>
    rcases execBwWriteb_cases s with ⟨-, e⟩ | ⟨-, _, -, e⟩ | ⟨-, -, -, e⟩ | ⟨-, hc, hf, -⟩
    · exact ⟨_, e⟩
    · exact ⟨_, e⟩
    · exact ⟨_, e⟩
    · obtain ⟨-, -, -, hn⟩ := (batchChecks_eq_none _ _).1 hc
      exact absurd (s.session.flushFits_of_wf _ hsession hn) (by simp [hf])
  | bwClose =>
    rcases execBwClose_cases s with ⟨-, e⟩ | ⟨-, -, e⟩ | ⟨-, hf, -⟩
    · exact ⟨_, e⟩
    · exact ⟨_, e⟩
    · exact absurd (s.session.flushFits_of_wf 0 hsession hsession.2.1) (by simp [hf])
  | gdDecode => exact ⟨_, rfl⟩
  | sdDecode => exact ⟨_, rfl⟩
  | bmExpand => rcases execBmExpand_cases s with ⟨_, -, e⟩ | ⟨-, _, -, e⟩ | ⟨-, -, e⟩ <;> exact ⟨_, e⟩

theorem complete_not_fault (s : State) (f : Fault) (hs : s.Inv) : complete s ≠ .fault f := by
  rcases complete_cases s with ⟨_, -, e⟩ | ⟨_, -, -, e⟩ | ⟨i, -, -, e⟩ <;> rw [e]
  · nofun
  · nofun
  · obtain ⟨t, ht⟩ := exec_completes i s hs
    rw [ht]
    nofun

/-! The Host and the platform -/

theorem ackStatus_inv (s : State) (v : Word) (hs : s.Inv) : (s.ackStatus v).Inv := by
  obtain ⟨hmem, hsession, hbusy, herr, hinfo⟩ := hs
  refine ⟨hmem, hsession, fun hb => ?_, herr, hinfo⟩
  obtain ⟨hdone, hregs⟩ := hbusy hb
  exact ⟨by rw [State.ackStatus_done, hdone, Bool.false_and], hregs⟩

theorem submit_inv (s : State) (w : Word) (hs : s.Inv) : (s.submit w).Inv := by
  unfold State.submit
  split
  · exact hs
  · exact ⟨hs.1, hs.2.1, regsWf_accept s w⟩

theorem hostWrite_inv (r : RegName) (s : State) (v : Word) (hs : s.Inv) : (s.hostWrite r v).Inv := by
  cases r with
  | cmd => exact submit_inv s v hs
  | status => exact ackStatus_inv s v hs
  | arg i => exact hs
  | id | err | errInfo | res0 | bwBase | bwCap | bwCount | bwPart | reserved => exact hs

theorem hostMove_inv (m : HostMove) (s t : State) (h : hostMove m s = .next t) (hs : s.Inv) : t.Inv := by
  cases m with
  | regRead off size =>
    simp only [hostMove] at h
    split at h <;> cases h
    exact hs
  | regWrite off size v =>
    simp only [hostMove] at h
    split at h <;> cases h
    exact hostWrite_inv _ s v hs
  | memRead a =>
    cases h
    unfold State.hostLoad
    split <;> exact hs
  | memWrite a b =>
    simp only [hostMove] at h
    split at h <;> cases h
    exact ⟨Memory.wf_write _ _ _ a.isLt hs.1, hs.2⟩
  | wait => cases h; exact hs
  | check target => cases h; exact hs

theorem platformReset_inv (s : State) (hs : s.Inv) : s.platformReset.Inv :=
  ⟨drawAll_wf _ s hs.1, Session.wf_reset, nofun, nofun, fun _ => rfl⟩

end Sys2Proof.Machine
end

section
/-! SUPPORT. The statements about the invariant and about completions, settled. -/

namespace Sys2Proof.Machine

/-- Settles O12: a reset, a move of the Host and a completion each keep the invariant, and nothing else is a step. -/
theorem stepKeepsTheInvariant : Obligations.StepKeepsTheInvariant := by
  intro s t hs h
  rcases step_cases s with ⟨-, e⟩ | ⟨-, m, -, e⟩ | ⟨-, -, e⟩ | ⟨-, -, e⟩ <;> rw [e] at h
  · cases h
    exact platformReset_inv _ hs
  · exact hostMove_inv m _ t h hs
  · exact complete_inv _ t h hs
  · cases h
    exact hs

/-- Settles O13: the only fault is a flush outside memory, and the target of a well-formed session lies inside it. -/
theorem everyCommandCompletes : Obligations.EveryCommandCompletes := by
  refine ⟨fun s i => exec_completes i s, fun s f hs => ?_⟩
  rcases step_cases s with ⟨-, e⟩ | ⟨-, m, -, e⟩ | ⟨-, -, e⟩ | ⟨-, -, e⟩ <;> rw [e]
  · nofun
  · exact hostMove_not_fault m _ f
  · exact complete_not_fault _ f hs
  · nofun

/-- Settles O14, by the inversion of completions. -/
theorem completionFrame : Obligations.CompletionFrame :=
  fun i s t h => (exec_result i s t h).completed

end Sys2Proof.Machine
end

section
/-! SUPPORT. The commands that are not BW.*, and the session they leave alone (10_state R39). -/

namespace Sys2Proof.Machine

/-- The state with another session. -/
def State.withSession (b : Session) (s : State) : State := { s with session := b }

@[simp] theorem State.withSession_mem (b : Session) (s : State) : (s.withSession b).mem = s.mem := rfl
@[simp] theorem State.withSession_readOps (b : Session) (s : State) : (s.withSession b).readOps = s.readOps := rfl
@[simp] theorem State.withSession_groupOps (b : Session) (s : State) : (s.withSession b).groupOps = s.groupOps := rfl
@[simp] theorem State.withSession_sdOrder (b : Session) (s : State) : (s.withSession b).sdOrder = s.sdOrder := rfl
@[simp] theorem State.withSession_sdEow (b : Session) (s : State) : (s.withSession b).sdEow = s.sdEow := rfl
@[simp] theorem State.withSession_expandOps (b : Session) (s : State) : (s.withSession b).expandOps = s.expandOps := rfl

theorem State.withSession_raiseFrom (b : Session) (s : State) (d : Region) (r : Raise) :
    (s.withSession b).raiseFrom d r = (s.raiseFrom d r).withSession b := by
  unfold State.raiseFrom
  split <;> rfl

theorem State.raiseFrom_session (s : State) (d : Region) (r : Raise) : (s.raiseFrom d r).session = s.session := by
  unfold State.raiseFrom
  split <;> rfl

/-- From `s` the command neither writes the session nor lets its outcome depend on it. -/
def IgnoresSession (command : State → Host.Outcome State Fault Refusal) (s : State) : Prop :=
  ∀ b, ∃ t, command s = .next t ∧ t.session = s.session ∧ command (s.withSession b) = .next (t.withSession b)

theorem execBrRead_ignoresSession (s : State) : IgnoresSession execBrRead s := by
  intro b
  simp only [execBrRead, State.withSession_readOps, State.withSession_mem]
  cases readChecks s.readOps with
  | some r => exact ⟨_, rfl, rfl, rfl⟩
  | none => exact ⟨_, rfl, rfl, rfl⟩

theorem execBrReadf_ignoresSession (s : State) : IgnoresSession execBrReadf s := by
  intro b
  simp only [execBrReadf, State.withSession_readOps, State.withSession_mem, State.withSession_raiseFrom]
  cases readChecks s.readOps with
  | some r => exact ⟨_, rfl, rfl, rfl⟩
  | none =>
    cases floatCheck (readValues s.mem s.readOps) with
    | some r => exact ⟨_, rfl, s.raiseFrom_session _ r, rfl⟩
    | none => exact ⟨_, rfl, rfl, rfl⟩

theorem execGdDecode_ignoresSession (s : State) : IgnoresSession execGdDecode s := by
  intro b
  simp only [execGdDecode, gdDecode, State.withSession_groupOps, State.withSession_mem, State.withSession_raiseFrom]
  cases groupChecks Config.maxGroups s.groupOps with
  | some r => exact ⟨_, rfl, rfl, rfl⟩
  | none =>
    cases gdCore s.groupOps s.mem s.groupOps.payload s.groupOps.size with
    | error r => exact ⟨_, rfl, s.raiseFrom_session _ r, rfl⟩
    | ok fs => exact ⟨_, rfl, rfl, rfl⟩

theorem execSdDecode_ignoresSession (s : State) : IgnoresSession execSdDecode s := by
  intro b
  simp only [execSdDecode, sdDecode, State.withSession_groupOps, State.withSession_sdOrder, State.withSession_sdEow,
    State.withSession_mem, State.withSession_raiseFrom]
  cases diffChecks Config.maxGroups s.sdOrder s.sdEow s.groupOps with
  | some r => exact ⟨_, rfl, rfl, rfl⟩
  | none =>
    cases diffCore s.groupOps s.sdOrder s.sdEow s.mem with
    | error r => exact ⟨_, rfl, s.raiseFrom_session _ r, rfl⟩
    | ok fs => exact ⟨_, rfl, rfl, rfl⟩

theorem execBmExpand_ignoresSession (s : State) : IgnoresSession execBmExpand s := by
  intro b
  simp only [execBmExpand, State.withSession_expandOps, State.withSession_mem]
  cases expandChecks s.expandOps with
  | some r => exact ⟨_, rfl, rfl, rfl⟩
  | none =>
    cases bitmapCheck (setBits (bitmapBits s.mem s.expandOps.b s.expandOps.n)) s.expandOps.nc with
    | some r => exact ⟨_, rfl, rfl, rfl⟩
    | none => exact ⟨_, rfl, rfl, rfl⟩

end Sys2Proof.Machine
end

section
/-! SUPPORT. The Host's accesses of the register block, word by word (10_state R23 to R28), and the moves of a command
line (30_encoding R78). -/

namespace Sys2Proof.Machine

/-! Register accesses -/

theorem hostMove_regRead_word (s : State) (w : Nat) (h : w < 32) :
    hostMove (.regRead (4 * w) 4) s = .next (s.hostRead (regOfWord w)) := by
  simp only [hostMove, registerAccess_word w h]

theorem hostMove_regWrite_word (s : State) (w : Nat) (v : Word) (h : w < 32) :
    hostMove (.regWrite (4 * w) 4 v) s = .next (s.hostWrite (regOfWord w) v) := by
  simp only [hostMove, registerAccess_word w h]

theorem hostMove_writeArg (s : State) (i : Fin 16) (v : Word) :
    hostMove (.regWrite (0x40 + 4 * i.val) 4 v) s = .next { s with args := s.args.set i v } := by
  have h := hostMove_regWrite_word s (16 + i.val) v (by omega)
  rwa [regOfWord_arg, Nat.mul_add] at h

theorem hostMove_writeCmd (s : State) (w : Word) : hostMove (.regWrite 0x04 4 w) s = .next (s.submit w) :=
  hostMove_regWrite_word s 1 w (by decide)

theorem hostMove_writeStatus (s : State) (v : Word) : hostMove (.regWrite 0x08 4 v) s = .next (s.ackStatus v) :=
  hostMove_regWrite_word s 2 v (by decide)

theorem submit_idle (s : State) (w : Word) (h : s.busy = false) : s.submit w = s.accept w := by
  simp [State.submit, h]

theorem submit_busy (s : State) (w : Word) (h : s.busy = true) : s.submit w = { s with ovr := true } := by
  simp [State.submit, h]

theorem registerAccess_misshapen (off size : Nat) (h : size ≠ 4 ∨ off % 4 ≠ 0) :
    registerAccess off size = .error (.misshapenRegisterAccess off size) := if_pos h

theorem regOfWord_reserved (w : Nat) (h : 10 ≤ w) (h' : w < 16) : regOfWord w = .reserved := by
  interval_cases w <;> rfl

/-- A Host write of ID, of a register from ERR to BW_PART or of a reserved word is ignored (10_state R27). -/
theorem hostWrite_readOnly (s : State) (v : Word) (w : Nat) (h : w = 0 ∨ (3 ≤ w ∧ w < 16)) :
    s.hostWrite (regOfWord w) v = s := by
  rcases h with rfl | ⟨h, h'⟩
  · rfl
  · interval_cases w <;> rfl

theorem errWord_toNat (s : State) : s.errWord.toNat = s.err.number.toNat :=
  (BitVec.toNat_append 0#24 s.err.number).trans (by simp)

/-- A bit that is written 1 clears its flag (10_state R25). -/
theorem and_not_getLsbD (b : Bool) (v : Word) (i : Nat) :
    (b && !v.getLsbD i) = if v.toNat / 2 ^ i % 2 = 1 then false else b := by
  rw [BitVec.getLsbD, Nat.testBit_eq_decide_div_mod_eq]
  split <;> simp [*]

/-! Command lines -/

theorem commandLine_wf_iff (c : CommandLine) :
    c.wf = true ↔ c.operands.length = c.instr.arity ∧ ∀ v ∈ c.operands, v < 2 ^ 32 := by
  simp [CommandLine.wf]

/-- What the moves after the listed operands leave in the ARG registers a command ignores: zero, or with `.keep` what
stood there; no other register changes (30_encoding R78). -/
theorem ignored_moves (c : CommandLine) (s : State) (rest : List HostMove) :
    ∃ a : Vector Word 16, hostMoves ((ignoredWrites c).map mmioWrite ++ rest) s = hostMoves rest { s with args := a } ∧
      (∀ j : Fin 16, j.val < c.instr.arity → a[j] = s.args[j]) ∧
      (∀ j : Fin 16, c.instr.arity ≤ j.val → a[j] = if c.keep then s.args[j] else 0#32) := by
  unfold ignoredWrites
  cases c.keep with
  | true => exact ⟨s.args, rfl, fun _ _ => rfl, fun _ _ => rfl⟩
  | false =>
    have hlen : c.instr.arity + (List.replicate (16 - c.instr.arity) 0).length = 16 := by
      rw [List.length_replicate, Nat.add_sub_cancel' (arity_le c.instr)]
    obtain ⟨a, hrun, hzero, hkeep⟩ := arg_moves _ c.instr.arity s rest hlen.le
    refine ⟨a, hrun, fun j hj => hkeep j (.inl hj), fun j hj => ?_⟩
    rw [hzero j hj (by rw [hlen]; exact j.isLt)]
    simp

/-- The moves of a command line make an idle block accept the command, with the ARG registers as the writes left them. -/
theorem commandLine_moves (c : CommandLine) (s : State) (hb : s.busy = false)
    (hlen : c.operands.length = c.instr.arity) :
    ∃ a : Vector Word 16, hostMoves ((encodeLine c).map mmioWrite) s =
        .next (State.accept (encode c.instr) { s with args := a }) ∧
      (∀ j : Fin 16, j.val < c.instr.arity → a[j] = BitVec.ofNat 32 (c.operands.getD j.val 0)) ∧
      (∀ j : Fin 16, c.instr.arity ≤ j.val → a[j] = if c.keep then s.args[j] else 0#32) := by
  obtain ⟨a, hrun, hlisted, hrest⟩ := arg_moves c.operands 0 s
    ((ignoredWrites c).map mmioWrite ++ [mmioWrite (cmdOffset, encode c.instr)])
    (by rw [Nat.zero_add, hlen]; exact arity_le c.instr)
  obtain ⟨a', hrun', hkept, hignored⟩ := ignored_moves c { s with args := a } [mmioWrite (cmdOffset, encode c.instr)]
  rw [Nat.zero_add, hlen] at hlisted hrest
  refine ⟨a', ?_, fun j hj => ?_, fun j hj => ?_⟩
  · rw [encodeLine, List.append_assoc, List.map_append, List.map_append, List.map_singleton, hrun, hrun']
    exact cmd_move { s with args := a' } _ hb
  · rw [hkept j hj]
    exact hlisted j (Nat.zero_le _) hj
  · rw [hignored j hj, hrest j (.inr hj)]

end Sys2Proof.Machine
end

section
/-! SUPPORT. The statements about the session of other commands, command lines and register accesses, settled. -/

namespace Sys2Proof.Machine

/-- Settles O17: every check and every result of these commands is computed from operands and memory. -/
theorem onlyWriterCommandsUseTheSession : Obligations.OnlyWriterCommandsUseTheSession := by
  intro i s b hi
  cases i with
  | brRead => exact execBrRead_ignoresSession s b
  | brReadf => exact execBrReadf_ignoresSession s b
  | gdDecode => exact execGdDecode_ignoresSession s b
  | sdDecode => exact execSdDecode_ignoresSession s b
  | bmExpand => exact execBmExpand_ignoresSession s b
  | bwOpen | bwWrite | bwWriteb | bwClose => exact absurd (by decide) hi

/-- Settles O4: acceptance copies to the snapshot the ARG registers as the writes before it left them. -/
theorem commandLineReachesTheSnapshot : Obligations.CommandLineReachesTheSnapshot := by
  intro c s hc hb
  obtain ⟨hlen, hrange⟩ := (commandLine_wf_iff c).1 hc
  obtain ⟨a, hrun, hlisted, hignored⟩ := commandLine_moves c s hb hlen
  refine ⟨_, hrun, rfl, rfl, fun j hj => ?_, fun hk j hj => ?_, fun hk j hj => ?_, rfl, rfl, rfl⟩
  · have hj' : j.val < c.operands.length := hlen ▸ hj
    rw [State.opnd, State.accept_snap, hlisted j hj, List.getD_eq_getElem _ _ hj',
      toNat_ofNat_small _ (hrange _ (List.getElem_mem hj')), List.getElem?_eq_getElem hj']
  · rw [State.opnd, State.accept_snap, hignored j hj, hk]
    rfl
  · rw [State.opnd, State.accept_snap, hignored j hj, hk]
    rfl

/-- Settles O24: each clause reads one row of the register map. -/
theorem registerReads : Obligations.RegisterReads := by
  intro s
  refine fun w hw => ⟨_, hostMove_regRead_word s w hw, ?_, ?_, ?_, ?_, ?_, ?_, ?_, ?_, ?_, ?_, ?_, ?_⟩
  · rintro rfl; rfl
  · rintro rfl; rfl
  · rintro rfl; exact statusWord_toNat s
  · rintro rfl p hp he
    refine (errWord_toNat s).trans ?_
    rw [he]
    clear he
    revert p
    decide
  · rintro rfl; rfl
  · rintro rfl; rfl
  · rintro rfl; rfl
  · rintro rfl; rfl
  · rintro rfl; rfl
  · rintro rfl; exact partWord_toNat s.session
  · intro h h'
    rw [regOfWord_reserved w h h']
    rfl
  · rintro i rfl
    rw [regOfWord_arg]
    rfl

/-- Settles O5: taking the turn changes neither the latched word nor what the command reads. -/
theorem stepRunsTheDecodedCommand : Obligations.StepRunsTheDecodedCommand := by
  intro s i hturn hdecode hdevice
  rw [step_of_engine s hturn, complete, State.takeTurn_cmdLatch, hdecode, readsDevice_takeTurn, hdevice]
  rfl

/-- Settles O20: a write of CMD submits, and an idle block accepts. -/
theorem acceptanceTakesTheSnapshot : Obligations.AcceptanceTakesTheSnapshot := by
  intro s w hb
  refine ⟨s.accept w, ?_, rfl, rfl, rfl, rfl, rfl, rfl, rfl, rfl, rfl, rfl, rfl, rfl, rfl, rfl⟩
  rw [hostMove_writeCmd, submit_idle s w hb]

/-- Settles O21: a write of CMD submits, and a running block drops the word. -/
theorem droppedSubmissionSetsOvr : Obligations.DroppedSubmissionSetsOvr := by
  intro s w hb
  rw [hostMove_writeCmd, submit_busy s w hb]

/-- Settles O22: bits 1 and 3 of the value, read by division. -/
theorem statusWriteOneToClear : Obligations.StatusWriteOneToClear :=
  fun s v => ⟨_, hostMove_writeStatus s v, and_not_getLsbD s.done v 1, and_not_getLsbD s.ovr v 3, rfl⟩

/-- Settles O23: word 16 + i of the block is ARGi, and every other word but CMD and STATUS ignores a write. -/
theorem registerWritesOfArgAndReadOnly : Obligations.RegisterWritesOfArgAndReadOnly := by
  refine ⟨fun s i v => ⟨_, hostMove_writeArg s i v, ?_, fun j hj => ?_, rfl⟩, fun s v w hw => ?_⟩
  · exact Vector.getElem_set_self i.isLt
  · exact Vector.getElem_set_ne i.isLt j.isLt (fun h => hj (Fin.ext h.symm))
  · rw [hostMove_regWrite_word s w v (by omega), hostWrite_readOnly s v w hw]

/-- Settles O25: the shape of an access is checked before its offset is looked up. -/
theorem misshapenRegisterAccessIsRefused : Obligations.MisshapenRegisterAccessIsRefused := by
  intro s off size v h
  simp only [hostMove, registerAccess_misshapen off size h, and_self]

end Sys2Proof.Machine
end

section
/-! SUPPORT. Footprints (20_memory R57, R58, R61): the bytes a completion can change, and what it computes from memory. -/

namespace Sys2Proof.Machine

/-! Regions of a command -/

@[simp] theorem covers_nil (a : Nat) : covers [] a = false := rfl

@[simp] theorem covers_cons (r : Region) (rs : List Region) (a : Nat) :
    covers (r :: rs) a = (r.has a || covers rs a) := rfl

theorem Session.openTarget_of_active (b : Session) (h : b.active = true) : b.openTarget = [b.target] := if_pos h

/-- BW.WRITE, BW.WRITEB and BW.CLOSE on an open session write its target region (20_memory R58). -/
theorem writeRegions_of_active (i : Instr) (s : State) (hi : i = .bwWrite ∨ i = .bwWriteb ∨ i = .bwClose)
    (ha : s.session.active = true) : writeRegions i s = [s.session.target] := by
  rcases hi with rfl | rfl | rfl <;> exact s.session.openTarget_of_active ha

/-- A shared address makes a region of the running command overlap a device window (20_memory R61). -/
theorem readsDevice_of_shared (s : State) (i : Instr) (hbusy : s.busy = true) (hdecode : decode s.cmdLatch = .ok i)
    (h : ∃ r ∈ readRegions i s, ∃ d ∈ s.devices, ∃ a, r.has a = true ∧ d.has a = true) : s.readsDevice = true := by
  obtain ⟨r, hr, d, hd, a, hra, hda⟩ := h
  have hr' := (r.has_iff a).1 hra
  have hd' := (d.has_iff a).1 hda
  have hoverlap : r.overlaps d = true := (r.overlaps_iff d).2 ⟨by omega, by omega, a, hra, hda⟩
  have hrunning : s.running readRegions = readRegions i s := by simp [State.running, hbusy, hdecode]
  rw [State.readsDevice, hrunning, List.any_eq_true]
  exact ⟨r, hr, List.any_eq_true.2 ⟨d, hd, hoverlap⟩⟩

/-! Writes -/

/-- Bytes before the cursor or at the needed size and after are not flushed (41_bitwriter R122). -/
theorem Sink.appendAll_sameOutside (x : Sink) (w : Nat) (vs : List Word) (h : x.mem.wf)
    (hn : x.session.bytesNeeded (w * vs.length) ≤ x.session.cap.toNat)
    (hf : x.session.flushFits (w * vs.length) = true) :
    SameOutside x.mem (x.appendAll w vs).mem x.session.target := by
  intro a ha
  obtain ⟨hend, hbits⟩ := flush_bounds _ _ hf hn
  obtain ⟨-, hkept⟩ := x.appendAll_mem w vs h hbits hend
  refine hkept a fun ⟨hlow, hhigh⟩ => ?_
  rw [← Bool.not_eq_true, Region.has_iff] at ha
  simp only [Session.target, Session.cursor, Session.bytesNeeded, ceil8] at *
  omega

/-- The one byte that closing flushes is a byte the session needs (41_bitwriter R131). -/
theorem Sink.close_sameOutside (x : Sink) (h : x.mem.wf) (hn : x.session.bytesNeeded 0 ≤ x.session.cap.toNat) :
    SameOutside x.mem x.close.mem x.session.target := by
  intro a ha
  refine close_read x h a fun ⟨hlow, hhigh⟩ => ?_
  rw [← Bool.not_eq_true, Region.has_iff] at ha
  simp only [Session.target, Session.cursor] at *
  omega

/-- No way to complete a command changes a byte outside its write footprint (20_memory R58). -/
theorem Completion.read_outside {i : Instr} {s t : State} (h : Completion i s t) (hs : s.Inv) (a : Nat)
    (ha : covers (writeRegions i s) a = false) : t.mem.read a = s.mem.read a := by
  obtain ⟨hmem, ⟨-, hneeded, -⟩, -⟩ := hs
  cases h with
  | reject | abort | opened => rfl
  | spoil d r hw _ _ =>
    have had : d.has a = false := by simpa [hw] using ha
    rw [State.raise_mem, State.draw_mem, Memory.read_drawRegion _ _ _ _ hmem, if_neg (by simp [had])]
  | deliver d vs v hw hd hl =>
    have had : d.has a = false := by simpa [hw] using ha
    rw [State.deliver_mem]
    exact Memory.read_storeWords_outside _ _ _ _ (hl ▸ hd) hmem (hl ▸ had)
  | appended w vs hi hact hn hf =>
    have hat : s.session.target.has a = false := by
      simpa [writeRegions_of_active i s (by tauto) hact] using ha
    exact s.sink.appendAll_sameOutside w vs hmem hn hf a hat
  | closed hi hact _ =>
    have hat : s.session.target.has a = false := by
      simpa [writeRegions_of_active i s (by tauto) hact] using ha
    exact s.sink.close_sameOutside hmem hneeded a hat

/-! Reads -/

/-- The state with another memory. -/
def State.withMem (m : Memory) (s : State) : State := { s with mem := m }

@[simp] theorem State.withMem_mem (m : Memory) (s : State) : (s.withMem m).mem = m := rfl
@[simp] theorem State.withMem_session (m : Memory) (s : State) : (s.withMem m).session = s.session := rfl
@[simp] theorem State.withMem_snap (m : Memory) (s : State) : (s.withMem m).snap = s.snap := rfl
@[simp] theorem State.withMem_opnd (m : Memory) (s : State) (i : Fin 16) : (s.withMem m).opnd i = s.opnd i := rfl
@[simp] theorem State.withMem_readOps (m : Memory) (s : State) : (s.withMem m).readOps = s.readOps := rfl
@[simp] theorem State.withMem_openOps (m : Memory) (s : State) : (s.withMem m).openOps = s.openOps := rfl
@[simp] theorem State.withMem_batchOps (m : Memory) (s : State) : (s.withMem m).batchOps = s.batchOps := rfl
@[simp] theorem State.withMem_groupOps (m : Memory) (s : State) : (s.withMem m).groupOps = s.groupOps := rfl
@[simp] theorem State.withMem_sdOrder (m : Memory) (s : State) : (s.withMem m).sdOrder = s.sdOrder := rfl
@[simp] theorem State.withMem_sdEow (m : Memory) (s : State) : (s.withMem m).sdEow = s.sdEow := rfl
@[simp] theorem State.withMem_expandOps (m : Memory) (s : State) : (s.withMem m).expandOps = s.expandOps := rfl

/-- Two memories that agree on a footprint agree on each of its regions. -/
theorem agreeOn_of_covers {m m' : Memory} {rs : List Region} {r : Region} (hr : r ∈ rs)
    (h : ∀ a, covers rs a = true → m'.read a = m.read a) : AgreeOn m m' r :=
  fun a ha => h a (List.any_eq_true.2 ⟨r, hr, ha⟩)

/-- The field of value i ends inside the footprint; a field of no bits reads nothing (40_bitreader R101, R102). -/
theorem readValues_agree (o : ReadOps) (m m' : Memory) (h : AgreeOn m m' o.source) :
    readValues m' o = readValues m o := by
  refine List.map_congr_left fun i hi => ?_
  rcases Nat.eq_zero_or_pos o.w with hw | hw
  · rw [hw, field_zero, field_zero]
  have hlast : i * o.w + o.w ≤ o.w * o.n := by
    rw [← Nat.succ_mul, Nat.mul_comm o.w]
    exact Nat.mul_le_mul_right _ (List.mem_range.1 hi)
  have hlen : o.footprint = ceil8 (o.off + o.w * o.n) := if_neg (by omega)
  unfold ceil8 at hlen
  exact h.field o.src _ o.w (by omega) (by omega) (by omega)

theorem loadWords_agree (m m' : Memory) (a n : Nat) (h : AgreeOn m m' ⟨a, 4 * n⟩) :
    m'.loadWords a n = m.loadWords a n := by
  refine List.map_congr_left fun i hi => ?_
  have hlast := List.mem_range.1 hi
  exact h.le32 _ (by omega) (by omega)

theorem bitmapBits_agree (m m' : Memory) (b n : Nat) (h : AgreeOn m m' ⟨b, ceil8 n⟩) :
    bitmapBits m' b n = bitmapBits m b n := by
  refine List.map_congr_left fun p hp => ?_
  have hlast := List.mem_range.1 hp
  exact h.bit b p (by omega) (by unfold ceil8; omega)

/-- The answers of a command in `s` and in `s` with memory `m`: the same fault, or next states with the same result. -/
inductive AnswersAlike (s : State) (m : Memory) : (o o' : Host.Outcome State Fault Refusal) → Prop
  | next {t u : State} (h : SameResult s m t u) : AnswersAlike s m (.next t) (.next u)
  | fault (f : Fault) : AnswersAlike s m (.fault f) (.fault f)

theorem AnswersAlike.of_next {s t : State} {m : Memory} {o : Host.Outcome State Fault Refusal}
    (h : AnswersAlike s m (.next t) o) : ∃ u, o = .next u ∧ SameResult s m t u := by
  cases h with
  | next h => exact ⟨_, rfl, h⟩

/-- The last step of BW.WRITE, BW.WRITEB and BW.CLOSE: whether the flush fits is asked of the session alone (log 10). -/
theorem answersAlike_ite (s : State) (m : Memory) (fits : Bool) {t u : State} {f : Fault}
    (h : fits = true → SameResult s m t u) :
    AnswersAlike s m (if fits then .next t else .fault f) (if fits then .next u else .fault f) := by
  cases fits with
  | false => exact .fault f
  | true => exact .next (h rfl)

section
variable (s : State) (m : Memory) (hs : s.mem.wf) (hm : m.wf)
include hs hm

theorem execBrRead_answersAlike (h : AgreeOn s.mem m s.readOps.source) :
    AnswersAlike s m (execBrRead s) (execBrRead (s.withMem m)) := by
  simp only [execBrRead, State.withMem_readOps, State.withMem_mem, readValues_agree _ _ _ h]
  cases hc : readChecks s.readOps with
  | some r => exact .next (rel_raise s m r)
  | none => exact .next (rel_deliver s m _ _ _ hs hm (by
      rw [List.length_map, readValues_length]
      exact read_dest_end s hc))

theorem execBrReadf_answersAlike (h : AgreeOn s.mem m s.readOps.source) :
    AnswersAlike s m (execBrReadf s) (execBrReadf (s.withMem m)) := by
  simp only [execBrReadf, State.withMem_readOps, State.withMem_mem, readValues_agree _ _ _ h]
  cases hc : readChecks s.readOps with
  | some r => exact .next (rel_raise s m r)
  | none =>
    cases floatCheck (readValues s.mem s.readOps) with
    | some r => exact .next (rel_raiseFrom s m _ r hs hm)
    | none => exact .next (rel_deliver s m _ _ _ hs hm (by
      rw [List.length_map, readValues_length]
      exact read_dest_end s hc))

omit hs hm in
theorem execBwOpen_answersAlike : AnswersAlike s m (execBwOpen s) (execBwOpen (s.withMem m)) := by
  simp only [execBwOpen, State.withMem_openOps, State.withMem_session]
  cases openChecks s.session s.openOps with
  | some r => exact .next (rel_raise s m r)
  | none => exact .next ⟨rfl, rfl, rfl, rfl, Follows.refl _ _⟩

theorem execBwWrite_answersAlike : AnswersAlike s m (execBwWrite s) (execBwWrite (s.withMem m)) := by
  simp only [execBwWrite, State.withMem_session, State.withMem_opnd, State.withMem_snap]
  cases sessionCheck s.session with
  | some r => exact .next (rel_raise s m r)
  | none =>
    cases hc : writeChecks s.session (s.opnd 1) with
    | some r => exact .next (rel_abort s m r)
    | none =>
      refine answersAlike_ite s m _ fun hf => ?_
      obtain ⟨-, hn⟩ := (writeChecks_eq_none _ _).1 hc
      obtain ⟨hend, hbits⟩ := flush_bounds _ _ hf hn
      obtain ⟨hsession, hmem⟩ := sink_append s.snap[0] s.mem m (s.opnd 1) s.sink (s.withMem m).sink rfl hs hm
        hbits hend (Follows.refl _ _)
      exact rel_settle s m _ _ hsession hmem

theorem execBwWriteb_answersAlike (h : AgreeOn s.mem m s.batchOps.source) :
    AnswersAlike s m (execBwWriteb s) (execBwWriteb (s.withMem m)) := by
  simp only [execBwWriteb, State.withMem_session, State.withMem_batchOps, State.withMem_mem, loadWords_agree _ _ _ _ h]
  cases sessionCheck s.session with
  | some r => exact .next (rel_raise s m r)
  | none =>
    cases hc : batchChecks s.session s.batchOps with
    | some r => exact .next (rel_abort s m r)
    | none =>
      refine answersAlike_ite s m _ fun hf => ?_
      obtain ⟨-, -, -, hn⟩ := (batchChecks_eq_none _ _).1 hc
      obtain ⟨hend, hbits⟩ := flush_bounds _ _ hf hn
      obtain ⟨hsession, hmem⟩ := sink_all s.mem m s.batchOps.w (s.mem.loadWords s.batchOps.src s.batchOps.cnt)
        s.sink (s.withMem m).sink rfl hs hm (by rwa [loadWords_length]) (by rwa [loadWords_length]) (Follows.refl _ _)
      exact rel_settle s m _ _ hsession hmem

theorem execBwClose_answersAlike : AnswersAlike s m (execBwClose s) (execBwClose (s.withMem m)) := by
  simp only [execBwClose, State.withMem_session]
  cases sessionCheck s.session with
  | some r => exact .next (rel_raise s m r)
  | none =>
    obtain ⟨hsession, hmem⟩ := sink_close s.sink (s.withMem m).sink rfl hs hm (Follows.refl s.mem m)
    exact answersAlike_ite s m _ fun _ => rel_settle s m _ _ hsession hmem

/-- GD.DECODE and SD.DECODE: the operand checks read no memory, and with them passed the decoded field is the same. -/
theorem DecodesAs.sameResult {t u : State} {checks : Option Raise} {result result' : Except Raise (List Slot)}
    (ht : DecodesAs s t checks result) (hu : DecodesAs (s.withMem m) u checks result')
    (hresult : checks = none → result' = result)
    (hfield : checks = none → ∀ fs, result = .ok fs → s.groupOps.dst + 4 * fs.length ≤ Config.memSize) :
    SameResult s m t u := by
  rcases ht with ⟨r, rfl, rfl⟩ | ⟨rfl, r, rfl, rfl⟩ | ⟨rfl, fs, rfl, rfl⟩
  · obtain rfl : u = (s.withMem m).raise r := by simpa [DecodesAs] using hu
    exact rel_raise s m r
  · obtain rfl : u = (s.withMem m).raiseFrom s.groupOps.dest r := by simpa [DecodesAs, hresult] using hu
    exact rel_raiseFrom s m _ r hs hm
  · obtain rfl : u = (s.withMem m).deliver s.groupOps.dst (fs.map Slot.word) s.groupOps.size := by
      simpa [DecodesAs, hresult] using hu
    exact rel_deliver s m _ _ _ hs hm (by rw [List.length_map]; exact hfield rfl fs rfl)

theorem gdDecode_sameResult (mg : Nat) (h : AgreeOn s.mem m s.groupOps.payloadRegion) :
    SameResult s m (gdDecode mg s) (gdDecode mg (s.withMem m)) := by
  refine DecodesAs.sameResult s m hs hm (gdDecode_cases mg s) (gdDecode_cases mg (s.withMem m))
    (fun _ => core_agree _ _ _ _ _ h) fun hc fs hfs => ?_
  obtain ⟨-, -, -, hlen⟩ := gdCore_ok _ _ _ _ _ hfs
  rw [hlen]
  exact group_dest_end mg s ((groupChecks_eq_none _ _).1 hc)

theorem sdDecode_sameResult (mg : Nat) (h : AgreeOn s.mem m s.groupOps.payloadRegion) :
    SameResult s m (sdDecode mg s) (sdDecode mg (s.withMem m)) := by
  refine DecodesAs.sameResult s m hs hm (sdDecode_cases mg s) (sdDecode_cases mg (s.withMem m))
    (fun hc => ?_) fun hc fs hfs => ?_
  · obtain ⟨horder, -, -, hseeds⟩ := (diffChecks_eq_none _ _ _ _).1 hc
    exact diff_agree _ _ _ _ _ h hseeds horder
  · obtain ⟨-, -, hvalid, -⟩ := (diffChecks_eq_none _ _ _ _).1 hc
    rw [diffCore_ok_length _ _ _ _ _ hfs]
    exact group_dest_end mg s hvalid

/-- The count check stands between the two reads: only with it passed do the set bits use no more than the nc compact
values (44_bitmap R193, R194). -/
theorem execBmExpand_answersAlike (hcompact : AgreeOn s.mem m s.expandOps.compact)
    (hbitmap : AgreeOn s.mem m s.expandOps.bitmap) :
    AnswersAlike s m (execBmExpand s) (execBmExpand (s.withMem m)) := by
  simp only [execBmExpand, State.withMem_expandOps, State.withMem_mem, bitmapBits_agree _ _ _ _ hbitmap]
  cases hc : expandChecks s.expandOps with
  | some r => exact .next (rel_raise s m r)
  | none =>
    cases hb : bitmapCheck (setBits (bitmapBits s.mem s.expandOps.b s.expandOps.n)) s.expandOps.nc with
    | some r => exact .next (rel_raise s m r)
    | none =>
      have hcount : setBits (bitmapBits s.mem s.expandOps.b s.expandOps.n) = s.expandOps.nc := by
        simpa [bitmapCheck, check_eq_none] using hb
      have hscatter := scatter_agree s.mem m _ _ hcompact (bitmapBits s.mem s.expandOps.b s.expandOps.n) 0 (by omega)
      rw [hscatter]
      refine .next (rel_deliver s m _ _ _ hs hm ?_)
      rw [scatter_length, bitmapBits_length]
      exact expand_dest_end s hc

/-- A command's answer depends on no byte outside its read footprint (20_memory R57). -/
theorem exec_answersAlike (i : Instr) (h : ∀ a, covers (readRegions i s) a = true → m.read a = s.mem.read a) :
    AnswersAlike s m (exec i s) (exec i (s.withMem m)) := by
  have hregion : ∀ r ∈ readRegions i s, AgreeOn s.mem m r := fun r hr => agreeOn_of_covers hr h
  cases i with
  | brRead => exact execBrRead_answersAlike s m hs hm (hregion _ (.head _))
  | brReadf => exact execBrReadf_answersAlike s m hs hm (hregion _ (.head _))
  | bwOpen => exact execBwOpen_answersAlike s m
  | bwWrite => exact execBwWrite_answersAlike s m hs hm
  | bwWriteb => exact execBwWriteb_answersAlike s m hs hm (hregion _ (.head _))
  | bwClose => exact execBwClose_answersAlike s m hs hm
  | gdDecode => exact .next (gdDecode_sameResult s m hs hm _ (hregion _ (.head _)))
  | sdDecode => exact .next (sdDecode_sameResult s m hs hm _ (hregion _ (.head _)))
  | bmExpand => exact execBmExpand_answersAlike s m hs hm (hregion _ (.head _)) (hregion _ (.tail _ (.head _)))

end

end Sys2Proof.Machine
end

section
/-! SUPPORT. The statements about footprints, settled. -/

namespace Sys2Proof.Machine

/-- Settles O15, by the inversion of completions: each writes in its destination, in the open session's target, or nowhere. -/
theorem writesOnlyTheWriteFootprint : Obligations.WritesOnlyTheWriteFootprint :=
  fun i s t a hs h ha => (exec_result i s t h).read_outside hs a ha

/-- Settles O19: memories that agree on the read footprint give every check and every result the same value. -/
theorem readsOnlyTheReadFootprint : Obligations.ReadsOnlyTheReadFootprint := by
  intro i s m t hs hm hagree ht
  have halike := exec_answersAlike s m hs.1 hm i hagree
  rw [ht] at halike
  exact halike.of_next

/-- Settles O7: a shared address makes the two regions overlap, and a step on the Engine's turn looks for such an overlap. -/
theorem deviceReadIsRefused : Obligations.DeviceReadIsRefused := by
  intro s i hturn hdecode hshared
  obtain ⟨hbusy, -, -⟩ := (turn_engine s).1 hturn
  have hdevice := readsDevice_of_shared s i hbusy hdecode hshared
  rw [step_of_engine s hturn, complete, State.takeTurn_cmdLatch, hdecode, readsDevice_takeTurn, hdevice]
  rfl

end Sys2Proof.Machine
end

section
/-! SUPPORT. The decoder as the inverse of the encoder: a command word by its two fields (30_encoding R70, R73), and a command
line by its register writes (R77 to R79). -/

namespace Sys2Proof.Machine

/-! Command words -/

/-- RSV and OPC are the whole word (30_encoding R70). -/
theorem eq_append_iff_fields (w : Word) (rsv : BitVec 24) (opc : BitVec 8) :
    w = rsv ++ opc ↔ rsvField w = rsv ∧ opcField w = opc := by
  constructor
  · rintro rfl
    exact ⟨BitVec.extractLsb'_append_eq_left, BitVec.extractLsb'_append_eq_right⟩
  · rintro ⟨rfl, rfl⟩
    exact (@BitVec.extractLsb'_append_extractLsb' 24 8 w).symm

theorem decode_eq_ok_iff_fields (w : Word) (i : Instr) :
    decode w = .ok i ↔ rsvField w = 0#24 ∧ opcodeMap.lookup (opcField w) = some i := by
  unfold decode
  by_cases hrsv : rsvField w = 0#24
  · cases opcodeMap.lookup (opcField w) <;> simp [hrsv]
  · simp [hrsv]

/-- No two commands share an opcode, and each has a row (30_encoding R73). -/
theorem opcodeMap_lookup_eq_some (opc : BitVec 8) (i : Instr) : opcodeMap.lookup opc = some i ↔ opc = i.opcode := by
  constructor
  · have hrows : ∀ row ∈ opcodeMap, row.1 = row.2.opcode := by decide
    intro h
    obtain ⟨before, after, hmap, -⟩ := List.lookup_eq_some_iff.1 h
    exact hrows (opc, i) (by simp [hmap])
  · rintro rfl
    cases i <;> rfl

theorem decode_eq_ok_iff (w : Word) (i : Instr) : decode w = .ok i ↔ w = encode i := by
  rw [decode_eq_ok_iff_fields, opcodeMap_lookup_eq_some, encode, eq_append_iff_fields]

@[simp] theorem decode_encode (i : Instr) : decode (encode i) = .ok i := (decode_eq_ok_iff _ i).2 rfl

/-- The words R75 calls illegal, as numbers, are the word of no command. -/
theorem decode_ne_ok_of_illegal (w : Word) (h : w.toNat / 2 ^ 8 ≠ 0 ∨
    w.toNat % 2 ^ 8 ∉ [0x01, 0x02, 0x10, 0x11, 0x12, 0x13, 0x20, 0x21, 0x30]) (i : Instr) : decode w ≠ .ok i := by
  rw [Ne, decode_eq_ok_iff]
  rintro rfl
  revert h
  cases i <;> decide

/-! Command lines -/

/-- Reading a list index by index gives the list. -/
theorem mapM_range_eq_some {α : Type} (xs : List α) (f : Nat → Option α) (h : ∀ j, j < xs.length → f j = xs[j]?) :
    (List.range xs.length).mapM f = some xs := by
  induction xs generalizing f with
  | nil => rfl
  | cons x xs ih =>
    have hhead : f 0 = some x := h 0 (Nat.succ_pos _)
    have htail := ih (f ∘ Nat.succ) fun j hj => h (j + 1) (Nat.succ_lt_succ hj)
    rw [List.length_cons, List.range_succ_eq_map, List.mapM_cons, List.mapM_map, hhead, htail]
    rfl

/-- The operand writes come first, so ARGj is found there (30_encoding R78, R79). -/
theorem encodeLine_lookup (c : CommandLine) (hrange : ∀ v ∈ c.operands, v < 2 ^ 32) (j : Nat) (hj : j < c.operands.length) :
    ((encodeLine c).lookup (argOffset j)).map BitVec.toNat = c.operands[j]? := by
  have hwrite : (argWrites 0 c.operands).lookup (argOffset j) = some (BitVec.ofNat 32 c.operands[j]) := by
    have h := argWrites_lookup c.operands 0 j hj
    rwa [Nat.zero_add, List.getElem?_eq_getElem hj] at h
  rw [encodeLine, List.append_assoc, lookup_append _ _ _ _ hwrite, Option.map_some,
    toNat_ofNat_small _ (hrange _ (List.getElem_mem hj)), List.getElem?_eq_getElem hj]

theorem decodeLine_append_cmd (ws : List (Nat × Word)) (i : Instr) (vs : List Nat) (hlen : vs.length = i.arity)
    (h : ∀ j, j < vs.length → ((ws ++ [(cmdOffset, encode i)]).lookup (argOffset j)).map BitVec.toNat = vs[j]?) :
    decodeLine (ws ++ [(cmdOffset, encode i)]) = some (i, vs) := by
  have hread := mapM_range_eq_some vs _ h
  rw [hlen] at hread
  simp [decodeLine, hread]

end Sys2Proof.Machine
end

section
/-! SUPPORT. The operand registers a command ignores (30_encoding R72): the state with another snapshot. -/

namespace Sys2Proof.Machine

/-- The state with another snapshot. -/
def State.withSnap (v : Vector Word 16) (s : State) : State := { s with snap := v }

/-- The same answer, a next state with another snapshot. -/
def answerWithSnap (v : Vector Word 16) : Host.Outcome State Fault Refusal → Host.Outcome State Fault Refusal
  | .next t    => .next (t.withSnap v)
  | .fault f   => .fault f
  | .refused r => .refused r

/-- The last step of BW.WRITE, BW.WRITEB and BW.CLOSE: whether the flush fits is asked of the session alone (log 10). -/
theorem answerWithSnap_ite (v : Vector Word 16) (fits : Bool) (t : State) (f : Fault) :
    (if fits then .next (t.withSnap v) else .fault f) = answerWithSnap v (if fits then .next t else .fault f) := by
  cases fits with
  | false => rfl
  | true => rfl

@[simp] theorem State.withSnap_mem (v : Vector Word 16) (s : State) : (s.withSnap v).mem = s.mem := rfl
@[simp] theorem State.withSnap_session (v : Vector Word 16) (s : State) : (s.withSnap v).session = s.session := rfl
@[simp] theorem State.withSnap_sink (v : Vector Word 16) (s : State) : (s.withSnap v).sink = s.sink := rfl
@[simp] theorem State.withSnap_snap (v : Vector Word 16) (s : State) : (s.withSnap v).snap = v := rfl

theorem State.withSnap_raiseFrom (v : Vector Word 16) (s : State) (d : Region) (r : Raise) :
    (s.withSnap v).raiseFrom d r = (s.raiseFrom d r).withSnap v := by
  unfold State.raiseFrom
  split <;> rfl

/-- The snapshot agrees with `v` on the first `n` operand registers. -/
def State.SameOperands (n : Nat) (v : Vector Word 16) (s : State) : Prop :=
  ∀ j : Fin 16, j.val < n → v[j] = s.snap[j]

section
variable {n : Nat} {v : Vector Word 16} {s : State} (h : s.SameOperands n v)
include h

theorem opnd_withSnap (j : Fin 16) (hj : j.val < n) : (s.withSnap v).opnd j = s.opnd j :=
  congrArg BitVec.toNat (h j hj)

theorem readOps_withSnap (hn : 5 ≤ n) : (s.withSnap v).readOps = s.readOps := by
  have hop (j : Fin 16) (hj : j.val < 5) := opnd_withSnap h j (hj.trans_le hn)
  simp (disch := decide) only [State.readOps, hop]

theorem openOps_withSnap (hn : 2 ≤ n) : (s.withSnap v).openOps = s.openOps := by
  have hop (j : Fin 16) (hj : j.val < 2) := opnd_withSnap h j (hj.trans_le hn)
  simp (disch := decide) only [State.openOps, hop]

theorem batchOps_withSnap (hn : 3 ≤ n) : (s.withSnap v).batchOps = s.batchOps := by
  have hop (j : Fin 16) (hj : j.val < 3) := opnd_withSnap h j (hj.trans_le hn)
  simp (disch := decide) only [State.batchOps, hop]

theorem groupOps_withSnap (hn : 14 ≤ n) : (s.withSnap v).groupOps = s.groupOps := by
  have hop (j : Fin 16) (hj : j.val < 14) := opnd_withSnap h j (hj.trans_le hn)
  simp (disch := decide) only [State.groupOps, hop]

theorem expandOps_withSnap (hn : 5 ≤ n) : (s.withSnap v).expandOps = s.expandOps := by
  have hop (j : Fin 16) (hj : j.val < 5) := opnd_withSnap h j (hj.trans_le hn)
  simp (disch := decide) only [State.expandOps, hop]

end

section
variable {v : Vector Word 16} {s : State}

theorem execBrRead_withSnap (h : s.SameOperands 5 v) : execBrRead (s.withSnap v) = answerWithSnap v (execBrRead s) := by
  simp only [execBrRead, readOps_withSnap h le_rfl, State.withSnap_mem]
  cases readChecks s.readOps with
  | some r => rfl
  | none => rfl

theorem execBrReadf_withSnap (h : s.SameOperands 5 v) : execBrReadf (s.withSnap v) = answerWithSnap v (execBrReadf s) := by
  simp only [execBrReadf, readOps_withSnap h le_rfl, State.withSnap_mem, State.withSnap_raiseFrom]
  cases readChecks s.readOps with
  | some r => rfl
  | none => cases floatCheck (readValues s.mem s.readOps) <;> rfl

theorem execBwOpen_withSnap (h : s.SameOperands 2 v) : execBwOpen (s.withSnap v) = answerWithSnap v (execBwOpen s) := by
  simp only [execBwOpen, openOps_withSnap h le_rfl, State.withSnap_session]
  cases openChecks s.session s.openOps <;> rfl

theorem execBwWrite_withSnap (h : s.SameOperands 2 v) : execBwWrite (s.withSnap v) = answerWithSnap v (execBwWrite s) := by
  have hvalue : v[0] = s.snap[0] := h 0 (by decide)
  simp only [execBwWrite, opnd_withSnap h 1 (by decide), hvalue, State.withSnap_session, State.withSnap_sink,
    State.withSnap_snap]
  cases sessionCheck s.session with
  | some r => rfl
  | none =>
    cases writeChecks s.session (s.opnd 1) with
    | some r => rfl
    | none => exact answerWithSnap_ite v _ (s.settle _) _

theorem execBwWriteb_withSnap (h : s.SameOperands 3 v) :
    execBwWriteb (s.withSnap v) = answerWithSnap v (execBwWriteb s) := by
  simp only [execBwWriteb, batchOps_withSnap h le_rfl, State.withSnap_session, State.withSnap_sink, State.withSnap_mem]
  cases sessionCheck s.session with
  | some r => rfl
  | none =>
    cases batchChecks s.session s.batchOps with
    | some r => rfl
    | none => exact answerWithSnap_ite v _ (s.settle _) _

theorem execBwClose_withSnap : execBwClose (s.withSnap v) = answerWithSnap v (execBwClose s) := by
  simp only [execBwClose, State.withSnap_session, State.withSnap_sink]
  cases sessionCheck s.session with
  | some r => rfl
  | none => exact answerWithSnap_ite v _ (s.settle _) _

theorem gdDecode_withSnap (mg : Nat) (h : s.SameOperands 14 v) :
    gdDecode mg (s.withSnap v) = (gdDecode mg s).withSnap v := by
  simp only [gdDecode, groupOps_withSnap h le_rfl, State.withSnap_mem, State.withSnap_raiseFrom]
  cases groupChecks mg s.groupOps with
  | some r => rfl
  | none => cases gdCore s.groupOps s.mem s.groupOps.payload s.groupOps.size <;> rfl

theorem sdDecode_withSnap (mg : Nat) (h : s.SameOperands 16 v) :
    sdDecode mg (s.withSnap v) = (sdDecode mg s).withSnap v := by
  have horder : (s.withSnap v).sdOrder = s.sdOrder := opnd_withSnap h 14 (by decide)
  have heow : (s.withSnap v).sdEow = s.sdEow := opnd_withSnap h 15 (by decide)
  simp only [sdDecode, horder, heow, groupOps_withSnap h (by decide), State.withSnap_mem, State.withSnap_raiseFrom]
  cases diffChecks mg s.sdOrder s.sdEow s.groupOps with
  | some r => rfl
  | none => cases diffCore s.groupOps s.sdOrder s.sdEow s.mem <;> rfl

theorem execBmExpand_withSnap (h : s.SameOperands 5 v) :
    execBmExpand (s.withSnap v) = answerWithSnap v (execBmExpand s) := by
  simp only [execBmExpand, expandOps_withSnap h le_rfl, State.withSnap_mem]
  cases expandChecks s.expandOps with
  | some r => rfl
  | none => cases bitmapCheck (setBits (bitmapBits s.mem s.expandOps.b s.expandOps.n)) s.expandOps.nc <;> rfl

/-- Of the snapshot a command uses its listed operands alone (30_encoding R72). -/
theorem exec_withSnap (i : Instr) (h : s.SameOperands i.arity v) :
    exec i (s.withSnap v) = answerWithSnap v (exec i s) := by
  cases i with
  | brRead => exact execBrRead_withSnap h
  | brReadf => exact execBrReadf_withSnap h
  | bwOpen => exact execBwOpen_withSnap h
  | bwWrite => exact execBwWrite_withSnap h
  | bwWriteb => exact execBwWriteb_withSnap h
  | bwClose => exact execBwClose_withSnap
  | gdDecode => exact congrArg Host.Outcome.next (gdDecode_withSnap _ h)
  | sdDecode => exact congrArg Host.Outcome.next (sdDecode_withSnap _ h)
  | bmExpand => exact execBmExpand_withSnap h

end

end Sys2Proof.Machine
end

section
/-! SUPPORT. Where the Host goes on after a move, and where the moves of a line begin (30_encoding R78). -/

namespace Sys2Proof.Machine

theorem errorFlag_eq_true (s : State) : s.errorFlag = true ↔ s.err ≠ .none := by
  simp [State.errorFlag, number_eq_zero]

theorem following_check (s : State) (l : Nat) :
    s.following (.check l) = if s.err = .none then s.position + 1 else l := by
  rw [← ite_not]
  exact if_congr (errorFlag_eq_true s) rfl rfl

/-- Only `cpc.wait` and `cpc.check` make the Host go anywhere but on (30_encoding R80). -/
theorem following_of_not_control (s : State) (m : HostMove) (hwait : m ≠ .wait) (hcheck : ∀ l, m ≠ .check l) :
    s.following m = s.position + 1 := by
  cases m with
  | wait => exact absurd rfl hwait
  | check l => exact absurd rfl (hcheck l)
  | regRead | regWrite | memRead | memWrite => rfl

/-- The moves of the lines before `l` are as many as `lineStart` counts. -/
theorem length_flatMap_expand_take (place : Nat → Nat) (ls : List HostLine) (l : Nat) :
    ((ls.take l).flatMap (HostLine.expand place)).length = lineStart ls l := by
  rw [List.length_flatMap, lineStart]
  exact congrArg List.sum (List.map_congr_left fun line _ => expand_length place line)

theorem drop_lineStart (place : Nat → Nat) (ls : List HostLine) (l : Nat) :
    (ls.flatMap (HostLine.expand place)).drop (lineStart ls l) = (ls.drop l).flatMap (HostLine.expand place) := by
  conv_lhs => rw [← List.take_append_drop l ls, List.flatMap_append]
  rw [List.take_append_drop]
  exact List.drop_left' (length_flatMap_expand_take place ls l)

end Sys2Proof.Machine
end

section
/-! SUPPORT. The statements about the encoding, settled. -/

namespace Sys2Proof.Machine

/-- Settles O3: the last write gives the command, and the write to ARGj its operand j. -/
theorem commandLineRoundTrip : Obligations.CommandLineRoundTrip := by
  intro c hc
  obtain ⟨hlen, hrange⟩ := (commandLine_wf_iff c).1 hc
  exact decodeLine_append_cmd _ _ _ hlen (encodeLine_lookup c hrange)

/-- Settles O1, by the two fields of the word and the rows of the opcode map. -/
theorem decodeExactlyTheCommandWords : Obligations.DecodeExactlyTheCommandWords :=
  decode_eq_ok_iff

/-- Settles O18: every check and every result is computed from the listed operands, the session and memory. -/
theorem ignoredOperandsDoNotMatter : Obligations.IgnoredOperandsDoNotMatter := by
  intro i s v h t ht
  have hanswer := exec_withSnap i h
  rw [ht] at hanswer
  exact hanswer

/-- Settles O28: the step on the Host's turn is its next move, and the lines before a label take `lineStart` moves. -/
theorem waitAndCheck : Obligations.WaitAndCheck := by
  refine ⟨fun s hturn => ⟨fun hm => ?_, fun l hm => ?_, fun m t hm hwait hcheck ht => ?_⟩,
    fun ls l => drop_lineStart _ ls l⟩
  · exact ⟨_, step_of_host s _ hturn hm, rfl, rfl, rfl⟩
  · exact ⟨_, step_of_host s _ hturn hm, rfl, following_check s l, rfl⟩
  · rw [step_of_host s m hturn hm] at ht
    obtain ⟨-, hprogram, hposition⟩ := hostMove_keeps m _ t ht
    exact ⟨hprogram, hposition.trans (following_of_not_control s m hwait hcheck)⟩

/-- Settles O2, by evaluation of the decoder; the nine words are those of the encoder. -/
theorem opcodeMapWordsDecode : Obligations.OpcodeMapWordsDecode :=
  ⟨decode_encode .brRead, decode_encode .brReadf, decode_encode .bwOpen, decode_encode .bwWrite, decode_encode .bwWriteb,
    decode_encode .bwClose, decode_encode .gdDecode, decode_encode .sdDecode, decode_encode .bmExpand,
    rfl, rfl, rfl, rfl, rfl, rfl, rfl, rfl⟩

/-- Settles O6: a word with RSV ≠ 0 or an opcode outside the map decodes to no command. -/
theorem illegalWordIsReported : Obligations.IllegalWordIsReported := by
  intro s hturn hillegal
  rw [step_of_engine s hturn]
  rcases complete_cases s.takeTurn with ⟨_, -, e⟩ | ⟨i, hi, -⟩ | ⟨i, hi, -⟩
  · refine ⟨_, e, ⟨completed_raise _ _, rfl, ?_, rfl⟩, rfl, rfl, rfl⟩
    exact toNat_ofNat_small _ s.cmdLatch.isLt
  · exact absurd hi (decode_ne_ok_of_illegal _ hillegal i)
  · exact absurd hi (decode_ne_ok_of_illegal _ hillegal i)

end Sys2Proof.Machine
end

section
/-! SUPPORT. BR.READ and BR.READF (40_bitreader R100 to R110): the chain of their checks, the array they store, the range
check of BR.READF, and the binary32 word of an integer. -/

namespace Sys2Proof.Machine

/-! The checks -/

/-- One step down a chain of checks: a failing check is the report, a passing one leaves it to the rest (60_exceptions R206). -/
theorem firstFailure_check (bad : Bool) (code : ErrCode) (info : Nat) (cs : List (Option Raise)) :
    firstFailure (check bad code info :: cs) = if bad then some ⟨code, info⟩ else firstFailure cs := by
  cases bad <;> rfl

/-- The operands of a BitReader command are snapshot registers, and so are the values its checks record. -/
theorem readOps_lt (s : State) : s.readOps.src < 2 ^ 32 ∧ s.readOps.off < 2 ^ 32 ∧ s.readOps.w < 2 ^ 32 ∧
    s.readOps.n < 2 ^ 32 ∧ s.readOps.dst < 2 ^ 32 :=
  ⟨opnd_lt s 0, opnd_lt s 1, opnd_lt s 2, opnd_lt s 3, opnd_lt s 4⟩

/-- A failing operand check rejects BR.READ and BR.READF alike (40_bitreader R105, R108). -/
theorem rejects_of_readChecks (s : State) (i : Instr) (hi : i = .brRead ∨ i = .brReadf) (code : ErrCode) (info : Nat)
    (hinfo : info < 2 ^ 32) (h : readChecks s.readOps = some ⟨code, info⟩) : Rejects i s code info := by
  refine ⟨_, ?_, rejected_raise s code info hinfo⟩
  rcases hi with rfl | rfl
  · rcases execBrRead_cases s with ⟨r, hr, e⟩ | ⟨hnone, -⟩
    · rwa [Option.some.inj (h.symm.trans hr)]
    · exact nomatch h.symm.trans hnone
  · rcases execBrReadf_cases s with ⟨r, hr, e⟩ | ⟨hnone, -⟩ | ⟨hnone, -⟩
    · rwa [Option.some.inj (h.symm.trans hr)]
    · exact nomatch h.symm.trans hnone
    · exact nomatch h.symm.trans hnone

/-! The stored array -/

theorem Delivers.imp {i : Instr} {s : State} {d : Region} {v : Nat} {stored stored' : Memory → Prop}
    (h : Delivers i s d v stored) (himp : ∀ m, stored m → stored' m) : Delivers i s d v stored' := by
  obtain ⟨t, he, hsucc, hsession, hframe, hstored⟩ := h
  exact ⟨t, he, hsucc, hsession, hframe, himp _ hstored⟩

theorem readValues_getElem (m : Memory) (o : ReadOps) (i : Nat) (h : i < (readValues m o).length) :
    (readValues m o)[i] = field m o.src (o.off + i * o.w) o.w := by
  simp [readValues]

/-- A BitReader command that completes without error stores, under its encoding `f`, field i at element i and returns the
footprint (40_bitreader R100, R106, R108). -/
theorem delivers_readValues (s : State) (i : Instr) (f : Nat → Word) (hmem : s.mem.wf) (h : readChecks s.readOps = none)
    (he : exec i s = .next (s.deliver s.readOps.dst ((readValues s.mem s.readOps).map f) s.readOps.footprint)) :
    Delivers i s s.readOps.dest s.readOps.footprint (fun m => ∀ j, j < s.readOps.n →
      m.le32 (s.readOps.dst + 4 * j) = f (field s.mem s.readOps.src (s.readOps.off + j * s.readOps.w) s.readOps.w)) := by
  obtain ⟨-, -, hsource, hdest, hapart⟩ := (readChecks_eq_none _).1 h
  have hlen : ((readValues s.mem s.readOps).map f).length = s.readOps.n := by simp
  have hend : s.readOps.dst + 4 * ((readValues s.mem s.readOps).map f).length ≤ Config.memSize := hlen ▸ read_dest_end s h
  refine delivers_deliver s i s.readOps.dest _ _ _ hmem hend (by rw [hlen]; rfl)
    (footprint_lt s hsource hdest hapart) he fun j hj => ?_
  have hj' : j < ((readValues s.mem s.readOps).map f).length := hlen ▸ hj
  rw [ReadOps.dest, Memory.le32_storeWords _ _ _ _ hend hmem hj', List.getD_eq_getElem _ _ hj', List.getElem_map,
    readValues_getElem]

/-! The range check -/

theorem floatCheck_eq_none (m : Memory) (o : ReadOps) :
    floatCheck (readValues m o) = none ↔ ∀ i, i < o.n → field m o.src (o.off + i * o.w) o.w ≤ 2 ^ 24 := by
  simp only [floatCheck, readValues, Option.map_eq_none_iff, List.findIdx?_eq_none_iff, List.mem_map, List.mem_range,
    forall_exists_index, and_imp, forall_apply_eq_imp_iff₂, decide_eq_false_iff_not, not_lt]
  rfl

theorem floatCheck_eq_some (m : Memory) (o : ReadOps) (i : Nat) (hi : i < o.n)
    (hover : 2 ^ 24 < field m o.src (o.off + i * o.w) o.w)
    (hbelow : ∀ j, j < i → field m o.src (o.off + j * o.w) o.w ≤ 2 ^ 24) :
    floatCheck (readValues m o) = some ⟨.floatRange, i⟩ := by
  have hfind : (readValues m o).findIdx? (fun v => decide (Config.fpExactMax < v)) = some i := by
    rw [List.findIdx?_eq_some_iff_getElem]
    refine ⟨(readValues_length m o).symm ▸ hi, ?_, fun j hj => ?_⟩ <;> rw [readValues_getElem]
    · exact decide_eq_true hover
    · exact ne_true_of_eq_false <| decide_eq_false (hbelow j hj).not_gt
  rw [floatCheck, hfind]
  rfl

/-! The binary32 word -/

/-- Below 2^24 the exponent is ⌊log2 v⌋ + 127, and the fraction is v scaled to 24 significant bits without its leading bit
(40_bitreader R110). -/
theorem f32_fields (v : Nat) (hpos : 1 ≤ v) (hlt : v < 2 ^ 24) :
    (f32 v).toNat / 2 ^ 23 = v.log2 + 127 ∧ 2 ^ 23 + (f32 v).toNat % 2 ^ 23 = v * 2 ^ (23 - v.log2) ∧ v.log2 ≤ 23 := by
  have hne : v ≠ 0 := by omega
  have hexp : v.log2 ≤ 23 := by have := (Nat.log2_lt hne).2 hlt; omega
  have hscale : 2 ^ v.log2 * 2 ^ (23 - v.log2) = 2 ^ 23 := by rw [← pow_add, Nat.add_sub_cancel' hexp]
  have hlow : 2 ^ 23 ≤ v * 2 ^ (23 - v.log2) := hscale ▸ Nat.mul_le_mul_right _ (Nat.log2_self_le hne)
  have hhigh : v * 2 ^ (23 - v.log2) < 2 * 2 ^ 23 := by
    have hv : v < 2 * 2 ^ v.log2 := by have := Nat.lt_log2_self (n := v); rwa [pow_succ'] at this
    calc v * 2 ^ (23 - v.log2) < 2 * 2 ^ v.log2 * 2 ^ (23 - v.log2) := Nat.mul_lt_mul_of_pos_right hv (by positivity)
      _ = 2 * 2 ^ 23 := by rw [mul_assoc, hscale]
  have hword : (f32 v).toNat = (v.log2 + 127) * 2 ^ 23 + (v * 2 ^ (23 - v.log2) - 2 ^ 23) := by
    simp only [f32, if_neg hne, if_pos hexp, BitVec.toNat_ofNat]
    omega
  omega

theorem f32_exact (v : Nat) (hpos : 1 ≤ v) (hlt : v < 2 ^ 24) :
    v * 2 ^ 150 = (2 ^ 23 + (f32 v).toNat % 2 ^ 23) * 2 ^ ((f32 v).toNat / 2 ^ 23) := by
  obtain ⟨hexponent, hfraction, hexp⟩ := f32_fields v hpos hlt
  rw [hexponent, hfraction, mul_assoc, ← pow_add]
  congr 2
  omega

/-- At the upper end the significand overflows into the exponent: 2^24 is 1.0 times 2^24. -/
theorem f32_fpExactMax : f32 (2 ^ 24) = 0x4B800000#32 := by decide

end Sys2Proof.Machine
end

section
/-! SUPPORT. The statements about BR.READ, BR.READF and `f32`, settled. -/

namespace Sys2Proof.Machine

/-- Settles O33: the destination holds the words of the fields, and a field of at most 31 bits is its own word. -/
theorem readStoresTheFields : Obligations.ReadStoresTheFields := by
  intro s hmem hw hoff hsource hdest hapart
  have hchecks := (readChecks_eq_none s.readOps).2 ⟨hw, hoff, hsource, hdest, hapart⟩
  rcases execBrRead_cases s with ⟨r, hr, -⟩ | ⟨-, e⟩
  · exact nomatch hchecks.symm.trans hr
  · refine (delivers_readValues s .brRead _ hmem hchecks e).imp fun m hstored j hj => ?_
    have hfield := field_lt s.mem s.readOps.src (s.readOps.off + j * s.readOps.w) s.readOps.w
    have hwidth : 2 ^ s.readOps.w < 2 ^ 32 := Nat.pow_lt_pow_right (by omega) (by omega)
    rw [hstored j hj, toNat_ofNat_small _ (hfield.trans hwidth)]

/-- Settles O34: no value fails the range check, and the destination holds the encodings of the fields. -/
theorem readfStoresTheFloats : Obligations.ReadfStoresTheFloats := by
  intro s hmem hw hoff hsource hdest hapart hexact
  have hchecks := (readChecks_eq_none s.readOps).2 ⟨hw, hoff, hsource, hdest, hapart⟩
  have hrange := (floatCheck_eq_none s.mem s.readOps).2 hexact
  rcases execBrReadf_cases s with ⟨r, hr, -⟩ | ⟨-, r, hr, -⟩ | ⟨-, -, e⟩
  · exact nomatch hchecks.symm.trans hr
  · exact nomatch hrange.symm.trans hr
  · exact delivers_readValues s .brReadf f32 hmem hchecks e

/-- Settles O35: the lowest offending index is the first failure of the range check. -/
theorem readfRangeError : Obligations.ReadfRangeError := by
  intro s i hmem hw hoff hsource hdest hapart hi hover hbelow
  have hchecks := (readChecks_eq_none s.readOps).2 ⟨hw, hoff, hsource, hdest, hapart⟩
  have hrange := floatCheck_eq_some s.mem s.readOps i hi hover hbelow
  rcases execBrReadf_cases s with ⟨r, hr, -⟩ | ⟨-, r, hr, e⟩ | ⟨-, hnone, -⟩
  · exact nomatch hchecks.symm.trans hr
  · obtain rfl := Option.some.inj (hrange.symm.trans hr)
    exact ⟨_, e, spoiled_raiseFrom s s.readOps.dest _ i hmem (hi.trans (opnd_lt s 3)) (read_dest_end s hchecks) rfl⟩
  · exact nomatch hrange.symm.trans hnone

/-- Settles O36: down the chain of checks, each failing where all before it pass. -/
theorem readErrorsInOrder : Obligations.ReadErrorsInOrder := by
  intro s i hi
  obtain ⟨hsrc, hoff, hw, -, hdst⟩ := readOps_lt s
  have reject := rejects_of_readChecks s i hi
  simp only [readChecks, firstFailure_check, Config.rdMaxW, Config.rdMaxOff, decide_eq_true_eq] at reject
  refine ⟨fun w1 => reject _ _ hw ?_, fun w1 o1 => reject _ _ hoff ?_, fun w1 o1 => ⟨fun s1 => reject _ _ hsrc ?_,
    fun s1 => ⟨fun d1 => reject _ _ hdst ?_, fun d1 a1 => reject _ _ hdst ?_⟩⟩⟩
  · rw [if_pos w1]
  · rw [if_neg w1.not_gt, if_pos o1]
  · rw [if_neg w1.not_gt, if_neg o1.not_gt, if_pos (eq_true_of_ne_false s1)]
  · rw [if_neg w1.not_gt, if_neg o1.not_gt, if_neg (ne_true_of_eq_false s1), if_pos (eq_true_of_ne_false d1)]
  · rw [if_neg w1.not_gt, if_neg o1.not_gt, if_neg (ne_true_of_eq_false s1), if_neg (ne_true_of_eq_false d1),
      if_pos (eq_true_of_ne_false a1)]

/-- Settles O37: below 2^24 by the exponent and the fraction of the word, and 2^24 by its own word. -/
theorem floatEncodingIsExact : Obligations.FloatEncodingIsExact := by
  refine ⟨rfl, fun v hpos hle => ?_⟩
  rcases hle.lt_or_eq with hlt | rfl
  · obtain ⟨hexponent, -, hexp⟩ := f32_fields v hpos hlt
    exact ⟨by omega, by omega, by omega, f32_exact v hpos hlt⟩
  · rw [f32_fpExactMax]
    decide

end Sys2Proof.Machine
end

section
/-! SUPPORT. The round trip of 40_bitreader R107, one command at a time: the session BW.OPEN begins, the bits BW.WRITE
commands append to it, the bytes BW.CLOSE leaves, and the fields BR.READ finds there. -/

namespace Sys2Proof.Machine

/-- A new session holds the empty bit string (41_bitwriter R120). -/
theorem holds_opened (m : Memory) (base cap : Nat) : Sink.Holds ⟨Session.opened base cap, m⟩ [] :=
  ⟨rfl, rfl, rfl, nofun⟩

theorem bytesNeeded_opened (base cap n : Nat) : (Session.opened base cap).bytesNeeded n = ceil8 n := by
  rw [bytesNeeded_eq, ceil8]
  simp [Session.opened]

/-- BW.OPEN of a target inside the data memory begins a session there (41_bitwriter R120). -/
theorem bwOpen_opens (s : State) (base cap : Word) (ha : s.session.active = false)
    (htarget : base.toNat + cap.toNat ≤ 2 ^ 32) :
    ∃ t, exec .bwOpen (s.withOperands [base, cap]) = .next t ∧ t.mem = s.mem ∧
      t.session = Session.opened base.toNat cap.toNat := by
  have hops : (s.withOperands [base, cap]).openOps = ⟨base.toNat, cap.toNat⟩ := by
    simp only [State.openOps, withOperands_opnd]
    rfl
  have hin : (Region.mk base.toNat cap.toNat).inBounds := (Region.outOfBounds_eq_false _).2 (.inr htarget)
  have hchecks := (openChecks_eq_none (s.withOperands [base, cap]).session ⟨_, _⟩).2 ⟨ha, hin⟩
  rcases execBwOpen_cases (s.withOperands [base, cap]) with ⟨r, hr, -⟩ | ⟨-, e⟩
  · rw [hops] at hr
    exact nomatch hchecks.symm.trans hr
  · rw [hops] at e
    exact ⟨_, e, rfl, rfl⟩

/-- BW.WRITE commands whose bits fit the capacity append them all and leave the session open (41_bitwriter R122, R128). -/
theorem writesInTurn_holds (s : State) (w : Word) (vs : List Word) (bs : List Bool) (hmem : s.mem.wf) (hwf : s.session.wf)
    (ha : s.session.active = true) (hholds : s.sink.Holds bs) (hw : w.toNat ≤ 25)
    (hn : s.session.bytesNeeded (w.toNat * vs.length) ≤ s.session.cap.toNat) :
    ∃ u, writesInTurn s w vs = .next u ∧ u.mem.wf ∧ u.session.wf ∧ u.session.active = true ∧
      u.session.base = s.session.base ∧ u.sink.Holds (bs ++ vs.flatMap (fun v => msbBits v w.toNat)) := by
  have hacc : s.session.accFits := hwf.2.2.1
  obtain ⟨u, hrun, humem, husession⟩ := writes_run w hw vs s hwf hacc ha hn
  have husink : u.sink = s.sink.appendAll w.toNat vs := by rw [State.sink, humem, husession]
  obtain ⟨hend, hbits⟩ := flush_bounds _ _ (s.session.flushFits_of_wf _ hwf hn) hn
  have hlen : s.session.bits = bs.length := holds_bits s.sink bs hholds
  obtain ⟨hactive, hbase, -⟩ := s.sink.appendAll_fixed w.toNat vs
  refine ⟨u, hrun, ?_, ?_, ?_, ?_, ?_⟩
  · rw [humem]
    exact (s.sink.appendAll_mem w.toNat vs hmem hbits hend).1
  · rw [husession]
    exact s.sink.wf_appendAll w.toNat vs hwf ha hn hbits
  · rw [husession, hactive]
    exact ha
  · rw [husession, hbase]
    rfl
  · rw [husink]
    rw [hlen] at hend hbits
    exact holds_appendAll w.toNat vs s.sink bs hholds hmem hbits hend

/-- BW.CLOSE leaves the bit string of the session in the bytes of its target (41_bitwriter R131). -/
theorem bwClose_stores (s : State) (bs : List Bool) (hmem : s.mem.wf) (hwf : s.session.wf) (ha : s.session.active = true)
    (hholds : s.sink.Holds bs) :
    ∃ t, exec .bwClose s = .next t ∧ t.mem.wf ∧
      ∀ k, k < bs.length → bs[k]? = some (streamBit t.mem s.session.base.toNat k) := by
  have hfits := s.session.flushFits_of_wf 0 hwf hwf.2.1
  have hbytes : (bs.length + 7) / 8 < 2 ^ 32 := by
    have hneeded := hwf.2.1
    have hcap := s.session.cap.isLt
    rw [Session.bytesNeeded_zero, show s.session.bits = bs.length from holds_bits s.sink bs hholds, ceil8] at hneeded
    omega
  rcases execBwClose_cases s with ⟨hidle, -⟩ | ⟨-, -, e⟩ | ⟨-, hnot, -⟩
  · exact nomatch ha.symm.trans hidle
  · exact ⟨_, e, close_mem s.sink hmem hfits, (close_holds s.sink bs hmem hholds hbytes).2.1⟩
  · exact nomatch hfits.symm.trans hnot

/-- Stream bits that spell values at one width read back as those values, field by field (40_bitreader R107). -/
theorem field_of_msbBits (m : Memory) (base w : Nat) (vs : List Word)
    (hbits : ∀ k, k < w * vs.length →
      (vs.flatMap (fun v => msbBits v w))[k]? = some (streamBit m base k))
    (i : Nat) (hi : i < vs.length) (hfit : vs[i].toNat < 2 ^ w) : field m base (i * w) w = vs[i].toNat := by
  have hlen := flatMap_msbBits_length w vs
  have hend : i * w + w ≤ w * vs.length := by
    rw [← Nat.succ_mul, Nat.mul_comm w]
    exact Nat.mul_le_mul_right w hi
  rw [field_of_bits m _ base (hlen ▸ hbits) vs[i] w (i * w) (hlen ▸ hend)
    fun j hj => flatMap_msbBits_get w vs i j _ (List.getElem?_eq_getElem hi) hj]
  exact Nat.mod_eq_of_lt hfit

/-- At offset 0 the footprint is the bytes that hold the bits (40_bitreader R101). -/
theorem footprint_of_off_zero (o : ReadOps) (h : o.off = 0) : o.footprint = ceil8 (o.w * o.n) := by
  rw [ReadOps.footprint, h, Nat.zero_add]
  split
  · next hzero => rw [hzero]; rfl
  · rfl

/-- BR.READ from offset 0 with legal operands leaves field i of the stream as element i (40_bitreader R100, R102). -/
theorem brRead_fields (s : State) (src w n dst : Word) (hmem : s.mem.wf) (hw : w.toNat ≤ 31)
    (hsource : src.toNat + ceil8 (w.toNat * n.toNat) ≤ 2 ^ 32) (hdest : dst.toNat + 4 * n.toNat ≤ 2 ^ 32)
    (hapart : (Region.mk src.toNat (ceil8 (w.toNat * n.toNat))).apart ⟨dst.toNat, 4 * n.toNat⟩) :
    ∃ t, exec .brRead (s.withOperands [src, 0#32, w, n, dst]) = .next t ∧ t.err = .none ∧
      ∀ i, i < n.toNat → (t.mem.le32 (dst.toNat + 4 * i)).toNat = field s.mem src.toNat (i * w.toNat) w.toNat := by
  have hregion : (ReadOps.mk src.toNat 0 w.toNat n.toNat dst.toNat).source = ⟨src.toNat, ceil8 (w.toNat * n.toNat)⟩ := by
    rw [ReadOps.source, footprint_of_off_zero _ rfl]
  have hsourceIn : (Region.mk src.toNat (ceil8 (w.toNat * n.toNat))).inBounds :=
    (Region.outOfBounds_eq_false _).2 (.inr hsource)
  have hdestIn : (Region.mk dst.toNat (4 * n.toNat)).inBounds := (Region.outOfBounds_eq_false _).2 (.inr hdest)
  have hread := readStoresTheFields (s.withOperands [src, 0#32, w, n, dst]) hmem
  rw [readOps_withOperands] at hread
  obtain ⟨t, he, ⟨-, herr, -⟩, -, -, hstored⟩ := hread hw (Nat.zero_le 7)
    (hregion.symm ▸ hsourceIn) hdestIn (hregion.symm ▸ hapart)
  refine ⟨t, he, herr, fun i hi => (hstored i hi).trans ?_⟩
  rw [BitVec.toNat_zero, Nat.zero_add]
  rfl

end Sys2Proof.Machine
end

section
/-! SUPPORT. The statement about writing and reading back, settled. -/

namespace Sys2Proof.Machine

/-- Settles O47: the closed target holds the bits of the values in order, and BR.READ takes them back w at a time. -/
theorem writerReaderRoundTrip : Obligations.WriterReaderRoundTrip := by
  rintro s base cap w dst vs ⟨hmem, -, -⟩ ha - hw hfit htarget hroom hdest hapart
  have hcount : (BitVec.ofNat 32 vs.length).toNat = vs.length := toNat_ofNat_small _ (by omega)
  obtain ⟨s1, e1, hmem1, hsession1⟩ := bwOpen_opens s base cap ha htarget
  have hbase1 : s1.session.base.toNat = base.toNat := by rw [hsession1]; exact toNat_ofNat_small _ base.isLt
  have hroom1 : s1.session.bytesNeeded (w.toNat * vs.length) ≤ s1.session.cap.toNat := by
    rw [hsession1, bytesNeeded_opened]
    exact hroom.trans_eq (toNat_ofNat_small _ cap.isLt).symm
  obtain ⟨s2, e2, hmem2, hwf2, ha2, hbase2, hholds2⟩ := writesInTurn_holds s1 w vs [] (hmem1 ▸ hmem)
    (hsession1 ▸ Session.wf_opened _ _ htarget) (by rw [hsession1]; rfl)
    (by rw [State.sink, hsession1]; exact holds_opened _ _ _) hw hroom1
  obtain ⟨s3, e3, hmem3, hbits⟩ := bwClose_stores s2 _ hmem2 hwf2 ha2 hholds2
  rw [hbase2, hbase1, List.nil_append, flatMap_msbBits_length] at hbits
  obtain ⟨s4, e4, herr, hread⟩ := brRead_fields s3 base w (BitVec.ofNat 32 vs.length) dst hmem3 (by omega)
    (by rw [hcount, ceil8]; omega) (by rwa [hcount]) (by rwa [hcount])
  rw [hcount] at hread
  refine ⟨s1, s2, s3, s4, e1, e2, e3, e4, herr, fun i hi => ?_⟩
  rw [List.getElem?_eq_getElem hi, Option.some.injEq]
  apply BitVec.eq_of_toNat_eq
  rw [hread i hi, field_of_msbBits s3.mem base.toNat w.toNat vs hbits i hi (hfit _ (List.getElem_mem hi))]

end Sys2Proof.Machine
end

section
/-! SUPPORT. What a BitWriter command leaves (41_bitwriter R120 to R132): the checks that abort a session, the bits an append
adds to the string a session holds, and the order in which a value's bits are appended. -/

namespace Sys2Proof.Machine

/-! Errors -/

/-- A failing check of BW.OPEN rejects it (41_bitwriter R121). -/
theorem rejects_of_openChecks (s : State) (code : ErrCode) (info : Nat) (hinfo : info < 2 ^ 32)
    (h : openChecks s.session s.openOps = some ⟨code, info⟩) : Rejects .bwOpen s code info := by
  rcases execBwOpen_cases s with ⟨r, hr, e⟩ | ⟨hnone, -⟩
  · obtain rfl := Option.some.inj (h.symm.trans hr)
    exact ⟨_, e, rejected_raise s code info hinfo⟩
  · exact nomatch h.symm.trans hnone

/-- BW.WRITE, BW.WRITEB and BW.CLOSE want an open session before all else (41_bitwriter R121). -/
theorem rejects_of_not_active (s : State) (i : Instr) (hi : i = .bwWrite ∨ i = .bwWriteb ∨ i = .bwClose)
    (ha : s.session.active = false) : Rejects i s .session 0 := by
  refine ⟨_, ?_, rejected_raise s .session 0 (by decide)⟩
  rcases hi with rfl | rfl | rfl
  · exact ((execBwWrite_cases s).resolve_right (by simp [ha])).2
  · exact ((execBwWriteb_cases s).resolve_right (by simp [ha])).2
  · exact ((execBwClose_cases s).resolve_right (by simp [ha])).2

theorem aborts_of_next (s : State) (i : Instr) (code : ErrCode) (info : Nat) (hinfo : info < 2 ^ 32)
    (he : exec i s = .next (s.abort.raise ⟨code, info⟩)) : Aborts i s code info :=
  ⟨_, he, aborted_raise s code info hinfo, rfl, rfl, rfl⟩

/-- With a session open, a failing check of BW.WRITE aborts it (41_bitwriter R125, R126). -/
theorem aborts_of_writeChecks (s : State) (ha : s.session.active = true) (code : ErrCode) (info : Nat)
    (hinfo : info < 2 ^ 32) (h : writeChecks s.session (s.opnd 1) = some ⟨code, info⟩) :
    Aborts .bwWrite s code info := by
  rcases execBwWrite_cases s with ⟨hidle, -⟩ | ⟨-, r, hr, e⟩ | ⟨-, hnone, -⟩ | ⟨-, hnone, -⟩
  · exact nomatch ha.symm.trans hidle
  · obtain rfl := Option.some.inj (h.symm.trans hr)
    exact aborts_of_next s .bwWrite code info hinfo e
  · exact nomatch h.symm.trans hnone
  · exact nomatch h.symm.trans hnone

/-- With a session open, a failing check of BW.WRITEB aborts it (41_bitwriter R127). -/
theorem aborts_of_batchChecks (s : State) (ha : s.session.active = true) (code : ErrCode) (info : Nat)
    (hinfo : info < 2 ^ 32) (h : batchChecks s.session s.batchOps = some ⟨code, info⟩) :
    Aborts .bwWriteb s code info := by
  rcases execBwWriteb_cases s with ⟨hidle, -⟩ | ⟨-, r, hr, e⟩ | ⟨-, hnone, -⟩ | ⟨-, hnone, -⟩
  · exact nomatch ha.symm.trans hidle
  · obtain rfl := Option.some.inj (h.symm.trans hr)
    exact aborts_of_next s .bwWriteb code info hinfo e
  · exact nomatch h.symm.trans hnone
  · exact nomatch h.symm.trans hnone

/-! Completions -/

theorem bwWrite_settles (s : State) (hwf : s.session.wf) (ha : s.session.active = true) (hw : s.opnd 1 ≤ 25)
    (hn : s.session.bytesNeeded (s.opnd 1) ≤ s.session.cap.toNat) :
    exec .bwWrite s = .next (s.settle (s.sink.append s.snap[0] (s.opnd 1))) := by
  have hchecks := (writeChecks_eq_none _ _).2 ⟨hw, hn⟩
  have hfits := s.session.flushFits_of_wf _ hwf hn
  rcases execBwWrite_cases s with ⟨hidle, -⟩ | ⟨-, r, hr, -⟩ | ⟨-, -, -, e⟩ | ⟨-, -, hnot, -⟩
  · exact nomatch ha.symm.trans hidle
  · exact nomatch hchecks.symm.trans hr
  · exact e
  · exact nomatch hfits.symm.trans hnot

theorem bwWriteb_settles (s : State) (hwf : s.session.wf) (ha : s.session.active = true)
    (hchecks : batchChecks s.session s.batchOps = none) :
    exec .bwWriteb s =
      .next (s.settle (s.sink.appendAll s.batchOps.w (s.mem.loadWords s.batchOps.src s.batchOps.cnt))) := by
  obtain ⟨-, -, -, hn⟩ := (batchChecks_eq_none _ _).1 hchecks
  have hfits := s.session.flushFits_of_wf _ hwf hn
  rcases execBwWriteb_cases s with ⟨hidle, -⟩ | ⟨-, r, hr, -⟩ | ⟨-, -, -, e⟩ | ⟨-, -, hnot, -⟩
  · exact nomatch ha.symm.trans hidle
  · exact nomatch hchecks.symm.trans hr
  · exact e
  · exact nomatch hfits.symm.trans hnot

theorem bwClose_settles (s : State) (hwf : s.session.wf) (ha : s.session.active = true) :
    exec .bwClose s = .next (s.settle s.sink.close) := by
  have hfits := s.session.flushFits_of_wf 0 hwf hwf.2.1
  rcases execBwClose_cases s with ⟨hidle, -⟩ | ⟨-, -, e⟩ | ⟨-, hnot, -⟩
  · exact nomatch ha.symm.trans hidle
  · exact e
  · exact nomatch hfits.symm.trans hnot

/-! The held bit string -/

theorem Sink.Holds.bytesNeeded {x : Sink} {bs : List Bool} (h : x.Holds bs) (n : Nat) :
    x.session.bytesNeeded n = (bs.length + n + 7) / 8 := by
  rw [Session.bytesNeeded, holds_bits x bs h, ceil8]

/-- The output cursor stands behind the whole bytes of the bit string (10_state R32, R33). -/
theorem Sink.Holds.cursor {x : Sink} {bs : List Bool} (h : x.Holds bs) :
    x.session.cursor = x.session.base.toNat + bs.length / 8 := by
  rw [Session.cursor, h.1]

/-- A byte outside the flushed bytes `first` up to `last` of a target at `base`, said by their two ends. -/
theorem not_between_of_has_eq_false {base first last a : Nat}
    (h : (Region.mk (base + first) (last - first)).has a = false) : ¬ (base + first ≤ a ∧ a < base + last) := by
  rw [← Bool.not_eq_true, Region.has_iff] at h
  simp only at h
  omega

/-- What completing with appended values leaves: COUNT of all bits in RES0, the longer bit string in the open session, and
every byte that was not flushed (41_bitwriter R122, R127, R132). -/
theorem settle_appendAll (s t : State) (w : Nat) (vs : List Word) (bs : List Bool)
    (ht : t = s.settle (s.sink.appendAll w vs)) (hmem : s.mem.wf) (hwf : s.session.wf)
    (ha : s.session.active = true) (hholds : s.sink.Holds bs)
    (hroom : (bs.length + w * vs.length + 7) / 8 ≤ s.session.cap.toNat) :
    Succeeded s t ((bs.length + w * vs.length) / 8) ∧ t.sink.Holds (bs ++ vs.flatMap (fun v => msbBits v w)) ∧
      t.session.active = true ∧ t.session.base = s.session.base ∧ t.session.cap = s.session.cap ∧
      SameOutside s.mem t.mem
        ⟨s.session.base.toNat + bs.length / 8, (bs.length + w * vs.length) / 8 - bs.length / 8⟩ := by
  subst ht
  have hneeded : s.session.bytesNeeded (w * vs.length) ≤ s.session.cap.toNat := (hholds.bytesNeeded _).trans_le hroom
  obtain ⟨hend, hbits⟩ := flush_bounds _ _ (s.session.flushFits_of_wf _ hwf hneeded) hneeded
  obtain ⟨-, hkept⟩ := s.sink.appendAll_mem w vs hmem hbits hend
  have hlen : s.session.bits = bs.length := holds_bits s.sink bs hholds
  rw [hlen] at hend hbits
  have hlonger := holds_appendAll w vs s.sink bs hholds hmem hbits hend
  obtain ⟨hactive, hbase, hcap⟩ := s.sink.appendAll_fixed w vs
  refine ⟨succeeded_settle s _ _ ?_, hlonger, hactive.trans ha, hbase, hcap, fun a hout => hkept a ?_⟩
  · rw [hlonger.1, List.length_append, flatMap_msbBits_length]
  · rw [hholds.cursor, show s.sink.session.bits = bs.length from hlen]
    exact not_between_of_has_eq_false hout

theorem flatMap_loadWords (m : Memory) (a n : Nat) (f : Word → List Bool) :
    (m.loadWords a n).flatMap f = (List.range n).flatMap (fun i => f (m.le32 (a + 4 * i))) := by
  rw [Memory.loadWords, List.flatMap_map]

/-- The high bits first, then the low ones: bit j of the high chunk is bit l + j of the value (41_bitwriter R123). -/
theorem Sink.append_add (v : Word) (l h : Nat) : ∀ x : Sink,
    x.append v (h + l) = (x.append (v >>> l) h).append v l := by
  induction h with
  | zero => intro x; rw [Nat.zero_add]; rfl
  | succ h ih =>
    intro x
    have hbit : (v >>> l).getLsbD h = v.getLsbD (h + l) := by rw [BitVec.getLsbD_ushiftRight, Nat.add_comm]
    rw [Nat.succ_add, Sink.append, ih, Sink.append, hbit]

/-- Closing changes at most the byte at the cursor, the one that holds the bits of the partial byte (41_bitwriter R131). -/
theorem close_sameOutside_of_holds (x : Sink) (bs : List Bool) (hmem : x.mem.wf) (hholds : x.Holds bs) :
    SameOutside x.mem x.close.mem
      ⟨x.session.base.toNat + bs.length / 8, (bs.length + 7) / 8 - bs.length / 8⟩ := by
  intro a hout
  refine close_read x hmem a ?_
  rw [hholds.cursor, hholds.bytesNeeded]
  exact not_between_of_has_eq_false hout

end Sys2Proof.Machine
end

section
/-! SUPPORT. The statements about the BitWriter commands, settled. -/

namespace Sys2Proof.Machine

/-- Settles O45: on success both sides append all values to one sink; an error leaves memory, and a raised code is no `none`. -/
theorem batchEqualsSingleWrites : Obligations.BatchEqualsSingleWrites := by
  rintro s t ⟨-, hwf, -⟩ he
  have hacc : s.session.accFits := hwf.2.2.1
  rcases execBwWriteb_cases s with ⟨-, e⟩ | ⟨-, r, hr, e⟩ | ⟨ha, hc, -, e⟩ | ⟨-, -, -, e⟩ <;> rw [e] at he <;> cases he
  · exact ⟨nofun, fun _ => rfl⟩
  · exact ⟨fun hnone => absurd hnone (batchChecks_plain _ _ _ hr).1, fun _ => rfl⟩
  · obtain ⟨hw, -, -, hn⟩ := (batchChecks_eq_none _ _).1 hc
    refine ⟨fun _ => ?_, fun herr => absurd rfl herr⟩
    exact writes_run s.snap[2] hw _ s hwf hacc ha (by rw [loadWords_length]; exact hn)

/-- Settles O38: the two checks in their order, and the new session when both pass. -/
theorem openBeginsASession : Obligations.OpenBeginsASession := by
  intro s
  have reject := rejects_of_openChecks s
  simp only [openChecks, firstFailure_check] at reject
  refine ⟨fun ha htarget => ?_, fun ha => reject _ _ (by decide) (by rw [if_pos ha]), fun ha hover => ?_⟩
  · have hin : (Region.mk s.openOps.base s.openOps.cap).inBounds := (Region.outOfBounds_eq_false _).2 (.inr htarget)
    have hchecks := (openChecks_eq_none s.session s.openOps).2 ⟨ha, hin⟩
    rcases execBwOpen_cases s with ⟨r, hr, -⟩ | ⟨-, e⟩
    · exact nomatch hchecks.symm.trans hr
    · exact ⟨_, e, ⟨completed_succeed _ 0, rfl, rfl, rfl, rfl⟩, rfl, rfl, BitVec.ofNat_toNat _ _, BitVec.ofNat_toNat _ _,
        rfl, rfl, rfl⟩
  · have hbase := opnd_lt s 0
    have hout : (Region.mk s.openOps.base s.openOps.cap).outOfBounds = true :=
      (Region.outOfBounds_iff _).2 ⟨show 0 < s.opnd 1 by omega, hover⟩
    exact reject _ _ hbase (by rw [if_neg (ne_true_of_eq_false ha), if_pos hout]; rfl)

/-- Settles O39: BW.WRITE appends the array of its one value. -/
theorem writeAppendsTheBits : Obligations.WriteAppendsTheBits := by
  intro s bs hmem hwf ha hholds hw hroom
  refine ⟨_, bwWrite_settles s hwf ha hw ((hholds.bytesNeeded _).trans_le hroom), ?_⟩
  simpa using settle_appendAll s (s.settle (s.sink.append s.snap[0] (s.opnd 1))) (s.opnd 1) [s.snap[0]] bs rfl hmem hwf ha
    hholds (by simpa using hroom)

/-- Settles O40: down the chain of checks, each failing where all before it pass. -/
theorem writeErrorsInOrder : Obligations.WriteErrorsInOrder := by
  rintro s need rfl
  have abort := aborts_of_writeChecks s
  simp only [writeChecks, firstFailure_check, Config.wrMaxW, decide_eq_true_eq, bytesNeeded_eq] at abort
  refine ⟨rejects_of_not_active s .bwWrite (.inl rfl), fun ha w1 => abort ha _ _ (opnd_lt s 1) ?_,
    fun ha w1 hcap => abort ha _ _ (sat32_lt _) ?_⟩
  · rw [if_pos w1]
  · rw [if_neg w1.not_gt, if_pos hcap]
    rfl

/-- Settles O41: no bit is appended, so the session and the memory settled on are those of the state itself. -/
theorem writeOfWidthZero : Obligations.WriteOfWidthZero := by
  intro s hwf ha hw
  have hneeded : s.session.bytesNeeded (s.opnd 1) ≤ s.session.cap.toNat := hw ▸ hwf.2.1
  have hcount : BitVec.ofNat 32 s.session.count.toNat = s.session.count := BitVec.ofNat_toNat _ _
  rw [bwWrite_settles s hwf ha (hw ▸ Nat.zero_le 25) hneeded, hw, Sink.append, ← hcount]
  rfl

/-- Settles O42, for chunks of any width. -/
theorem chunkSplittingIsInvisible : Obligations.ChunkSplittingIsInvisible :=
  fun x v h l _ => x.append_add v l h

/-- Settles O43: the values appended are the elements of the source array. -/
theorem batchAppendsTheArray : Obligations.BatchAppendsTheArray := by
  intro s bs hmem hwf ha hholds hw hsource hapart hroom
  have hneeded : s.session.bytesNeeded (s.batchOps.w * s.batchOps.cnt) ≤ s.session.cap.toNat :=
    (hholds.bytesNeeded _).trans_le hroom
  have hchecks := (batchChecks_eq_none _ _).2 ⟨hw, hsource, hapart, hneeded⟩
  have happend := settle_appendAll s _ s.batchOps.w (s.mem.loadWords s.batchOps.src s.batchOps.cnt) bs rfl hmem hwf ha hholds
  rw [loadWords_length, flatMap_loadWords] at happend
  exact ⟨_, bwWriteb_settles s hwf ha hchecks, happend hroom⟩

/-- Settles O44: down the chain of checks, each failing where all before it pass. -/
theorem batchErrorsInOrder : Obligations.BatchErrorsInOrder := by
  rintro s need rfl
  refine ⟨rejects_of_not_active s .bwWriteb (.inr (.inl rfl)), fun ha => ?_⟩
  have abort := aborts_of_batchChecks s ha
  simp only [batchChecks, firstFailure_check, Config.wrMaxW, decide_eq_true_eq, bytesNeeded_eq] at abort
  have hsrc : s.batchOps.src < 2 ^ 32 := opnd_lt s 0
  have hw : s.batchOps.w < 2 ^ 32 := opnd_lt s 2
  refine ⟨fun w1 => abort _ _ hw ?_, fun w1 s1 => abort _ _ hsrc ?_, fun w1 s1 => ⟨fun a1 => abort _ _ hsrc ?_,
    fun a1 hcap => abort _ _ (sat32_lt _) ?_⟩⟩
  · rw [if_pos w1]
  · rw [if_neg w1.not_gt, if_pos (eq_true_of_ne_false s1)]
  · rw [if_neg w1.not_gt, if_neg (ne_true_of_eq_false s1), if_pos (eq_true_of_ne_false a1)]
  · rw [if_neg w1.not_gt, if_neg (ne_true_of_eq_false s1), if_neg (ne_true_of_eq_false a1), if_pos hcap]
    rfl

/-- Settles O46: the bytes of a closed target are the held bits and then zeros, and COUNT is their number. -/
theorem closeFlushesAndEnds : Obligations.CloseFlushesAndEnds := by
  refine fun s => ⟨rejects_of_not_active s .bwClose (.inr (.inr rfl)), fun bs hmem hwf ha hholds => ?_⟩
  have hbytes : (bs.length + 7) / 8 < 2 ^ 32 := by
    have hneeded := (hholds.bytesNeeded 0).symm.trans_le hwf.2.1
    exact hneeded.trans_lt s.session.cap.isLt
  obtain ⟨hsession, hbits, hzeros⟩ := close_holds s.sink bs hmem hholds hbytes
  refine ⟨_, bwClose_settles s hwf ha, succeeded_settle s _ _ ?_, hsession, hbits, hzeros,
    close_sameOutside_of_holds s.sink bs hmem hholds⟩
  rw [hsession]
  exact toNat_ofNat_small _ hbytes

end Sys2Proof.Machine
end

section
/-! SUPPORT. Group decoding (42_group R140 to R160): what a decode that ends by its checks or by its decoding leaves, the
field slot by slot, the chain of consistency checks, the patterns of the missing values, and the words of slots. -/

namespace Sys2Proof.Machine

/-! Completions -/

theorem DecodesAs.eq_raise {s t : State} {r : Raise} {result : Except Raise (List Slot)}
    (h : DecodesAs s t (some r) result) : t = s.raise r := by
  simpa [DecodesAs] using h

theorem DecodesAs.eq_raiseFrom {s t : State} {r : Raise} (h : DecodesAs s t none (.error r)) :
    t = s.raiseFrom s.groupOps.dest r := by
  simpa [DecodesAs] using h

theorem DecodesAs.eq_deliver {s t : State} {fs : List Slot} (h : DecodesAs s t none (.ok fs)) :
    t = s.deliver s.groupOps.dst (fs.map Slot.word) s.groupOps.size := by
  simpa [DecodesAs] using h

theorem Memory.le32_storeWords_of_getElem? (m : Memory) (a i : Nat) (vs : List Word) (v : Word)
    (ha : a + 4 * vs.length ≤ Config.memSize) (h : m.wf) (hv : vs[i]? = some v) :
    (m.storeWords a vs).le32 (a + 4 * i) = v := by
  obtain ⟨hi, hget⟩ := List.getElem?_eq_some_iff.1 hv
  rw [Memory.le32_storeWords m a i vs ha h hi, List.getD_eq_getElem _ _ hi, hget]

/-- A decode that ends with a field of npnts slots stores slot j at element j (42_group R158). -/
theorem DecodesAs.delivers {i : Instr} {s t : State} {fs : List Slot} (h : DecodesAs s t none (.ok fs))
    (he : exec i s = .next t) (hmem : s.mem.wf) (hend : s.groupOps.dst + 4 * s.groupOps.npnts ≤ Config.memSize)
    (hlen : fs.length = s.groupOps.npnts) : Delivers i s s.groupOps.dest s.groupOps.size
      (fun m => ∀ j f, fs[j]? = some f → m.le32 (s.groupOps.dst + 4 * j) = f.word) := by
  have hwords : (fs.map Slot.word).length = s.groupOps.npnts := by rw [List.length_map, hlen]
  rw [← hwords] at hend
  rw [h.eq_deliver] at he
  refine delivers_deliver s i s.groupOps.dest _ _ _ hmem hend (by rw [hwords]; rfl) (opnd_lt s 1) he fun j f hf => ?_
  exact Memory.le32_storeWords_of_getElem? _ _ j _ _ hend hmem (by rw [List.getElem?_map, hf, Option.map_some])

/-- A failing operand check rejects GD.DECODE (42_group R160 steps 1 to 5). -/
theorem rejected_of_groupChecks (s : State) (mg : Nat) (code : ErrCode) (info : Nat) (hinfo : info < 2 ^ 32)
    (h : groupChecks mg s.groupOps = some ⟨code, info⟩) : Rejected s (gdDecode mg s) code info := by
  have hcases := gdDecode_cases mg s
  rw [h] at hcases
  rw [hcases.eq_raise]
  exact rejected_raise s code info hinfo

/-- Past the operand checks GD.DECODE ends as its group decoding does. -/
theorem gdDecode_of_valid (s : State) (mg : Nat) (hvalid : s.groupOps.Valid mg) {result : Except Raise (List Slot)}
    (h : gdCore s.groupOps s.mem s.groupOps.payload s.groupOps.size = result) :
    DecodesAs s (gdDecode mg s) none result := by
  have hcases := gdDecode_cases mg s
  rwa [(groupChecks_eq_none mg _).2 hvalid, h] at hcases

/-- A failing consistency check rejects GD.DECODE (42_group R160 steps 6 to 9). -/
theorem rejected_of_coreChecks (s : State) (mg : Nat) (hvalid : s.groupOps.Valid mg) (code : ErrCode) (info : Nat)
    (hinfo : info < 2 ^ 32)
    (h : coreChecks s.groupOps s.groupOps.size (s.groupOps.descriptors s.mem s.groupOps.payload) = some ⟨code, info⟩) :
    Rejected s (gdDecode mg s) code info := by
  have hplain : code.spoilsDestination = false := (coreChecks_plain _ _ _ _ h).2
  have hcore : gdCore s.groupOps s.mem s.groupOps.payload s.groupOps.size = .error ⟨code, info⟩ := by
    simp only [gdCore, h]
  rw [(gdDecode_of_valid s mg hvalid hcore).eq_raiseFrom, State.raiseFrom, hplain]
  exact rejected_raise s code info hinfo

/-! The consistency checks -/

/-- The two totals round the same number of bits up to bytes (42_group R149). -/
theorem totalA_eq_totalB (header : Nat) (ds : List Descriptor) : totalA header ds = totalB header ds := by
  unfold totalA totalB ceil8
  split <;> omega

theorem totalA_eq (o : GroupOps) (m : Memory) (b : Nat) :
    totalA o.headerBytes (o.descriptors m b) = o.headerBytes + ceil8 (o.position m b o.ng) := by
  rw [totalA, totalBits_eq]

/-- The lowest group wider than 31 bits, which the second consistency check reports (42_group R146). -/
def GroupOps.tooWide? (o : GroupOps) (m : Memory) (b : Nat) : Option Nat :=
  (o.descriptors m b).findIdx? (fun d => decide (Config.gwMax < d.width))

/-- The consistency checks in the terms of `GroupOps.Consistent`. -/
theorem coreChecks_descriptors (o : GroupOps) (m : Memory) (b size : Nat) :
    coreChecks o size (o.descriptors m b) = firstFailure
      [ check (size < o.headerBytes) .size (sat32 o.headerBytes),
        (o.tooWide? m b).map (fun g => ⟨.groupWidth, g⟩),
        check (o.start m b o.ng ≠ o.npnts) .badPacking (sat32 (o.start m b o.ng)),
        check (o.headerBytes + ceil8 (o.position m b o.ng) ≠ size) .size
          (sat32 (o.headerBytes + ceil8 (o.position m b o.ng))) ] := by
  rw [coreChecks, ← totalA_eq_totalB, Bool.or_self, totalLength_eq, totalA_eq]
  rfl

theorem tooWide_eq_none (o : GroupOps) (m : Memory) (b : Nat) (h : ∀ g, g < o.ng → o.width m b g ≤ 31) :
    o.tooWide? m b = none := by
  rw [GroupOps.tooWide?, List.findIdx?_eq_none_iff]
  intro d hd
  obtain ⟨g, hg, rfl⟩ := List.mem_map.1 hd
  exact decide_eq_false (h g (List.mem_range.1 hg)).not_gt

theorem tooWide_eq_some (o : GroupOps) (m : Memory) (b g : Nat) (hg : g < o.ng) (hwide : 31 < o.width m b g)
    (hbelow : ∀ h, h < g → o.width m b h ≤ 31) : o.tooWide? m b = some g := by
  have hlen : (o.descriptors m b).length = o.ng := by simp [GroupOps.descriptors]
  rw [GroupOps.tooWide?, List.findIdx?_eq_some_iff_getElem]
  refine ⟨hlen.symm ▸ hg, ?_, fun h hh => ?_⟩ <;>
    simp only [GroupOps.descriptors, List.getElem_map, List.getElem_range]
  · exact decide_eq_true hwide
  · exact ne_true_of_eq_false <| decide_eq_false (hbelow h hh).not_gt

/-! The field -/

/-- The slots in group order, as `gdCore` extracts them from a consistent section. -/
def GroupOps.fieldSlots (o : GroupOps) (m : Memory) (b : Nat) : List Slot :=
  extract (layout o.headerBytes (o.descriptors m b) 0 0) m b o.mvm o.nbits

/-- Every slot of the field is a slot of some group (42_group R147, R151). -/
theorem fieldSlots_eq_slotAt (o : GroupOps) (m : Memory) (b i : Nat) (f : Slot) (h : (o.fieldSlots m b)[i]? = some f) :
    ∃ g k, g < o.ng ∧ k < o.length m b g ∧ i = o.start m b g + k ∧ f = o.slotAt m b g k := by
  obtain ⟨hi, -⟩ := List.getElem?_eq_some_iff.1 h
  rw [GroupOps.fieldSlots, extract_length_start] at hi
  obtain ⟨g, hg, k, hk, rfl⟩ := index_split _ _ _ hi
  exact ⟨g, k, hg, hk, rfl, Option.some.inj (h.symm.trans (extract_get o m b g k hg hk))⟩

/-- On a consistent section the group decoding is the field, unless a slot collides (42_group R157). -/
theorem gdCore_of_consistent (o : GroupOps) (m : Memory) (b size : Nat) (h : o.Consistent m b size) :
    gdCore o m b size = (collisionCheck (o.fieldSlots m b)).elim (.ok (o.fieldSlots m b)) .error := by
  have hchecks := coreChecks_of_consistent o m b size h
  unfold GroupOps.fieldSlots
  cases hcollision : collisionCheck (extract (layout o.headerBytes (o.descriptors m b) 0 0) m b o.mvm o.nbits) <;>
    simp only [gdCore, hchecks, hcollision, Option.elim]

theorem collisionCheck_eq_none (fs : List Slot) (h : ∀ x, Slot.val x ∈ fs → x < 2 ^ 31 - 1) :
    collisionCheck fs = none := by
  rw [collisionCheck, Option.map_eq_none_iff, List.findIdx?_eq_none_iff]
  intro f hf
  cases f with
  | miss => rfl
  | val x => rw [collides_val, decide_eq_false_iff_not]; exact (h x hf).not_ge

/-- A consistent section with no colliding value decodes to its field (42_group R151, R157). -/
theorem gdCore_eq_ok (o : GroupOps) (m : Memory) (b size : Nat) (h : o.Consistent m b size)
    (hfits : ∀ g, g < o.ng → ∀ k, k < o.length m b g → ∀ x, o.slotAt m b g k = .val x → x < 2 ^ 31 - 1) :
    gdCore o m b size = .ok (o.fieldSlots m b) := by
  have hbelow : ∀ x, Slot.val x ∈ o.fieldSlots m b → x < 2 ^ 31 - 1 := by
    intro x hx
    obtain ⟨i, hi⟩ := List.mem_iff_getElem?.1 hx
    obtain ⟨g, k, hg, hk, -, hslot⟩ := fieldSlots_eq_slotAt o m b i _ hi
    exact hfits g hg k hk x hslot.symm
  rw [gdCore_of_consistent o m b size h, collisionCheck_eq_none _ hbelow]
  rfl

/-- The lowest slot that reaches MISSING ends the decoding of a consistent section (42_group R157). -/
theorem gdCore_eq_overflow (o : GroupOps) (m : Memory) (b size g k : Nat) (x : Int) (h : o.Consistent m b size)
    (hg : g < o.ng) (hk : k < o.length m b g) (hslot : o.slotAt m b g k = .val x) (hx : 2 ^ 31 - 1 ≤ x)
    (hbelow : ∀ g' k', g' < o.ng → k' < o.length m b g' → o.start m b g' + k' < o.start m b g + k →
      ∀ y, o.slotAt m b g' k' = .val y → y < 2 ^ 31 - 1) :
    gdCore o m b size = .error ⟨.overflow, o.start m b g + k⟩ := by
  have hat : (o.fieldSlots m b)[o.start m b g + k]? = some (.val x) := hslot ▸ extract_get o m b g k hg hk
  have hlower : ∀ i, i < o.start m b g + k → ∀ y, (o.fieldSlots m b)[i]? = some (.val y) → y < 2 ^ 31 - 1 := by
    intro i hi y hy
    obtain ⟨g', k', hg', hk', rfl, hslot'⟩ := fieldSlots_eq_slotAt o m b i _ hy
    exact hbelow g' k' hg' hk' hi y hslot'.symm
  rw [gdCore_of_consistent o m b size h, collision_some _ _ x hat hx hlower]
  rfl

theorem fieldSlots_length (o : GroupOps) (m : Memory) (b size : Nat) (h : o.Consistent m b size) :
    (o.fieldSlots m b).length = o.npnts := by
  obtain ⟨-, -, htotal, -⟩ := h
  rw [GroupOps.fieldSlots, extract_length_start, htotal]

/-! Patterns and words -/

theorem ones_eq_natCast_sub (k : Nat) : ones k = (2 ^ k : Nat) - 1 := by
  rw [ones, Nat.cast_pow, Nat.cast_ofNat]

theorem natCast_eq_ones_iff (x k : Nat) : (x : Int) = ones k ↔ x + 1 = 2 ^ k := by
  rw [ones_eq_natCast_sub]
  omega

theorem natCast_eq_ones_sub_one_iff (x k : Nat) : (x : Int) = ones k - 1 ↔ x + 2 = 2 ^ k := by
  rw [ones_eq_natCast_sub]
  omega

theorem sext32_toInt (x : Int) (hlow : -2 ^ 31 ≤ x) (hhigh : x < 2 ^ 31) : (sext32 x).toInt = x := by
  rw [sext32, BitVec.toInt_ofInt]
  exact Int.bmod_eq_of_le (by omega) (by omega)

/-- Only a value of MISSING itself would be stored as the word of a missing slot (42_group R158). -/
theorem word_eq_missing_iff (f : Slot) (h : ∀ x, f = .val x → -2 ^ 31 ≤ x ∧ x < 2 ^ 31 - 1) :
    f.word = 0x7FFFFFFF#32 ↔ f = .miss := by
  cases f with
  | miss => exact ⟨fun _ => rfl, fun _ => rfl⟩
  | val x =>
    obtain ⟨hlow, hhigh⟩ := h x rfl
    refine ⟨fun hword => ?_, nofun⟩
    have hmissing : x = 2 ^ 31 - 1 := by
      rw [← sext32_toInt x hlow (by omega), show sext32 x = 0x7FFFFFFF#32 from hword]
      rfl
    omega

end Sys2Proof.Machine
end

section
/-! SUPPORT. The statements about group decoding, settled. -/

namespace Sys2Proof.Machine

/-- Settles O56: the checks pass, no slot collides, and the field is read slot by slot. -/
theorem groupCoreGivesTheField : Obligations.GroupCoreGivesTheField :=
  fun o m b size h hfits => ⟨o.fieldSlots m b, gdCore_eq_ok o m b size h hfits, fieldSlots_length o m b size h,
    fun g hg k hk => extract_get o m b g k hg hk⟩

/-- Settles O48: the stored array is the field, whose slot `start + k` is the k-th of its group. -/
theorem groupDecodeStoresTheField : Obligations.GroupDecodeStoresTheField := by
  intro s hmem hvalid hconsistent hfits
  have hdecodes := gdDecode_of_valid s _ hvalid (gdCore_eq_ok _ _ _ _ hconsistent hfits)
  have hlen := fieldSlots_length _ _ _ _ hconsistent
  exact (hdecodes.delivers rfl hmem (group_dest_end _ s hvalid) hlen).imp fun m hstored g hg k hk =>
    hstored _ _ (extract_get _ _ _ g k hg hk)

/-- Settles O51: the field stops at its lowest colliding slot, and E_OVERFLOW draws the destination. -/
theorem groupOverflowError : Obligations.GroupOverflowError := by
  rintro s mg o m b g k x rfl rfl rfl hmem hvalid hconsistent hg hk hslot hx hbelow
  have hcore := gdCore_eq_overflow _ _ _ _ g k x hconsistent hg hk hslot hx hbelow
  have hinfo := gdCore_info_lt _ _ _ _ _ (opnd_lt s 5) (opnd_lt s 3) hcore
  rw [(gdDecode_of_valid s mg hvalid hcore).eq_raiseFrom]
  exact spoiled_raiseFrom s s.groupOps.dest .overflow _ hmem hinfo (group_dest_end mg s hvalid) rfl

/-- Settles O49: down the chain of operand checks, which each passing check leaves to the rest. -/
theorem groupOperandErrorsInOrder : Obligations.GroupOperandErrorsInOrder := by
  refine ⟨fun s => rfl, fun s mg => ?_⟩
  have reject := rejected_of_groupChecks s mg
  simp only [groupChecks, groupParamChecks, groupRegionChecks, List.cons_append, List.nil_append, firstFailure_check,
    Config.rdMaxW, Config.splitLenCode, decide_eq_true_eq, Bool.not_eq_true', Bool.or_eq_false_iff, decide_eq_false_iff_not]
    at reject
  simp only [List.mem_cons, List.not_mem_nil, or_false]
  have hpayload : s.groupOps.payload < 2 ^ 32 := opnd_lt s 0
  have hdst : s.groupOps.dst < 2 ^ 32 := opnd_lt s 2
  refine ⟨fun n1 => reject _ _ (opnd_lt s 4) (if_pos n1), fun n1 w1 => reject _ _ (opnd_lt s 9) ?_,
    fun n1 w1 l1 => reject _ _ (opnd_lt s 13) ?_, fun n1 w1 l1 => ?_⟩
  · rw [if_neg n1.not_gt, if_pos w1]
  · rw [if_neg n1.not_gt, if_neg w1.not_gt, if_pos l1]
  rw [if_neg n1.not_gt, if_neg w1.not_gt, if_neg l1.not_gt] at reject
  refine ⟨fun m1 => reject _ _ (by decide) (if_pos (by omega)), fun m1 => ?_⟩
  rw [if_neg (by omega)] at reject
  refine ⟨fun g1 => reject _ _ (by decide) (if_pos (not_or.1 g1)), fun g1 => ?_⟩
  rw [if_neg (by omega)] at reject
  refine ⟨fun c1 => reject _ _ (by decide) (if_pos c1), fun c1 r1 => reject _ _ (opnd_lt s 5) ?_, fun c1 r1 => ?_⟩
  · rw [if_neg c1, if_pos r1]
  rw [if_neg c1, if_neg r1.not_gt] at reject
  refine ⟨fun s1 => reject _ _ hpayload (if_pos (eq_true_of_ne_false s1)), fun s1 d1 => reject _ _ hdst ?_,
    fun s1 d1 a1 => reject _ _ hdst ?_⟩
  · rw [if_neg (ne_true_of_eq_false s1), if_pos (eq_true_of_ne_false d1)]
  · rw [if_neg (ne_true_of_eq_false s1), if_neg (ne_true_of_eq_false d1), if_pos (eq_true_of_ne_false a1)]

/-- Settles O50: down the chain of consistency checks, which each passing check leaves to the rest. -/
theorem groupConsistencyErrorsInOrder : Obligations.GroupConsistencyErrorsInOrder := by
  rintro s mg o m b rfl rfl rfl hvalid
  have reject := rejected_of_coreChecks s mg hvalid
  simp only [coreChecks_descriptors, firstFailure_check, decide_eq_true_eq] at reject
  refine ⟨fun hheader => reject _ _ (sat32_lt _) (if_pos hheader), fun hheader => ?_⟩
  rw [if_neg hheader.not_gt] at reject
  refine ⟨fun g hg hwide hbelow => reject _ _ (hg.trans (opnd_lt s 5)) ?_, fun hwidths => ?_⟩
  · rw [tooWide_eq_some _ _ _ g hg hwide hbelow]
    rfl
  rw [tooWide_eq_none _ _ _ hwidths, Option.map_none, firstFailure_none] at reject
  simp only [firstFailure_check, decide_eq_true_eq] at reject
  refine ⟨fun hlength => reject _ _ (sat32_lt _) (if_pos hlength), fun hlength htotal => reject _ _ (sat32_lt _) ?_⟩
  rw [if_neg (not_not.2 hlength), if_pos htotal]
  rfl

/-- Settles O52: a value is the all-ones pattern of k bits when one more is 2^k, the pattern below it when two more are. -/
theorem missingValuePolicies : Obligations.MissingValuePolicies := by
  refine ⟨fun ref w raw nbits => rfl, fun mvm ref raw nbits hmvm => ?_, fun mvm ref w raw nbits hmvm hw => ?_⟩
  · have hne : mvm ≠ 0 := by omega
    simp only [substValue, if_neg hne, ↓reduceIte, natCast_eq_ones_iff, natCast_eq_ones_sub_one_iff, ite_or]
  · have hne : mvm ≠ 0 := by omega
    simp only [substValue, if_neg hne, if_neg hw.ne', natCast_eq_ones_iff, natCast_eq_ones_sub_one_iff, ite_or]

/-- Settles O53, by rounding up as the quotient and a test of the remainder. -/
theorem theTwoTotalsAgree : Obligations.TheTwoTotalsAgree := totalA_eq_totalB

/-- Settles O54: a value in range keeps its sign and never has the word of MISSING. -/
theorem taggedViewIsExact : Obligations.TaggedViewIsExact := by
  intro f hf
  have hmissing := word_eq_missing_iff f hf
  refine ⟨?_, hmissing⟩
  cases f with
  | miss => rfl
  | val x =>
    obtain ⟨hlow, hhigh⟩ := hf x rfl
    have hword : sext32 x ≠ BitVec.ofNat 32 Config.missing := mt hmissing.1 nofun
    rw [Slot.ofWord, Slot.word, if_neg hword, sext32_toInt x hlow (by omega)]

end Sys2Proof.Machine
end

section
/-! SUPPORT. Spatial differencing (43_spatial R170 to R179): the chain of operand checks around those of GD.DECODE, what
the decoding after them ends with, and the inversion that the statements describe. -/

namespace Sys2Proof.Machine

/-! The operand checks -/

theorem firstFailure_eq_findSome (cs : List (Option Raise)) : firstFailure cs = cs.findSome? id := by
  induction cs with
  | nil => rfl
  | cons c cs ih =>
    cases c with
    | none => exact ih
    | some r => rfl

/-- A stretch of checks counts in a chain as one check, its own first failure (60_exceptions R206). -/
theorem firstFailure_stretch (before stretch after : List (Option Raise)) :
    firstFailure (before ++ (stretch ++ after)) = firstFailure (before ++ firstFailure stretch :: after) := by
  simp only [firstFailure_eq_findSome, List.findSome?_append, List.findSome?_cons]
  cases stretch.findSome? id <;> rfl

/-- The operand checks of SD.DECODE, with those of GD.DECODE as one link of the chain (43_spatial R179 steps 1 to 6). -/
theorem diffChecks_chain (mg order eow : Nat) (o : GroupOps) :
    diffChecks mg order eow o = firstFailure
      [ check (¬ (order = 1 ∨ order = 2)) .order order,
        check (¬ (1 ≤ eow ∧ eow ≤ 4)) .param 15,
        groupChecks mg o,
        check (o.size < (order + 1) * eow) .size (sat32 ((order + 1) * eow)) ] := by
  have horder : (!(decide (order = 1) || decide (order = 2))) = decide (¬ (order = 1 ∨ order = 2)) := by
    rw [decide_not, Bool.decide_or]
  have heow : (decide (eow < Config.eowMin) || decide (Config.eowMax < eow)) = decide (¬ (1 ≤ eow ∧ eow ≤ 4)) := by
    rw [← Bool.decide_or, decide_eq_decide, not_and_or, not_le, not_le]
  rw [diffChecks, groupChecks, List.append_assoc _ (groupParamChecks mg o), List.append_assoc, horder, heow]
  exact firstFailure_stretch [_, _] (groupParamChecks mg o ++ groupRegionChecks o) [_]

/-- With a legal order and extra_octet_width two links of the chain are left (43_spatial R179 steps 3 to 6). -/
theorem diffChecks_of_legal (mg order eow : Nat) (o : GroupOps) (horder : order = 1 ∨ order = 2) (hlow : 1 ≤ eow)
    (hhigh : eow ≤ 4) : diffChecks mg order eow o = firstFailure
      [groupChecks mg o, check (o.size < (order + 1) * eow) .size (sat32 ((order + 1) * eow))] := by
  rw [diffChecks_chain, decide_eq_false (not_not.2 horder), decide_eq_false (not_not.2 ⟨hlow, hhigh⟩), check_false,
    check_false, firstFailure_none, firstFailure_none]

/-- The seed fields take at most 12 bytes, a number that is recorded as it is (43_spatial R171, 00_scope R8). -/
theorem seedBytes_lt {order eow : Nat} (horder : order = 1 ∨ order = 2) (hhigh : eow ≤ 4) :
    (order + 1) * eow < 2 ^ 32 := by
  have hbytes : (order + 1) * eow ≤ 3 * 4 := Nat.mul_le_mul (by omega) hhigh
  omega

theorem sat32_of_lt {n : Nat} (h : n < 2 ^ 32) : sat32 n = n := min_eq_left (Nat.le_pred_of_lt h)

theorem rejected_of_diffChecks (s : State) (mg : Nat) (code : ErrCode) (info : Nat) (hinfo : info < 2 ^ 32)
    (h : diffChecks mg s.sdOrder s.sdEow s.groupOps = some ⟨code, info⟩) : Rejected s (sdDecode mg s) code info := by
  have hcases := sdDecode_cases mg s
  rw [h] at hcases
  rw [hcases.eq_raise]
  exact rejected_raise s code info hinfo

/-- A failing operand check of GD.DECODE ends SD.DECODE as it ends GD.DECODE (43_spatial R172). -/
theorem sdDecode_eq_gdDecode (s : State) (mg : Nat) (horder : s.sdOrder = 1 ∨ s.sdOrder = 2) (hlow : 1 ≤ s.sdEow)
    (hhigh : s.sdEow ≤ 4) (hvalid : ¬ s.groupOps.Valid mg) : sdDecode mg s = gdDecode mg s := by
  obtain ⟨r, hr⟩ := Option.ne_none_iff_exists'.1 (mt (groupChecks_eq_none mg _).1 hvalid)
  have hgroup := gdDecode_cases mg s
  have hdiff := sdDecode_cases mg s
  have hchain : diffChecks mg s.sdOrder s.sdEow s.groupOps = some r := by
    rw [diffChecks_of_legal mg _ _ _ horder hlow hhigh, hr, firstFailure_some]
  rw [hr] at hgroup
  rw [hchain] at hdiff
  rw [hgroup.eq_raise, hdiff.eq_raise]

/-! The decoding -/

/-- Past the operand checks SD.DECODE ends as its decoding does. -/
theorem sdDecode_of_diffChecks (s : State) (mg : Nat) {result : Except Raise (List Slot)}
    (hchecks : diffChecks mg s.sdOrder s.sdEow s.groupOps = none)
    (h : diffCore s.groupOps s.sdOrder s.sdEow s.mem = result) : DecodesAs s (sdDecode mg s) none result := by
  have hcases := sdDecode_cases mg s
  rwa [hchecks, h] at hcases

/-- An error of the group decoding of the reduced section is the error of the whole (43_spatial R173). -/
theorem diffCore_of_gdCore_error (o : GroupOps) (order eow : Nat) (m : Memory) (r : Raise)
    (h : gdCore o m (o.payload + (order + 1) * eow) (o.size - (order + 1) * eow) = .error r) :
    diffCore o order eow m = .error r := by
  simp only [diffCore, h]

/-- A decoded field is inverted from its first slot on (43_spatial R173, R177). -/
theorem diffCore_of_gdCore_ok (o : GroupOps) (order eow : Nat) (m : Memory) (fs : List Slot)
    (h : gdCore o m (o.payload + (order + 1) * eow) (o.size - (order + 1) * eow) = .ok fs) :
    diffCore o order eow m = sdInvert order (readSeeds m o.payload order eow) fs 0 Rolling.start := by
  simp only [diffCore, h]

/-! The inversion -/

/-- Order 1 has no second seed: seeds that differ only there give the same inversions (43_spatial R170). -/
theorem Inverts.congr_seeds {order : Nat} {q p : Seeds} {fs gs : List Slot} (h : Inverts order q fs gs)
    (h1 : q.s1 = p.s1) (h2 : order = 2 → q.s2 = p.s2) (hmn : q.mn = p.mn) : Inverts order p fs gs := by
  obtain ⟨hplaces, hlen, hfirst, hone, htwo⟩ := h
  rw [h1] at hfirst
  rw [hmn] at hone htwo
  refine ⟨hplaces, hlen, hfirst, hone, fun horder => ?_⟩
  obtain ⟨hsecond, hrec⟩ := htwo horder
  exact ⟨h2 horder ▸ hsecond, hrec⟩

/-- The inversion the statement describes is the one the pass computes, when its values can be stored (43_spatial R174,
R176). -/
theorem sdInvert_of_inverts {order : Nat} {q : Seeds} {fs gs : List Slot} (horder : order = 1 ∨ order = 2)
    (h : Inverts order q fs gs) (hfits : ∀ x, Slot.val x ∈ gs → -2 ^ 31 ≤ x ∧ x < 2 ^ 31 - 1) :
    sdInvert order q fs 0 Rolling.start = .ok gs := by
  obtain ⟨hplaces, hrec⟩ := h
  exact sdInvert_ok order q fs gs 0 Rolling.start hplaces (recon_of_reconstruction order q _ _ horder hrec) hfits

/-- The pass stops at slot i when the inversion of the slots up to it ends with its first value that cannot be stored
(43_spatial R178). -/
theorem sdInvert_of_inverts_take {order : Nat} {q : Seeds} {fs gs : List Slot} {i : Nat} {d y : Int}
    (horder : order = 1 ∨ order = 2) (h : Inverts order q (fs.take i ++ [.val d]) (gs ++ [.val y]))
    (hat : fs[i]? = some (.val d)) (hfits : ∀ x, Slot.val x ∈ gs → -2 ^ 31 ≤ x ∧ x < 2 ^ 31 - 1)
    (hy : y < -2 ^ 31 ∨ 2 ^ 31 - 1 ≤ y) : sdInvert order q fs 0 Rolling.start = .error ⟨.overflow, i⟩ := by
  obtain ⟨hplaces, hrec⟩ := h
  rw [List.map_append, List.map_append] at hplaces
  have hprefix := List.append_inj_left' hplaces rfl
  obtain ⟨hi, hget⟩ := List.getElem?_eq_some_iff.1 hat
  have hsplit : fs.take i ++ .val d :: fs.drop (i + 1) = fs := by
    rw [← hget, List.cons_getElem_drop_succ, List.take_append_drop]
  have hstop := sdInvert_error order q d (fs.drop (i + 1)) y hy (fs.take i) gs 0 Rolling.start hprefix
    (recon_of_reconstruction order q _ _ horder hrec) hfits
  rwa [hsplit, Nat.zero_add, List.length_take_of_le hi.le] at hstop

end Sys2Proof.Machine
end

section
/-! SUPPORT. The statements about spatial differencing, settled. -/

namespace Sys2Proof.Machine

/-- Settles O55: the seeds are those the command reads, up to the unused second seed of order 1. -/
theorem differenceDecodeStoresTheInversion : Obligations.DifferenceDecodeStoresTheInversion := by
  rintro s o skip q fs gs rfl hmem horder hlow hhigh hvalid h1 h2 hmn rfl hseeds hgd hinverts hfits
  have hread : Inverts s.sdOrder (readSeeds s.mem s.groupOps.payload s.sdOrder s.sdEow) fs gs :=
    hinverts.congr_seeds h1 (fun ho => (h2 ho).trans (if_pos ho).symm) hmn
  have hcore := (diffCore_of_gdCore_ok _ _ _ _ _ hgd).trans (sdInvert_of_inverts horder hread hfits)
  have hlen := diffCore_ok_length _ _ _ _ _ hcore
  have hdecodes := sdDecode_of_diffChecks s _ (diffChecks_of_valid s _ _ rfl horder hlow hhigh hvalid hseeds) hcore
  refine (hdecodes.delivers rfl hmem (group_dest_end _ s hvalid) hlen).imp fun m hstored i hi => ?_
  have hget := List.getElem?_eq_getElem (hlen.symm ▸ hi)
  rw [hget, Option.map_some, hstored i _ hget]

/-- Settles O57: down the chain of operand checks, whose third link is the first failing check of GD.DECODE. -/
theorem differenceOperandErrorsInOrder : Obligations.DifferenceOperandErrorsInOrder := by
  refine ⟨fun s => rfl, fun s mg => ?_⟩
  have reject := rejected_of_diffChecks s mg
  simp only [List.mem_cons, List.not_mem_nil, or_false]
  refine ⟨fun o1 => reject _ _ (opnd_lt s 14) ?_, fun o1 e1 => reject _ _ (by decide) ?_,
    fun o1 e1 => ⟨fun c n hvalid hgroup => ?_, fun hvalid hsize => ?_⟩⟩
  · rw [diffChecks_chain, decide_eq_true o1, check_true, firstFailure_some]
  · have heow : ¬ (1 ≤ s.sdEow ∧ s.sdEow ≤ 4) := by omega
    rw [diffChecks_chain, decide_eq_false (not_not.2 o1), check_false, firstFailure_none, decide_eq_true heow, check_true,
      firstFailure_some]
  · rwa [sdDecode_eq_gdDecode s mg o1 (by omega) (by omega) hvalid]
  · have hbytes := seedBytes_lt o1 (eow := s.sdEow) (by omega)
    refine reject _ _ hbytes ?_
    rw [diffChecks_of_legal mg _ _ _ o1 (by omega) (by omega), (groupChecks_eq_none mg _).2 hvalid, firstFailure_none,
      decide_eq_true hsize, check_true, firstFailure_some, sat32_of_lt hbytes]

/-- Settles O58: an error of the group decoding ends the command by its kind, and the inversion ends at its first value that
cannot be stored. -/
theorem differenceDecodingErrors : Obligations.DifferenceDecodingErrors := by
  rintro s mg o skip rfl hmem horder hlow hhigh hvalid rfl hseeds
  have hchecks := diffChecks_of_valid s mg _ rfl horder hlow hhigh hvalid hseeds
  have hspoiled (i : Nat) (hi : i < 2 ^ 32)
      (hcore : diffCore s.groupOps s.sdOrder s.sdEow s.mem = .error ⟨.overflow, i⟩) :
      Spoiled s (sdDecode mg s) s.groupOps.dest .overflow i := by
    rw [(sdDecode_of_diffChecks s mg hchecks hcore).eq_raiseFrom]
    exact spoiled_raiseFrom s s.groupOps.dest .overflow i hmem hi (group_dest_end mg s hvalid) rfl
  refine ⟨fun r hgd hcode => ?_, fun r hgd hcode => ?_, fun fs gs i d y hgd hinverts hat hfits hy => ?_⟩
  · have hinfo := gdCore_info_lt _ _ _ _ _ (opnd_lt s 5) (opnd_lt s 3) hgd
    obtain ⟨-, hplain⟩ := (gdCore_err _ _ _ _ _ hgd).resolve_right hcode
    rw [(sdDecode_of_diffChecks s mg hchecks (diffCore_of_gdCore_error _ _ _ _ _ hgd)).eq_raiseFrom, State.raiseFrom, hplain]
    exact rejected_raise s r.code r.info hinfo
  · have hinfo := gdCore_info_lt _ _ _ _ _ (opnd_lt s 5) (opnd_lt s 3) hgd
    exact hspoiled r.info hinfo (hcode ▸ diffCore_of_gdCore_error _ _ _ _ _ hgd)
  · obtain ⟨hi, -⟩ := List.getElem?_eq_some_iff.1 hat
    obtain ⟨-, -, -, hlen⟩ := gdCore_ok _ _ _ _ _ hgd
    have hindex : i < 2 ^ 32 := (hlen ▸ hi).trans (opnd_lt s 3)
    have hstop := sdInvert_of_inverts_take horder hinverts hat hfits hy
    exact hspoiled i hindex ((diffCore_of_gdCore_ok _ _ _ _ _ hgd).trans hstop)

end Sys2Proof.Machine
end

section
/-! SUPPORT. BM.EXPAND (44_bitmap R190 to R195): what a failing check of it leaves, and the word it scatters to a position,
said by the set bits before it. -/

namespace Sys2Proof.Machine

/-! The checks -/

theorem rejects_of_expandChecks (s : State) (code : ErrCode) (info : Nat) (hinfo : info < 2 ^ 32)
    (h : expandChecks s.expandOps = some ⟨code, info⟩) : Rejects .bmExpand s code info := by
  refine ⟨_, ?_, rejected_raise s code info hinfo⟩
  rcases execBmExpand_cases s with ⟨r, hr, e⟩ | ⟨hnone, -⟩ | ⟨hnone, -⟩
  · rwa [Option.some.inj (h.symm.trans hr)]
  · exact nomatch h.symm.trans hnone
  · exact nomatch h.symm.trans hnone

/-- Past the operand checks a failing count check rejects too (44_bitmap R193). -/
theorem rejects_of_bitmapCheck (s : State) (code : ErrCode) (info : Nat) (hinfo : info < 2 ^ 32)
    (hchecks : expandChecks s.expandOps = none)
    (h : bitmapCheck (setBits (bitmapBits s.mem s.expandOps.b s.expandOps.n)) s.expandOps.nc = some ⟨code, info⟩) :
    Rejects .bmExpand s code info := by
  refine ⟨_, ?_, rejected_raise s code info hinfo⟩
  rcases execBmExpand_cases s with ⟨r, hr, -⟩ | ⟨-, r, hr, e⟩ | ⟨-, hnone, -⟩
  · exact nomatch hchecks.symm.trans hr
  · rwa [Option.some.inj (h.symm.trans hr)]
  · exact nomatch h.symm.trans hnone

theorem bitmapCheck_eq_none (pc nc : Nat) : bitmapCheck pc nc = none ↔ pc = nc := by
  rw [bitmapCheck, check_eq_none, decide_eq_false_iff_not, not_not]

theorem bitmapCheck_of_ne {pc nc : Nat} (hne : pc ≠ nc) (hpc : pc < 2 ^ 32) : bitmapCheck pc nc = some ⟨.bitmap, pc⟩ := by
  rw [bitmapCheck, decide_eq_true hne, check_true, sat32_of_lt hpc]

/-- A bitmap of N bits has at most N set bits. -/
theorem setBits_bitmapBits_le (m : Memory) (b n : Nat) : setBits (bitmapBits m b n) ≤ n :=
  List.countP_le_length.trans_eq (bitmapBits_length m b n)

/-! The scattered words -/

@[simp] theorem scatter_bitmapBits_length (m : Memory) (c b n : Nat) : (scatter m c (bitmapBits m b n) 0).length = n := by
  rw [scatter_length, bitmapBits_length]

/-- The first p bits of a bitmap are a bitmap (44_bitmap R192). -/
theorem bitmapBits_take (m : Memory) (b : Nat) {p n : Nat} (h : p ≤ n) : (bitmapBits m b n).take p = bitmapBits m b p := by
  rw [bitmapBits, ← List.map_take, List.take_range, min_eq_left h, bitmapBits]

theorem bitmapBits_getD (m : Memory) (b : Nat) {p n : Nat} (h : p < n) :
    (bitmapBits m b n).getD p false = streamBit m b p := by
  simp [bitmapBits, List.getD_eq_getElem?_getD, h]

/-- A set position takes the compact value whose index is the number of set bits before it (44_bitmap R194, R195). -/
theorem scatter_bitmapBits_getElem? (m : Memory) (c b n p : Nat) (h : p < n) :
    (scatter m c (bitmapBits m b n) 0)[p]? = some (if streamBit m b p then
      m.le32 (c + 4 * ∑ q ∈ Finset.range p, (streamBit m b q).toNat) else Config.qnan) := by
  have hget := scatter_get m c (bitmapBits m b n) 0 p (by rwa [bitmapBits_length])
  rwa [bitmapBits_getD m b h, bitmapBits_take m b h.le, Nat.zero_add, ← setBits, setBits_sum] at hget

end Sys2Proof.Machine
end

section
/-! SUPPORT. The statements about BM.EXPAND, settled. -/

namespace Sys2Proof.Machine

/-- Settles O59: no check fails, and element p of the destination is the word scattered to position p. -/
theorem expandScattersTheValues : Obligations.ExpandScattersTheValues := by
  intro s hmem hcompact hbitmap hdest hapart hapart' hcount
  have hchecks := (expandChecks_eq_none s.expandOps).2 ⟨hcompact, hbitmap, hdest, hapart, hapart'⟩
  rw [← setBits_sum] at hcount
  rcases execBmExpand_cases s with ⟨r, hr, -⟩ | ⟨-, r, hr, -⟩ | ⟨-, -, e⟩
  · exact nomatch hchecks.symm.trans hr
  · exact nomatch ((bitmapCheck_eq_none _ _).2 hcount).symm.trans hr
  · have hlen := scatter_bitmapBits_length s.mem s.expandOps.c s.expandOps.b s.expandOps.n
    have hend := expand_dest_end s hchecks
    rw [← hlen] at hend
    rw [hcount] at e
    refine delivers_deliver s .bmExpand s.expandOps.dest _ _ _ hmem hend (by rw [hlen]; rfl) (opnd_lt s 1) e fun p hp => ?_
    exact Memory.le32_storeWords_of_getElem? _ _ p _ _ hend hmem (scatter_bitmapBits_getElem? _ _ _ _ p hp)

/-- Settles O60: down the chain of operand checks, each failing where all before it pass, and then the count check. -/
theorem expandErrorsInOrder : Obligations.ExpandErrorsInOrder := by
  rintro s o rfl
  have reject := rejects_of_expandChecks s
  simp only [expandChecks, firstFailure_check] at reject
  have hdst : s.expandOps.d < 2 ^ 32 := opnd_lt s 4
  refine ⟨fun c1 => reject _ _ (opnd_lt s 0) (if_pos (eq_true_of_ne_false c1)), fun c1 => ?_⟩
  rw [if_neg (ne_true_of_eq_false c1)] at reject
  refine ⟨fun b1 => reject _ _ (opnd_lt s 2) (if_pos (eq_true_of_ne_false b1)), fun b1 => ?_⟩
  rw [if_neg (ne_true_of_eq_false b1)] at reject
  refine ⟨fun d1 => reject _ _ hdst (if_pos (eq_true_of_ne_false d1)), fun d1 => ?_⟩
  rw [if_neg (ne_true_of_eq_false d1)] at reject
  refine ⟨fun a1 => reject _ _ hdst (if_pos (eq_true_of_ne_false a1)), fun a1 a2 => reject _ _ hdst ?_,
    fun a1 a2 pc hpc hne => ?_⟩
  · rw [if_neg (ne_true_of_eq_false a1), if_pos (eq_true_of_ne_false a2)]
  · have hchecks := (expandChecks_eq_none s.expandOps).2 ⟨c1, b1, d1, a1, a2⟩
    rw [← setBits_sum] at hpc
    have hlt : pc < 2 ^ 32 := (hpc.trans_le (setBits_bitmapBits_le _ _ _)).trans_lt (opnd_lt s 3)
    exact rejects_of_bitmapCheck s _ _ hlt hchecks (hpc ▸ bitmapCheck_of_ne hne hlt)

end Sys2Proof.Machine
end

section
/-! SUPPORT. What a completion with an error leaves of memory and of the session (60_exceptions R203, R204). -/

namespace Sys2Proof.Machine

theorem step_of_none (s : State) (h : s.turn = none) : step s = .next s.takeTurn := by
  simp [step, h]

theorem running_of_decode (s : State) (regions : Instr → State → List Region) (i : Instr) (hbusy : s.busy = true)
    (hdecode : decode s.cmdLatch = .ok i) : s.running regions = regions i s := by
  simp [State.running, hbusy, hdecode]

/-- A plain error spoils no destination. -/
theorem Raise.Plain.not_spoiling {r : Raise} (h : r.Plain) : ¬ (r.code = .overflow ∨ r.code = .floatRange) := by
  rw [← spoilsDestination_iff, h.2]
  decide

/-- Drawing a region of data addresses makes exactly its bytes free (60_exceptions R204; log 4). -/
theorem read_draw (s : State) (d : Region) (a : Nat) (hmem : s.mem.wf) (hd : d.base + d.len ≤ Config.memSize) :
    (s.draw d).mem.read a = if d.has a then Config.freeByte s.draws a else s.mem.read a := by
  have hin : d.has a = true → a < Config.memSize := fun ha => ((d.has_iff a).1 ha).2.trans_le hd
  rw [State.draw_mem, Memory.read_drawRegion _ _ _ _ hmem]
  simp only [and_iff_left_of_imp hin]

/-- A command that ends with an error has raised it alone, has aborted the session, or has spoiled its one destination. -/
theorem Completion.error_cases {i : Instr} {s t : State} (h : Completion i s t) (herr : t.err ≠ .none) :
    (∃ r : Raise, r.Plain ∧ t = s.raise r) ∨
    (∃ r : Raise, r.Plain ∧ (i = .bwWrite ∨ i = .bwWriteb) ∧ t = s.abort.raise r) ∨
    (∃ (d : Region) (r : Raise), writeRegions i s = [d] ∧ d.base + d.len ≤ Config.memSize ∧
      (r.code = .overflow ∨ r.code = .floatRange) ∧ t = (s.draw d).raise r) := by
  cases h with
  | reject r hp => exact .inl ⟨r, hp, rfl⟩
  | abort r hp hi _ => exact .inr (.inl ⟨r, hp, hi, rfl⟩)
  | spoil d r hw hd hr => exact .inr (.inr ⟨d, r, hw, hd, hr, rfl⟩)
  | deliver | opened | appended | closed => exact absurd rfl herr

/-- The same of the running command, with E_ILLEGAL among the errors raised alone (30_encoding R71). -/
theorem complete_error_cases (s t : State) (hbusy : s.busy = true) (h : complete s = .next t) (herr : t.err ≠ .none) :
    (∃ r : Raise, r.Plain ∧ t = s.raise r) ∨
    (∃ r : Raise, r.Plain ∧ (decode s.cmdLatch = .ok .bwWrite ∨ decode s.cmdLatch = .ok .bwWriteb) ∧
      t = s.abort.raise r) ∨
    (∃ (d : Region) (r : Raise), s.running writeRegions = [d] ∧ d.base + d.len ≤ Config.memSize ∧
      (r.code = .overflow ∨ r.code = .floatRange) ∧ t = (s.draw d).raise r) := by
  rcases complete_cases s with ⟨_, -, e⟩ | ⟨_, -, -, e⟩ | ⟨i, hdecode, -, e⟩ <;> rw [e] at h
  · exact .inl ⟨_, ⟨by simp, rfl⟩, (next_inj h).symm⟩
  · cases h
  · rw [running_of_decode s writeRegions i hbusy hdecode, hdecode]
    simpa only [Except.ok.injEq] using (exec_result i s t h).error_cases herr

end Sys2Proof.Machine
end

section
/-! SUPPORT. The statements about an idle block and about what an error leaves, settled. -/

namespace Sys2Proof.Machine

/-- Settles O16: a plain error touches no memory and only a BitWriter command's abort touches the session; the two errors
that are not plain draw the one destination. -/
theorem memoryAndSessionAfterAnError : Obligations.MemoryAndSessionAfterAnError := by
  intro s t hinv hbusy h herr
  obtain ⟨-, -, -, hres0, -⟩ := complete_inv s t h hinv
  refine ⟨hres0 herr, ?_⟩
  rcases complete_error_cases s t hbusy h herr with ⟨r, hp, rfl⟩ | ⟨r, hp, hwriter, rfl⟩ | ⟨d, r, hd, hend, hr, rfl⟩
  · exact ⟨fun hr => absurd hr hp.not_spoiling, fun _ _ => rfl, .inl rfl⟩
  · exact ⟨fun hr => absurd hr hp.not_spoiling, fun _ _ => rfl, .inr ⟨hwriter, rfl⟩⟩
  · refine ⟨fun _ a => ?_, fun ho hf => absurd hr (not_or.2 ⟨ho, hf⟩), .inl rfl⟩
    rw [hd, covers_cons, covers_nil, Bool.or_false]
    exact read_draw s d a hinv.1 hend

/-- Settles O8: of an idle block without a reset it is the Host's turn when it has a move and no one's when it has none. -/
theorem idleStep : Obligations.IdleStep :=
  ⟨fun s hidle hplatform hmove => step_of_none s ((turn_none s).2 ⟨hidle, hplatform, hmove⟩),
    fun s m hidle hplatform hmove => step_of_host s m ((turn_host s).2 ⟨hplatform, ⟨m, hmove⟩, .inl hidle⟩) hmove⟩

end Sys2Proof.Machine
end

section
/-! SUPPORT. The block after a reset (70_reset R230 to R232), the turns before a completion (R240), and the Host's accesses of
data memory (R242). -/

namespace Sys2Proof.Machine

/-! Reset -/

theorem readReg_reset (r : RegName) (h : r ≠ .id) : State.reset.readReg r = 0#32 := by
  cases r with
  | id => exact absurd rfl h
  | arg i => exact Vector.getElem_replicate i.isLt
  | _ => rfl

@[simp] theorem readReg_platformReset (s : State) (r : RegName) : s.platformReset.readReg r = State.reset.readReg r := by
  cases r <;> rfl

theorem State.reset_inv : State.reset.Inv :=
  ⟨Memory.wf_nil, Session.wf_reset, nofun, fun _ => rfl, fun _ => rfl⟩

theorem running_idle (s : State) (regions : Instr → State → List Region) (h : s.busy = false) : s.running regions = [] := by
  simp [State.running, h]

/-- The bytes an abandoned command leaves unspecified do not depend on the schedule. -/
theorem running_abandonedRegions_takeTurn (s : State) :
    s.takeTurn.running abandonedRegions = s.running abandonedRegions := by
  have h (i : Instr) : abandonedRegions i s.takeTurn = abandonedRegions i s := by cases i <;> rfl
  simp only [State.running, State.takeTurn_busy, State.takeTurn_cmdLatch, h]

/-- An abandoned command has one destination, or one stretch of bytes to flush, or nothing to write. -/
theorem abandonedRegions_length_le (i : Instr) (s : State) : (abandonedRegions i s).length ≤ 1 := by
  cases i with
  | bwWrite | bwWriteb | bwClose =>
    dsimp only [abandonedRegions]
    split
    · exact Nat.le_refl 1
    · exact Nat.zero_le 1
  | bwOpen => exact Nat.zero_le 1
  | brRead | brReadf | gdDecode | sdDecode | bmExpand => exact Nat.le_refl 1

theorem running_abandonedRegions_length_le (s : State) : (s.running abandonedRegions).length ≤ 1 := by
  unfold State.running
  split
  · split
    · exact Nat.zero_le 1
    · exact abandonedRegions_length_le _ s
  · exact Nat.zero_le 1

/-- Drawing at most one region gives its data bytes the values of the next draw (log 4). -/
theorem drawAll_read_covered (rs : List Region) (s : State) (a : Nat) (hrs : rs.length ≤ 1) (hmem : s.mem.wf)
    (ha : a < Config.memSize) (hcovers : covers rs a = true) : (s.drawAll rs).mem.read a = Config.freeByte s.draws a := by
  match rs, hrs with
  | [r], _ =>
    rw [covers_cons, covers_nil, Bool.or_false] at hcovers
    rw [State.drawAll, State.drawAll, State.draw_mem, Memory.read_drawRegion _ _ _ _ hmem, if_pos ⟨hcovers, ha⟩]

/-! Turns -/

/-- A step that is no completion uses up one turn of the schedule and leaves the others. -/
theorem step_schedule (s t : State) (hturn : s.turn ≠ some .engine) (h : step s = .next t) :
    t.schedule = s.schedule.tail := by
  rcases step_cases s with ⟨-, e⟩ | ⟨-, m, -, e⟩ | ⟨hengine, -⟩ | ⟨-, -, e⟩
  · cases e.symm.trans h
    rfl
  · exact (hostMove_keeps m _ t (e.symm.trans h)).1
  · exact absurd hengine hturn
  · cases e.symm.trans h
    rfl

/-- While a command runs, only a turn of the schedule keeps the Engine from completing it (70_reset R240; log 2). -/
theorem schedule_ne_nil_of_busy (s : State) (hbusy : s.busy = true) (hturn : s.turn ≠ some .engine) : s.schedule ≠ [] :=
  fun hnil => hturn ((turn_engine s).2 ⟨hbusy, by simp [hnil], .inr (by simp [hnil])⟩)

/-! Data memory -/

section
variable (s : State) (a : Word) (b : Byte)

theorem hostMove_memWrite_outside
    (h : (covers (s.running readRegions) a.toNat || covers (s.running writeRegions) a.toNat) = false) :
    hostMove (.memWrite a b) s = .next { s with mem := s.mem.write a.toNat b } := by
  simp only [hostMove, covers_append, h, Bool.false_eq_true, if_false]

theorem hostMove_memWrite_inside
    (h : (covers (s.running readRegions) a.toNat || covers (s.running writeRegions) a.toNat) = true) :
    hostMove (.memWrite a b) s = .refused (.hostWriteInFootprint a) := by
  simp only [hostMove, covers_append, h, if_true]

theorem hostMove_memRead_outside (h : covers (s.running writeRegions) a.toNat = false) :
    hostMove (.memRead a) s = .next (s.reply (.byte (s.mem.read a.toNat))) := by
  simp only [hostMove, State.hostLoad, h, Bool.false_eq_true, if_false]

theorem hostMove_memRead_inside (h : covers (s.running writeRegions) a.toNat = true) :
    hostMove (.memRead a) s =
      .next { s.reply (.byte (Config.freeByte s.draws a.toNat)) with draws := s.draws + 1 } := by
  simp only [hostMove, State.hostLoad, h, if_true]

end

end Sys2Proof.Machine
end

section
/-! SUPPORT. The statements about reset, the turns before a completion, and the Host's accesses of data memory, settled. -/

namespace Sys2Proof.Machine

/-- Settles O27: the reset draws at most one region, that of the abandoned command, and sets the block as `State.reset` does. -/
theorem platformReset : Obligations.PlatformReset := by
  intro s hmem hplatform
  refine ⟨_, step_of_platform s ((turn_platform s).2 hplatform), readReg_platformReset _, rfl, rfl, rfl, rfl, rfl, rfl, rfl, rfl,
    rfl, fun hidle => ?_, fun a ha => ?_, fun a hlt ha => ?_⟩ <;>
    rw [State.platformReset_mem, running_abandonedRegions_takeTurn]
  · rw [running_idle s _ hidle]
    rfl
  · exact drawAll_read _ s.takeTurn a hmem ha
  · exact drawAll_read_covered _ s.takeTurn a (running_abandonedRegions_length_le s) hmem hlt ha

/-- Settles O26: the hazard test of a write is on both footprints of the running command, that of a read on its write
footprint alone. -/
theorem hostMemoryAccess : Obligations.HostMemoryAccess := by
  refine ⟨fun s a b hmem h => ⟨_, hostMove_memWrite_outside s a b h, ?_, fun x hx => ?_, rfl⟩, hostMove_memWrite_inside,
    hostMove_memRead_outside, hostMove_memRead_inside⟩
  · exact (Memory.read_write _ _ _ b hmem).trans (if_pos rfl)
  · exact (Memory.read_write _ _ _ b hmem).trans (if_neg hx)

/-- Settles O9: with no turn left, or none that is another's, the Engine completes the command. -/
theorem hostTurnsBeforeCompletionAreFinite : Obligations.HostTurnsBeforeCompletionAreFinite := by
  refine ⟨fun s hbusy hplatform hhost => (turn_engine s).2 ⟨hbusy, hplatform, hhost⟩, fun s t hbusy hturn h => ?_⟩
  have hpos := List.length_pos_iff.2 (schedule_ne_nil_of_busy s hbusy hturn)
  rw [step_schedule s t hturn h, List.length_tail, Nat.sub_add_cancel hpos]

/-- Settles O10: ID is a constant of the block, every other register is 0, and memory lists no byte. -/
theorem resetValues : Obligations.ResetValues :=
  ⟨rfl, readReg_reset, rfl, rfl, fun i => congrArg BitVec.toNat (Vector.getElem_replicate i.isLt), rfl, Memory.read_nil⟩

/-- Settles O11: nothing is written, no session is open and no command has run. -/
theorem resetMeetsTheInvariant : Obligations.ResetMeetsTheInvariant := State.reset_inv

end Sys2Proof.Machine
end
